-- ==== Sys2Proof/Word.lean ====
section
/-! DEFINITION. The word types of the block: a byte, a 32-bit queue or register word, and a 64-bit command word
(00_scope.md R8, R10; 30_encoding.md R110). -/

namespace Sys2Proof

/-- A byte is 8 bits (R10). -/
abbrev Byte := BitVec 8

/-- A queue word, a register value, a timestamp: `WORD_BITS` = `TS_WIDTH` = 32 (R8). -/
abbrev Word := BitVec 32

/-- A command is one 64-bit word (R110). -/
abbrev Command := BitVec 64

end Sys2Proof
end

