-- ==== Sys2Proof/Config.lean ====
section
/-! DEFINITION. The parameters of the block (00_scope.md R8), its agents (10_state.md R32), and the one free value of
the model: which agent moves once the given schedule is used up. -/

namespace Sys2Proof.Config

/-- `MAX_ROWS` = 32 (R8). -/
def maxRows : Nat := 32

/-- `DEFAULT_INTERVAL_MS` = 300 (R8, R52). -/
def defaultIntervalMs : Word := 300

/-- `ENC_CLOCK_HZ` = 30000 (R8, R201). -/
def encClockHz : Word := 30000

/-- `DEFAULT_LAYOUT` = 0x15 (R8, R120). -/
def defaultLayout : BitVec 6 := 0x15

/-- The parameters R8 marks OPEN. "A model takes each one marked OPEN as an argument": `State` carries them, no step
changes them, and a statement over all states holds for every value of them. Log 2. -/
structure Params where
  fifoDepth  : Nat
  numPins    : Nat
  numButtons : Nat
  maxCols    : Nat
  deriving DecidableEq, Repr

/-- The constraints R8 puts on the OPEN parameters. -/
abbrev Params.wf (p : Params) : Prop :=
  (1 ≤ p.fifoDepth ∧ p.fifoDepth ≤ 255) ∧ (3 ≤ p.numPins ∧ p.numPins ≤ 255) ∧
  (1 ≤ p.numButtons ∧ p.numButtons ≤ 48) ∧ (32 ≤ p.maxCols ∧ p.maxCols ≤ 65535)

/-- DESIGN CHOICE (log 2): the example values of 95_test_vectors.md. "These are example values, not the spec's." -/
def Params.vectors : Params := ⟨4, 30, 4, 64⟩

/-- The agents that may have a step of their own (R32). A debouncer steps inside the environment's line change (R284),
and what the environment does is an input. -/
inductive Agent
  | host
  | drawEngine
  | serializer
  deriving DecidableEq, Repr, Inhabited

/-- FREE VALUE (log 1): the agent that gets the n-th turn after the given schedule has run out. R90 fixes no order
("steps of different agents interleave in any order"), so nothing constrains it. -/
opaque freeAgent : Nat → Agent

end Sys2Proof.Config
end

