-- ==== Sys2Proof/Syntax.lean ====
section
/-! DEFINITION. The commands of the block (30_encoding.md R115, R116), one constructor for each row of
spec/opcode_table.json, and the assembler's lines (R125–R128). Operands are unsigned numbers (R112). The operands that
the block treats as bits are bit vectors: a queue word, an interval, the layout flags. -/

namespace Sys2Proof

/-- A command. Fields stand in the order of R125, except DCFG's, which follow the word (IDX, EN, INTERVAL). -/
inductive Instr
  /-- SCFG (R152): pins, frequency in Hz, chain length in bits. -/
  | scfg (dpin spin lpin freq chain : Nat)
  /-- SSTART (R155). -/
  | sstart
  /-- SSTOP (R156). -/
  | sstop
  /-- SENQ (R157). -/
  | senq (word : Word)
  /-- ECFG (R201). -/
  | ecfg (rows cols dpin spin : Nat) (layout : BitVec 6)
  /-- EDRAW (R219). -/
  | edraw
  /-- FPIX (R252). -/
  | fpix (x y : Nat) (c : Bool)
  /-- FPGET (R253). -/
  | fpget (x y : Nat)
  /-- FFILL (R254). -/
  | ffill (c : Bool)
  /-- FRECT (R255). -/
  | frect (x y w h : Nat) (c : Bool)
  /-- DCFG (R283). -/
  | dcfg (idx : Nat) (en : Bool) (interval : Word)
  /-- RDREG (R310). -/
  | rdreg (reg : Nat)
  /-- CLRERR (R312). -/
  | clrerr
  deriving DecidableEq, Repr

/-- The thirteen rows of the opcode map (R116), without operands. -/
inductive Op
  | scfg | sstart | sstop | senq | ecfg | edraw | fpix | fpget | ffill | frect | dcfg | rdreg | clrerr
  deriving DecidableEq, Repr

/-- The row a command belongs to. -/
def Instr.op : Instr → Op
  | .scfg _ _ _ _ _ => .scfg
  | .sstart => .sstart
  | .sstop => .sstop
  | .senq _ => .senq
  | .ecfg _ _ _ _ _ => .ecfg
  | .edraw => .edraw
  | .fpix _ _ _ => .fpix
  | .fpget _ _ => .fpget
  | .ffill _ => .ffill
  | .frect _ _ _ _ _ => .frect
  | .dcfg _ _ _ => .dcfg
  | .rdreg _ => .rdreg
  | .clrerr => .clrerr

/-- One symbolic descriptor `ROW|COL .HIGH|.LOW .A2H|.H2A` of R126, as its three flags (R120). -/
structure Descriptor where
  /-- HALF: the column-data half rather than the row-select half. -/
  col : Bool
  /-- POL: active-low rather than active-high. -/
  low : Bool
  /-- ORD: H2A (descending) rather than A2H (ascending). -/
  h2a : Bool
  deriving DecidableEq, Repr

/-- The layout operand of ECFG (R126): a number 0..63 or a symbolic pair. -/
inductive LayoutArg
  | number (n : Nat)
  | pair (d0 d1 : Descriptor)
  deriving DecidableEq, Repr

/-- A line of assembler text after parsing (R125), with the operands that may be omitted (R127) and the
pseudo-commands (R128). -/
inductive AsmLine
  | scfg (dpin spin lpin freq chain : Nat)
  | sstart
  | sstop
  | senq (word : Nat)
  | ecfg (rows cols dpin spin : Nat) (layout : Option LayoutArg)
  | edraw
  | fpix (x y c : Nat)
  | fpget (x y : Nat)
  | ffill (c : Nat)
  | frect (x y w h c : Nat)
  | dcfg (idx : Nat) (interval : Option Nat) (en : Option Nat)
  | rdreg (reg : Nat)
  | clrerr
  | fclr
  | fhline (x y w c : Nat)
  | fvline (x y h c : Nat)
  | frecto (x y w h c : Nat)
  deriving DecidableEq, Repr

end Sys2Proof
end

