-- ==== Sys2Proof/WellFormed.lean ====
section
/-! DEFINITION. A command is well formed when every operand fits its field (30_encoding.md R115, R119: the "encodable"
column). "An operand that does not fit its field is an assembly error" (R125). Whether a command accepts an operand is
not asked here: that is the command's own check (R112). -/

namespace Sys2Proof

/-- Every operand fits its field. The bit-vector and Boolean operands fit theirs by their type. -/
def Instr.wf : Instr → Bool
  | .scfg d s l f c =>
    decide (d < 2 ^ 8) && decide (s < 2 ^ 8) && decide (l < 2 ^ 8) && decide (f < 2 ^ 18) && decide (c < 2 ^ 14)
  | .sstart => true
  | .sstop => true
  | .senq _ => true
  | .ecfg r c d s _ => decide (r < 2 ^ 8) && decide (c < 2 ^ 16) && decide (d < 2 ^ 8) && decide (s < 2 ^ 8)
  | .edraw => true
  | .fpix x y _ => decide (x < 2 ^ 16) && decide (y < 2 ^ 8)
  | .fpget x y => decide (x < 2 ^ 16) && decide (y < 2 ^ 8)
  | .ffill _ => true
  | .frect x y w h _ => decide (x < 2 ^ 16) && decide (y < 2 ^ 8) && decide (w < 2 ^ 16) && decide (h < 2 ^ 8)
  | .dcfg i _ _ => decide (i < 2 ^ 8)
  | .rdreg r => decide (r < 2 ^ 8)
  | .clrerr => true

end Sys2Proof
end

