-- ==== Sys2Proof/Decode.lean ====
section
/-! DEFINITION. The opcode map (30_encoding.md R116), the decoder (R118: the opcode first, then the reserved bits) and
the encoder. The decoder is total: a word is a command, or it has an illegal opcode, or a reserved bit set. -/

namespace Sys2Proof

/-- The opcode of a row: column OP of R116. -/
def Op.code : Op → BitVec 8
  | .scfg => 0x01
  | .sstart => 0x02
  | .sstop => 0x03
  | .senq => 0x04
  | .ecfg => 0x10
  | .edraw => 0x11
  | .fpix => 0x20
  | .fpget => 0x21
  | .ffill => 0x22
  | .frect => 0x23
  | .dcfg => 0x30
  | .rdreg => 0x40
  | .clrerr => 0x41

/-- Column "match" of R116. (The decoder reads the formats of R115. That the two agree is a statement.) -/
def Op.pattern : Op → Command
  | .scfg => 0x0100000000000000
  | .sstart => 0x0200000000000000
  | .sstop => 0x0300000000000000
  | .senq => 0x0400000000000000
  | .ecfg => 0x1000000000000000
  | .edraw => 0x1100000000000000
  | .fpix => 0x2000000000000000
  | .fpget => 0x2100000000000000
  | .ffill => 0x2200000000000000
  | .frect => 0x2300000000000000
  | .dcfg => 0x3000000000000000
  | .rdreg => 0x4000000000000000
  | .clrerr => 0x4100000000000000

/-- Column "mask" of R116: the opcode and the reserved bits. -/
def Op.mask : Op → Command
  | .scfg => 0xFF00000000000000
  | .sstart => 0xFFFFFFFFFFFFFFFF
  | .sstop => 0xFFFFFFFFFFFFFFFF
  | .senq => 0xFFFFFFFF00000000
  | .ecfg => 0xFF0000000000FFC0
  | .edraw => 0xFFFFFFFFFFFFFFFF
  | .fpix => 0xFF000000FFFFFFFE
  | .fpget => 0xFF000000FFFFFFFF
  | .ffill => 0xFFFFFFFFFFFFFFFE
  | .frect => 0xFF000000000000FE
  | .dcfg => 0xFF007FFF00000000
  | .rdreg => 0xFFFFFFFFFFFFFF00
  | .clrerr => 0xFFFFFFFFFFFFFFFF

/-- The rows of R116, in its order. -/
def Op.all : List Op :=
  [.scfg, .sstart, .sstop, .senq, .ecfg, .edraw, .fpix, .fpget, .ffill, .frect, .dcfg, .rdreg, .clrerr]

/-- The row with opcode c, if R116 has one (R117: every other value is illegal). -/
def Op.ofCode (c : BitVec 8) : Option Op := Op.all.find? (fun o => o.code == c)

/-- `cmd[63:56]` (R110). -/
def opcodeOf (w : Command) : BitVec 8 := BitVec.ofNat 8 (w.toNat / 2 ^ 56)

/-- `cmd[lo+len-1:lo]` read as an unsigned integer (R10, R112). -/
def fieldOf (w : Command) (lo len : Nat) : Nat := w.toNat / 2 ^ lo % 2 ^ len

/-- A one-bit field: C at bit 0, EN at bit 47 (R115). -/
def flagOf (w : Command) (lo : Nat) : Bool := decide (fieldOf w lo 1 = 1)

/-- A 32-bit field kept as bits: WORD, INTERVAL (R115). -/
def wordOf (w : Command) (lo : Nat) : Word := BitVec.ofNat 32 (fieldOf w lo 32)

/-- The "res" columns of each format, as (lowest bit, length) (R115). -/
def Op.reserved : Op → List (Nat × Nat)
  | .scfg => []
  | .sstart => [(0, 56)]
  | .sstop => [(0, 56)]
  | .senq => [(32, 24)]
  | .ecfg => [(6, 10)]
  | .edraw => [(0, 56)]
  | .fpix => [(1, 31)]
  | .fpget => [(0, 32)]
  | .ffill => [(1, 55)]
  | .frect => [(1, 7)]
  | .dcfg => [(32, 15)]
  | .rdreg => [(8, 48)]
  | .clrerr => [(0, 56)]

/-- Every reserved bit of the format is 0 (R113). -/
def reservedClear (o : Op) (w : Command) : Bool := o.reserved.all (fun r => fieldOf w r.1 r.2 == 0)

/-- The operand fields of each format (R115). -/
def operandsOf (o : Op) (w : Command) : Instr :=
  match o with
  | .scfg => .scfg (fieldOf w 48 8) (fieldOf w 40 8) (fieldOf w 32 8) (fieldOf w 14 18) (fieldOf w 0 14)
  | .sstart => .sstart
  | .sstop => .sstop
  | .senq => .senq (wordOf w 0)
  | .ecfg => .ecfg (fieldOf w 48 8) (fieldOf w 32 16) (fieldOf w 24 8) (fieldOf w 16 8) (BitVec.ofNat 6 (fieldOf w 0 6))
  | .edraw => .edraw
  | .fpix => .fpix (fieldOf w 40 16) (fieldOf w 32 8) (flagOf w 0)
  | .fpget => .fpget (fieldOf w 40 16) (fieldOf w 32 8)
  | .ffill => .ffill (flagOf w 0)
  | .frect => .frect (fieldOf w 40 16) (fieldOf w 32 8) (fieldOf w 16 16) (fieldOf w 8 8) (flagOf w 0)
  | .dcfg => .dcfg (fieldOf w 48 8) (flagOf w 47) (wordOf w 0)
  | .rdreg => .rdreg (fieldOf w 0 8)
  | .clrerr => .clrerr

/-- What the decoder says of a word (R118). -/
inductive Decoded
  | ok (i : Instr)
  /-- R117: the opcode is in no row. -/
  | illegalOpcode
  /-- R113: a bit that the format gives to no field is set. -/
  | reservedBits
  deriving DecidableEq, Repr

/-- The decoder: opcode first (R117), then the reserved bits (R113), then the operand fields (R112, R118). -/
def decode (w : Command) : Decoded :=
  match Op.ofCode (opcodeOf w) with
  | none => .illegalOpcode
  | some o => if reservedClear o w then .ok (operandsOf o w) else .reservedBits

/-- The word with opcode o and operand bits `low`, that is `cmd[55:0] = low` (R110). -/
def pack (o : Op) (low : Nat) : Command := BitVec.ofNat 64 (o.code.toNat * 2 ^ 56 + low)

/-- The encoder: the word of a command, each field at its lowest bit, the most significant field first (R115). -/
def encode : Instr → Command
  | .scfg d s l f c => pack .scfg (d * 2 ^ 48 + s * 2 ^ 40 + l * 2 ^ 32 + f * 2 ^ 14 + c)
  | .sstart => pack .sstart 0
  | .sstop => pack .sstop 0
  | .senq w => pack .senq w.toNat
  | .ecfg r c d s lay => pack .ecfg (r * 2 ^ 48 + c * 2 ^ 32 + d * 2 ^ 24 + s * 2 ^ 16 + lay.toNat)
  | .edraw => pack .edraw 0
  | .fpix x y c => pack .fpix (x * 2 ^ 40 + y * 2 ^ 32 + c.toNat)
  | .fpget x y => pack .fpget (x * 2 ^ 40 + y * 2 ^ 32)
  | .ffill c => pack .ffill c.toNat
  | .frect x y w h c => pack .frect (x * 2 ^ 40 + y * 2 ^ 32 + w * 2 ^ 16 + h * 2 ^ 8 + c.toNat)
  | .dcfg i en iv => pack .dcfg (i * 2 ^ 48 + en.toNat * 2 ^ 47 + iv.toNat)
  | .rdreg r => pack .rdreg r
  | .clrerr => pack .clrerr 0

/-- The decoder on the opcode table's numbering. Every row of the table has 64 bits, the one command length (R110). -/
def decodeTableWord (nbits w : Nat) : Option Instr :=
  match decode (BitVec.ofNat 64 (w % 2 ^ nbits)) with
  | .ok i => some i
  | .illegalOpcode => none
  | .reservedBits => none

end Sys2Proof
end

