-- ==== Sys2Proof/Machine/State.lean ====
section
/-! DEFINITION. The state of the block, plain data (10_state.md R33–R56), the reasons a step can stop, the turns of the
agents and of the environment, and the state after reset (70_reset_and_hazards.md R371). -/

namespace Sys2Proof.Machine

open Sys2Proof.Config (Params Agent)

/-- The point the bit engine has reached in its cycle (R39). -/
inductive Phase
  | shiftLow
  | shiftHigh
  | latchHigh
  | latchLow
  deriving DecidableEq, Repr

/-- The serializer (R33–R43). `SER.idle` (R44) is derived, not stored. -/
structure Ser where
  configured : Bool
  enabled    : Bool
  dataPin    : BitVec 8
  shiftPin   : BitVec 8
  latchPin   : BitVec 8
  freq       : Word
  chain      : Word
  /-- `SER.DATA`, `SER.SHIFT`, `SER.LATCH`: the levels driven on the three lines (R38). -/
  data       : Bool
  shift      : Bool
  latch      : Bool
  phase      : Phase
  /-- The output word queue, its head first (R40). -/
  fifo       : List Word
  /-- The word being shifted out, the next bit to send at bit 31 (R41). -/
  osr        : Word
  /-- How many bits of that word are not yet sent, 0..32 (R41). -/
  osrCount   : Nat
  bitCount   : Word
  latchCount : Word
  deriving DecidableEq, Repr

/-- The framebuffer's bytes, as (linear byte index, byte) in one canonical form: indexes strictly rising, no byte equal
to what an unlisted index reads as. An unlisted index reads 0, the reset contents R51 gives. The index of byte (y, k) is
`y·colBytes + k` (20_memory.md R81). Log 11. -/
abbrev Memory := List Host.Cell

/-- The encoder (R45–R51). -/
structure Enc where
  configured : Bool
  rows       : BitVec 8
  cols       : BitVec 16
  layout     : BitVec 6
  rowBytes   : Word
  colBytes   : Word
  paddedSize : Word
  warnRows   : Bool
  busy       : Bool
  curRow     : BitVec 8
  curWord    : BitVec 16
  fb         : Memory
  deriving DecidableEq, Repr

/-- One debouncer instance (R52). -/
structure Deb where
  en       : Bool
  interval : Word
  hasFired : Bool
  last     : Word
  lvl      : Bool
  count    : Word
  deriving DecidableEq, Repr

/-- The record of the last failed command (R53). -/
structure ErrStat where
  code   : BitVec 8
  opcode : BitVec 8
  valid  : Bool
  deriving DecidableEq, Repr

/-- A record of `EVENTS` (R54): `FIRE(i, t)`, button i, timestamp t. -/
inductive Event
  | fire (i : Nat) (t : Word)
  deriving DecidableEq, Repr

/-- `HOST.wait` (R55): DRAW while an EDRAW holds the host. -/
inductive HostWait
  | none
  | draw
  deriving DecidableEq, Repr

/-- The response that ends a command: an 8-bit code and a 32-bit value (30_encoding.md R111). -/
structure Response where
  code  : BitVec 8
  value : Word
  deriving DecidableEq, Repr

/-- The drawing primitives that the block does not implement (42_framebuffer.md R256). -/
inductive Primitive
  | line
  | text
  | scroll
  | blit
  deriving DecidableEq, Repr

/-- One turn: an agent may take its step, or the environment acts (10_state.md R32, R56). Turns are inputs. Log 1. -/
inductive Turn
  /-- The agent takes its step if it has one; if it holds, nothing happens (R11). Log 6. -/
  | agent (a : Agent)
  /-- MS_NOW advances by some milliseconds (43_debounce.md R281). Log 16. -/
  | advanceTime (ms : Nat)
  /-- The environment drives BTN[i] to v (43_debounce.md R284). -/
  | lineChange (i : Nat) (v : Bool)
  /-- RESET (70_reset_and_hazards.md R370). Log 10. -/
  | reset
  /-- A second framebuffer writer stores byte b at (y, k). "A model must refuse such a writer" (R380). Log 9. -/
  | foreignWrite (y k : Nat) (b : Byte)
  /-- A primitive the block gives no meaning to is asked of it. "A model refuses them by name" (R256). Log 9. -/
  | primitive (p : Primitive)
  deriving DecidableEq, Repr

/-- The state of the block, of its inputs, and of the model's own bookkeeping (the last five fields). -/
structure State where
  /-- The OPEN parameters (00_scope.md R8). No step changes them (R370). -/
  params    : Params
  ser       : Ser
  enc       : Enc
  /-- `DEB[i]`, one entry for each i < NUM_BUTTONS (R52). -/
  deb       : List Deb
  errstat   : ErrStat
  /-- `EVENTS`, oldest first (R54). -/
  events    : List Event
  wait      : HostWait
  /-- The input `MS_NOW` (R56). -/
  msNow     : Word
  /-- The inputs `BTN[i]` (R56). -/
  btn       : List Bool
  /-- MODEL (log 4): the command in progress on the host port (30_encoding.md R114). -/
  port      : Option Command
  /-- MODEL (log 4): the commands the host has yet to issue, in issue order (10_state.md R31). -/
  pending   : List Command
  /-- MODEL (log 4): the responses given so far, oldest first (30_encoding.md R111). -/
  responses : List Response
  /-- MODEL (log 1): the turns to come. -/
  schedule  : List Turn
  /-- MODEL (log 1): how many free choices of an agent have been made. -/
  choices   : Nat
  deriving DecidableEq, Repr

/-- Why the machine stops. No command and no agent of the block stops it (60_exceptions.md R331, R333). -/
inductive Fault
  /-- Raised by a line change on a button line that does not exist: R56 gives lines BTN[i] for i < NUM_BUTTONS only.
  Safe: the model stops on an input the hardware does not have. Log 8. -/
  | noSuchLine (i : Nat)
  deriving DecidableEq, Repr

/-- What the model refuses to give a meaning to. -/
inductive Refusal
  /-- Raised by an arm of exec whose instruction has no meaning yet (none is left). Safe. -/
  | notModelled (mnemonic : String)
  /-- Raised by a second framebuffer writer, which R380 says a model must refuse. Safe. -/
  | secondFramebufferWriter
  /-- Raised by a drawing primitive the block does not implement, which R256 says a model refuses by name. Safe. -/
  | primitiveNotImplemented (p : Primitive)
  deriving DecidableEq, Repr

/-- The serializer after reset (R33–R43, R371). -/
def Ser.reset : Ser :=
  { configured := false, enabled := false, dataPin := 0, shiftPin := 0, latchPin := 0, freq := 0, chain := 0,
    data := false, shift := false, latch := false, phase := .shiftLow, fifo := [], osr := 0, osrCount := 0,
    bitCount := 0, latchCount := 0 }

/-- The encoder after reset (R45–R51, R371). -/
def Enc.reset : Enc :=
  { configured := false, rows := 0, cols := 0, layout := Config.defaultLayout, rowBytes := 0, colBytes := 0,
    paddedSize := 0, warnRows := false, busy := false, curRow := 0, curWord := 0, fb := [] }

/-- A debouncer instance after reset (R52, R371). -/
def Deb.reset : Deb :=
  { en := false, interval := Config.defaultIntervalMs, hasFired := false, last := 0, lvl := false, count := 0 }

/-- ERRSTAT after reset (R53, R371). -/
def ErrStat.reset : ErrStat := { code := 0, opcode := 0, valid := false }

/-- The state after reset, for given parameters (R371). The inputs MS_NOW and BTN[i] have no reset value in the spec:
DESIGN CHOICE (log 3). The model's own fields start empty: DESIGN CHOICE (logs 1 and 4). -/
def State.resetWith (p : Params) : State :=
  { params := p, ser := .reset, enc := .reset, deb := List.replicate p.numButtons .reset, errstat := .reset,
    events := [], wait := .none, msNow := 0, btn := List.replicate p.numButtons false, port := none, pending := [],
    responses := [], schedule := [], choices := 0 }

/-- The machine right after reset. The parameters are the example values of 95_test_vectors.md: DESIGN CHOICE (log 2). -/
def State.reset : State := State.resetWith Params.vectors

end Sys2Proof.Machine
end

