-- ==== Sys2Proof/Machine/Ops.lean ====
section
/-! DEFINITION. The named operations that the meanings share: framebuffer bytes and pixels (20_memory.md R81, R82), the
queue (10_state.md R40), the end of a command, and the error entry (60_exceptions.md R331), which takes the place of an
exception on this block, with CLRERR's clearing beside it (R338: an error has no handler and no return). -/

namespace Sys2Proof.Machine

/-! ### Framebuffer storage -/

/-- The byte at an index. An unlisted index reads 0 (R51). -/
def Memory.read : Memory → Nat → Byte
  | [], _ => 0#8
  | (k, v) :: m, a => if k = a then v else Memory.read m a

/-- The byte at an index is replaced. The canonical form is kept: a byte that becomes 0 is not listed. -/
def Memory.write : Memory → Nat → Byte → Memory
  | [], a, v => if v = 0#8 then [] else [(a, v)]
  | (k, u) :: m, a, v =>
    if a < k then (if v = 0#8 then (k, u) :: m else (a, v) :: (k, u) :: m)
    else if a = k then (if v = 0#8 then m else (a, v) :: m)
    else (k, u) :: Memory.write m a v

/-- The canonical form: indexes strictly rising, no listed byte 0. -/
abbrev Memory.wf (m : Memory) : Prop := m.Pairwise (fun a b => a.1 < b.1) ∧ ∀ c ∈ m, c.2 ≠ 0#8

/-- The linear index of byte (y, k): `y·colBytes + k` (R81). -/
def fbIndex (e : Enc) (y k : Nat) : Nat := y * e.colBytes.toNat + k

/-- `FB_read(y, k)` (R81). -/
def fbRead (e : Enc) (y k : Nat) : Byte := Memory.read e.fb (fbIndex e y k)

/-- `FB_write(y, k, v)` (R81). -/
def fbWrite (e : Enc) (y k : Nat) (v : Byte) : Enc := { e with fb := Memory.write e.fb (fbIndex e y k) v }

/-- `b[j] <- c` on a byte. -/
def setBit (b : Byte) (j : Nat) (c : Bool) : Byte := if c then b ||| (1#8 <<< j) else b &&& ~~~(1#8 <<< j)

/-- `pix(x, y)`: bit 7 − (x mod 8) of byte (y, x/8) (R82). -/
def pix (e : Enc) (x y : Nat) : Bool := (fbRead e y (x / 8)).getLsbD (7 - x % 8)

/-- `setpix(x, y, c)` (R82). -/
def setpix (e : Enc) (x y : Nat) (c : Bool) : Enc := fbWrite e y (x / 8) (setBit (fbRead e y (x / 8)) (7 - x % 8) c)

/-- `for x in xs : setpix(x, y, c)`. -/
def setRow (e : Enc) (xs : List Nat) (y : Nat) (c : Bool) : Enc := xs.foldl (fun e x => setpix e x y c) e

/-- `for y in ys : for x in xs : setpix(x, y, c)`. -/
def setArea (e : Enc) (xs ys : List Nat) (c : Bool) : Enc := ys.foldl (fun e y => setRow e xs y c) e

/-- Whether (x, y) lies in the configured geometry (R250). -/
def inBounds (e : Enc) (x y : Nat) : Bool := decide (x < e.cols.toNat) && decide (y < e.rows.toNat)

/-! ### The queue -/

/-- `|SER.fifo| = FIFO_DEPTH`, and the full queue stays full above that (R40). Log 17. -/
def fifoFull (s : State) : Bool := decide (s.params.fifoDepth ≤ s.ser.fifo.length)

/-- `FifoPush(w)`: w at the tail (R40). Performed only when the queue is not full. -/
def fifoPush (w : Word) (x : Ser) : Ser := { x with fifo := x.fifo ++ [w] }

/-- `SerReset()` (40_serializer.md R153). -/
def serReset (x : Ser) : Ser :=
  { x with fifo := [], osr := 0, osrCount := 0, bitCount := 0, phase := .shiftLow,
           data := false, shift := false, latch := false }

/-! ### Debouncer instances -/

/-- `DEB[i]`. Every i < NUM_BUTTONS has an entry in a state that meets the invariant. Log 17. -/
def debAt (s : State) (i : Nat) : Deb := s.deb.getD i .reset

/-! ### The end of a command -/

/-- The error codes (60_exceptions.md R330). -/
inductive Err
  | illegalOpcode | reservedBits | cfgRows | cfgLayout | cfgPinAdj | cfgChain | cfgGeomZero | cfgColsMax | cfgPinRange
  | cfgPinConflict | cfgFreq | notConfigured | busy | badIndex
  deriving DecidableEq, Repr

/-- The code of each error (R330). -/
def Err.code : Err → BitVec 8
  | .illegalOpcode => 0x01
  | .reservedBits => 0x02
  | .cfgRows => 0x10
  | .cfgLayout => 0x11
  | .cfgPinAdj => 0x12
  | .cfgChain => 0x13
  | .cfgGeomZero => 0x14
  | .cfgColsMax => 0x15
  | .cfgPinRange => 0x16
  | .cfgPinConflict => 0x17
  | .cfgFreq => 0x18
  | .notConfigured => 0x20
  | .busy => 0x21
  | .badIndex => 0x22

/-- The code OK (R111, R330). -/
def okCode : BitVec 8 := 0x00

/-- The command in progress ends with a response, and the port is free for the next one (R111, R114). -/
def respond (code : BitVec 8) (value : Word) (s : State) : State :=
  { s with port := none, responses := s.responses ++ [⟨code, value⟩] }

/-- "a command that ends without `raise` or `respond` responds OK with value 0" (R11). -/
def respondOk (s : State) : State := respond okCode 0 s

/-- Error entry, `raise e` (R331): ERRSTAT records the code and the opcode, the command responds with the code and
value 0, and nothing else changes. -/
def raise (e : Err) (opcode : BitVec 8) (s : State) : State :=
  respond e.code 0 { s with errstat := { code := e.code, opcode := opcode, valid := true } }

/-- ERRSTAT is cleared (44_status.md R312). -/
def clearErr (s : State) : State := { s with errstat := { code := 0, opcode := 0, valid := false } }

end Sys2Proof.Machine
end

