-- ==== Sys2Proof/Machine/Operands.lean ====
section
/-! DEFINITION. What the operands and the configured geometry stand for: the derived geometry (00_scope.md R9), the
Layout Descriptor's flags (30_encoding.md R120, R121), byte sequences (R10), bit reversal (R12), and the spans of pixels
that the framebuffer commands cover (42_framebuffer.md R254, R255). -/

namespace Sys2Proof.Machine

/-- The integer ceiling of a/b (R10). -/
def ceilDiv (a b : Nat) : Nat := (a + b - 1) / b

/-- `rowBytes = ceil(rows/8)`, `colBytes = ceil(cols/8)` (R9). -/
def bytesFor (n : Nat) : Nat := ceilDiv n 8

/-- `paddedSize = 4 * ceil(dataSize/4)` (R9). -/
def paddedFor (rowBytes colBytes : Nat) : Nat := 4 * ceilDiv (rowBytes + colBytes) 4

/-! ### The Layout Descriptor (R120, R121) -/

/-- The pair selects exactly one row-half and exactly one column-half: `LAYOUT[5] ≠ LAYOUT[2]` (R121). -/
def layoutValid (l : BitVec 6) : Bool := l.getLsbD 5 != l.getLsbD 2

/-- `rowFirst = (LAYOUT[5] = 0)` (R121). -/
def rowFirst (l : BitVec 6) : Bool := !l.getLsbD 5

/-- `rowDesc = rowFirst ? LAYOUT[5:3] : LAYOUT[2:0]` (R121). -/
def rowDesc (l : BitVec 6) : BitVec 3 := if rowFirst l then l.extractLsb' 3 3 else l.extractLsb' 0 3

/-- `colDesc = rowFirst ? LAYOUT[2:0] : LAYOUT[5:3]` (R121). -/
def colDesc (l : BitVec 6) : BitVec 3 := if rowFirst l then l.extractLsb' 0 3 else l.extractLsb' 3 3

/-- POL of the row half: active-low (R121). -/
def rowLow (l : BitVec 6) : Bool := (rowDesc l).getLsbD 1

/-- ORD of the row half: H2A (R121). -/
def rowH2A (l : BitVec 6) : Bool := (rowDesc l).getLsbD 0

/-- POL of the column half: active-low (R121). -/
def colLow (l : BitVec 6) : Bool := (colDesc l).getLsbD 1

/-- ORD of the column half: H2A (R121). -/
def colH2A (l : BitVec 6) : Bool := (colDesc l).getLsbD 0

/-! ### Byte sequences (R10) and bit reversal (R12) -/

/-- `BE(B)`, the big-endian integer of a byte sequence. -/
def beValue (bs : List Byte) : Nat := bs.foldl (fun acc b => acc * 256 + b.toNat) 0

/-- `BE_n(v)`, the n-byte big-endian sequence of `v mod 2^(8n)`. -/
def beBytes (n v : Nat) : List Byte := (List.range n).map (fun k => BitVec.ofNat 8 (v / 2 ^ (8 * (n - 1 - k))))

/-- `rev8(b)`: bit k of the result is bit 7−k of b (R12). -/
def rev8 (b : Byte) : Byte := b.reverse

/-- `[~b for b in B]` when the half is active-low (R210, R212). -/
def polarity (low : Bool) (bs : List Byte) : List Byte := if low then bs.map (fun b => ~~~b) else bs

/-! ### Spans of pixels -/

/-- `lo .. min(lo + len, bound) − 1`, computed on unbounded integers (R255). -/
def span (lo len bound : Nat) : List Nat := List.range' lo (min (lo + len) bound - lo)

end Sys2Proof.Machine
end

