-- ==== Sys2Proof/Machine/Flags.lean ====
section
/-! DEFINITION. The status bits that are computed (10_state.md R44, R49, R57) and the register map over them (R58). The
block has no condition codes (R57). -/

namespace Sys2Proof.Machine

/-- The two bits of PHASE (R39). -/
def Phase.code : Phase → BitVec 2
  | .shiftLow => 0
  | .shiftHigh => 1
  | .latchHigh => 2
  | .latchLow => 3

/-- `SER.idle` (R44). -/
def idle (x : Ser) : Bool := x.fifo.isEmpty && decide (x.osrCount = 0) && decide (x.phase = .shiftLow)

/-- The rows advisory of R202: `rows mod 8 ≠ 0`. -/
def warnFor (rows : Nat) : Bool := decide (rows % 8 ≠ 0)

/-- One bit of a register. -/
def bit (b : Bool) : BitVec 1 := BitVec.ofBool b

/-- SER_STATUS: OSR_COUNT [21:16], FIFO_LEVEL [15:8], PHASE [5:4], IDLE [2], ENABLED [1], CONFIGURED [0]. -/
def serStatus (x : Ser) : Word :=
  0#10 ++ BitVec.ofNat 6 x.osrCount ++ BitVec.ofNat 8 x.fifo.length ++ 0#2 ++ x.phase.code ++ 0#1 ++ bit (idle x) ++
    bit x.enabled ++ bit x.configured

/-- SER_PINS: LATCH [26], SHIFT [25], DATA [24], LATCH_PIN [23:16], SHIFT_PIN [15:8], DATA_PIN [7:0]. -/
def serPins (x : Ser) : Word :=
  0#5 ++ bit x.latch ++ bit x.shift ++ bit x.data ++ x.latchPin ++ x.shiftPin ++ x.dataPin

/-- ENC_STATUS: WARN_ROWS [2], BUSY [1], CONFIGURED [0]. -/
def encStatus (e : Enc) : Word := 0#29 ++ bit e.warnRows ++ bit e.busy ++ bit e.configured

/-- ENC_GEOM: COLS [23:8], ROWS [7:0]. -/
def encGeom (e : Enc) : Word := 0#8 ++ e.cols ++ e.rows

/-- ENC_LAYOUT: LAYOUT [5:0]. -/
def encLayout (e : Enc) : Word := 0#26 ++ e.layout

/-- ENC_CURSOR: WORD [23:8], ROW [7:0]. -/
def encCursor (e : Enc) : Word := 0#8 ++ e.curWord ++ e.curRow

/-- ERRSTAT: VALID [16], OPCODE [15:8], CODE [7:0]. -/
def errWord (r : ErrStat) : Word := 0#15 ++ bit r.valid ++ r.opcode ++ r.code

/-- PARAMS0: NUM_BUTTONS [23:16], NUM_PINS [15:8], FIFO_DEPTH [7:0]. -/
def params0 (p : Config.Params) : Word :=
  0#8 ++ BitVec.ofNat 8 p.numButtons ++ BitVec.ofNat 8 p.numPins ++ BitVec.ofNat 8 p.fifoDepth

/-- PARAMS1: MAX_COLS [15:0]. -/
def params1 (p : Config.Params) : Word := 0#16 ++ BitVec.ofNat 16 p.maxCols

/-- DEB_STATUS(i): LEVEL [2], HAS_FIRED [1], EN [0]. -/
def debStatus (d : Deb) : Word := 0#29 ++ bit d.lvl ++ bit d.hasFired ++ bit d.en

/-- Register k mod 4 of a debouncer instance: DEB_INTERVAL, DEB_STATUS, DEB_LAST, DEB_COUNT. -/
def debReg (d : Deb) (k : Nat) : Word :=
  if k = 0 then d.interval else if k = 1 then debStatus d else if k = 2 then d.last else d.count

/-- The value of register n, or none when R58 does not map n. Whether n is mapped depends on n and NUM_BUTTONS alone
(44_status.md R311). -/
def register (s : State) (n : Nat) : Option Word :=
  if n = 0x00 then some (serStatus s.ser)
  else if n = 0x01 then some (serPins s.ser)
  else if n = 0x02 then some s.ser.freq
  else if n = 0x03 then some s.ser.chain
  else if n = 0x04 then some s.ser.bitCount
  else if n = 0x05 then some s.ser.osr
  else if n = 0x06 then some s.ser.latchCount
  else if n = 0x10 then some (encStatus s.enc)
  else if n = 0x11 then some (encGeom s.enc)
  else if n = 0x12 then some (encLayout s.enc)
  else if n = 0x13 then some s.enc.rowBytes
  else if n = 0x14 then some s.enc.colBytes
  else if n = 0x15 then some s.enc.paddedSize
  else if n = 0x16 then some (encCursor s.enc)
  else if n = 0x30 then some (errWord s.errstat)
  else if n = 0x31 then some (params0 s.params)
  else if n = 0x32 then some (params1 s.params)
  else if 0x40 ≤ n ∧ n < 0x40 + 4 * s.params.numButtons then some (debReg (debAt s ((n - 0x40) / 4)) ((n - 0x40) % 4))
  else none

end Sys2Proof.Machine
end

