-- ==== Sys2Proof/Machine/Debounce.lean ====
section
/-! DEFINITION. The debounced edge detector: DCFG, the line change and the edge rule (43_debounce.md). -/

namespace Sys2Proof.Machine

/-- A fresh instance with the given enable and interval, and the line view it had (R283). -/
def freshDeb (d : Deb) (en : Bool) (interval : Word) : Deb :=
  { d with interval := interval, en := en, hasFired := false, last := 0, count := 0 }

/-- DCFG (R283). -/
def execDcfg (idx : Nat) (en : Bool) (interval : Word) (s : State) : Host.Outcome State Fault Refusal :=
  if idx ≥ s.params.numButtons then .next (raise .badIndex Op.dcfg.code s)
  else
    .next (respondOk { s with deb := s.deb.set idx (freshDeb (debAt s idx) en interval) })

/-- Whether the edge at `now` fires: the instance has never fired, or the interval has passed, modulo 2^32 (R285). -/
def accepts (d : Deb) (now : Word) : Bool := !d.hasFired || decide (d.interval ≤ now - d.last)

/-- The instance after an accepted trigger at `now` (R285). -/
def triggered (d : Deb) (now : Word) : Deb := { d with hasFired := true, last := now, count := d.count + 1 }

/-- `LineChange(i, v)` with the debouncer's response, one atomic step (R284, R285, R290). A line i ≥ NUM_BUTTONS does
not exist (R56): the model stops (log 8). The rule's text is followed whatever BTN[i] was before (log 7). -/
def lineChange (i : Nat) (v : Bool) (s : State) : Host.Outcome State Fault Refusal :=
  if i < s.params.numButtons then
    let rising := !(debAt s i).lvl && v
    let d := { debAt s i with lvl := v }
    if rising && d.en && accepts d s.msNow then
      .next { s with btn := s.btn.set i v, deb := s.deb.set i (triggered d s.msNow),
                     events := s.events ++ [.fire i s.msNow] }
    else .next { s with btn := s.btn.set i v, deb := s.deb.set i d }
  else .fault (.noSuchLine i)

end Sys2Proof.Machine
end

