-- ==== Sys2Proof/Machine/Serializer.lean ====
section
/-! DEFINITION. The serializer: SCFG, SSTART, SSTOP, SENQ and the tick (40_serializer.md). -/

namespace Sys2Proof.Machine

/-- The checks of SCFG, in the order of R152 and R332: the first that fails, or none. -/
def scfgError (s : State) (dpin spin lpin freq chain : Nat) : Option Err :=
  if s.ser.enabled then some .busy
  else if dpin ≥ s.params.numPins ∨ spin ≥ s.params.numPins ∨ lpin ≥ s.params.numPins then some .cfgPinRange
  else if lpin ≠ spin + 1 then some .cfgPinAdj
  else if dpin = spin ∨ dpin = lpin then some .cfgPinConflict
  else if chain = 0 ∨ chain % 8 ≠ 0 then some .cfgChain
  else if freq = 0 then some .cfgFreq
  else none

/-- The configuration that SCFG and ECFG write, with SerReset (R152, R153). -/
def serConfigure (x : Ser) (dpin spin lpin freq chain : Nat) : Ser :=
  { serReset x with
    dataPin := BitVec.ofNat 8 dpin, shiftPin := BitVec.ofNat 8 spin, latchPin := BitVec.ofNat 8 lpin,
    freq := BitVec.ofNat 32 freq, chain := BitVec.ofNat 32 chain, configured := true }

/-- SCFG (R152). -/
def execScfg (dpin spin lpin freq chain : Nat) (s : State) : Host.Outcome State Fault Refusal :=
  match scfgError s dpin spin lpin freq chain with
  | some e => .next (raise e Op.scfg.code s)
  | none => .next (respondOk { s with ser := serConfigure s.ser dpin spin lpin freq chain })

/-- SSTART (R155). -/
def execSstart (s : State) : Host.Outcome State Fault Refusal :=
  if s.ser.configured then .next (respondOk { s with ser := { s.ser with enabled := true } })
  else .next (raise .notConfigured Op.sstart.code s)

/-- SSTOP (R156). It never fails. -/
def execSstop (s : State) : Host.Outcome State Fault Refusal :=
  .next (respondOk { s with ser := { s.ser with enabled := false } })

/-- SENQ (R157). On a full queue it holds: "it changes no state" (R11), and the command stays on the port. -/
def execSenq (w : Word) (s : State) : Host.Outcome State Fault Refusal :=
  if s.ser.configured then
    if fifoFull s then .next s else .next (respondOk { s with ser := fifoPush w s.ser })
  else .next (raise .notConfigured Op.senq.code s)

/-! ### The tick (R160) -/

/-- SHIFT_LOW with a bit to send: DATA takes the most significant bit and SHIFT goes low. -/
def shiftOut (x : Ser) : Ser :=
  { x with data := x.osr.getLsbD 31, shift := false, osr := x.osr <<< 1, osrCount := x.osrCount - 1,
           phase := .shiftHigh }

/-- SHIFT_LOW: at a word boundary the next word is popped first. With an empty queue the tick holds (R161). -/
def tickShiftLow (x : Ser) : Option Ser :=
  if x.osrCount = 0 then
    match x.fifo with
    | [] => none
    | w :: rest => some (shiftOut { x with fifo := rest, osr := w, osrCount := 32 })
  else some (shiftOut x)

/-- SHIFT_HIGH: the rising edge that the chain takes DATA on, and the count of the frame's bits. -/
def tickShiftHigh (x : Ser) : Ser :=
  { x with shift := true, bitCount := x.bitCount + 1,
           phase := if x.bitCount + 1 = x.chain then .latchHigh else .shiftLow }

/-- LATCH_HIGH: the rising edge that updates the chain's outputs. -/
def tickLatchHigh (x : Ser) : Ser :=
  { x with shift := false, latch := true, bitCount := 0, latchCount := x.latchCount + 1, phase := .latchLow }

/-- LATCH_LOW. -/
def tickLatchLow (x : Ser) : Ser := { x with latch := false, phase := .shiftLow }

/-- The tick (R160), or none when the serializer has no step: it is not configured, not enabled, or stalled. -/
def tick (x : Ser) : Option Ser :=
  if x.configured && x.enabled then
    match x.phase with
    | .shiftLow => tickShiftLow x
    | .shiftHigh => some (tickShiftHigh x)
    | .latchHigh => some (tickLatchHigh x)
    | .latchLow => some (tickLatchLow x)
  else none

/-- The serializer's turn: a tick, or nothing when it holds (R11, R161). No tick raises an error (R167, R333). -/
def serializerStep (s : State) : State :=
  match tick s.ser with
  | some x => { s with ser := x }
  | none => s

end Sys2Proof.Machine
end

