-- ==== Sys2Proof/Machine/Encoder.lean ====
section
/-! DEFINITION. The display frame encoder: ECFG, EDRAW, the encoding functions and the draw engine (41_encoder.md). -/

namespace Sys2Proof.Machine

/-- The checks of ECFG, in the order of R201 and R332: the first that fails, or none. -/
def ecfgError (s : State) (rows cols dpin spin : Nat) (layout : BitVec 6) : Option Err :=
  if s.ser.enabled then some .busy
  else if rows = 0 ∨ cols = 0 then some .cfgGeomZero
  else if rows > Config.maxRows then some .cfgRows
  else if cols > s.params.maxCols then some .cfgColsMax
  else if layoutValid layout = false then some .cfgLayout
  else if dpin ≥ s.params.numPins ∨ spin + 1 ≥ s.params.numPins then some .cfgPinRange
  else if dpin = spin ∨ dpin = spin + 1 then some .cfgPinConflict
  else none

/-- The encoder half of ECFG: geometry, layout, advisory, and a framebuffer whose bytes are all 0 (R201, R202). -/
def encConfigure (e : Enc) (rows cols : Nat) (layout : BitVec 6) : Enc :=
  { e with
    rows := BitVec.ofNat 8 rows, cols := BitVec.ofNat 16 cols, layout := layout,
    rowBytes := BitVec.ofNat 32 (bytesFor rows), colBytes := BitVec.ofNat 32 (bytesFor cols),
    paddedSize := BitVec.ofNat 32 (paddedFor (bytesFor rows) (bytesFor cols)),
    warnRows := warnFor rows, fb := [], configured := true }

/-- The serializer half of ECFG: latch pin = shift pin + 1, 30000 Hz, chain = 8·paddedSize, and started (R203). -/
def ecfgSer (x : Ser) (rows cols dpin spin : Nat) : Ser :=
  { serConfigure x dpin spin (spin + 1) Config.encClockHz.toNat (8 * paddedFor (bytesFor rows) (bytesFor cols)) with
    enabled := true }

/-- ECFG (R201). -/
def execEcfg (rows cols dpin spin : Nat) (layout : BitVec 6) (s : State) : Host.Outcome State Fault Refusal :=
  match ecfgError s rows cols dpin spin layout with
  | some e => .next (raise e Op.ecfg.code s)
  | none =>
    .next (respondOk { s with enc := encConfigure s.enc rows cols layout, ser := ecfgSer s.ser rows cols dpin spin })

/-- EDRAW (R219): the draw starts, and the host is held until it completes (R221). The command stays on the port. -/
def execEdraw (s : State) : Host.Outcome State Fault Refusal :=
  if s.enc.configured then
    .next { s with enc := { s.enc with busy := true, curRow := 0, curWord := 0 }, wait := .draw }
  else .next (raise .notConfigured Op.edraw.code s)

/-! ### Encoding functions (R210–R216) -/

/-- `rowField(i)`: rowBytes bytes (R210). -/
def rowField (e : Enc) (i : Nat) : List Byte :=
  let pos := if rowH2A e.layout then e.rows.toNat - 1 - i else i
  polarity (rowLow e.layout) (beBytes e.rowBytes.toNat (2 ^ pos))

/-- The colBytes bytes of row i (R81). -/
def rowBytesOf (e : Enc) (i : Nat) : List Byte := (List.range e.colBytes.toNat).map (fun k => fbRead e i k)

/-- `colField(i)`: under H2A the bytes are reversed and each byte's bits are (R212). -/
def colField (e : Enc) (i : Nat) : List Byte :=
  let b := rowBytesOf e i
  polarity (colLow e.layout) (if colH2A e.layout then b.reverse.map rev8 else b)

/-- `body(i)`: descriptor 0's field first (R214). -/
def body (e : Enc) (i : Nat) : List Byte :=
  if rowFirst e.layout then rowField e i ++ colField e i else colField e i ++ rowField e i

/-- `padLen = paddedSize - dataSize` (R9). -/
def padLen (e : Enc) : Nat := e.paddedSize.toNat - (e.rowBytes.toNat + e.colBytes.toNat)

/-- `slice(i)`: padLen zero bytes, never complemented, and then the body (R215). -/
def slice (e : Enc) (i : Nat) : List Byte := List.replicate (padLen e) 0 ++ body e i

/-- `words(i)[k]`: the big-endian word of bytes 4k .. 4k+3 of the slice (R216). -/
def sliceWord (e : Enc) (i k : Nat) : Word := BitVec.ofNat 32 (beValue (((slice e i).drop (4 * k)).take 4))

/-- How many words a row gives: `paddedSize/4` (R217). -/
def wordsPerRow (e : Enc) : Nat := e.paddedSize.toNat / 4

/-! ### The draw engine (R220) -/

/-- The cursor after a push: the next word, the next row, or the end of the draw (R220). Log 17. -/
def advanceCursor (e : Enc) : Enc :=
  if (e.curWord + 1).toNat = wordsPerRow e then
    if e.curRow + 1 = e.rows then { e with curWord := 0, curRow := 0, busy := false }
    else { e with curWord := 0, curRow := e.curRow + 1 }
  else { e with curWord := e.curWord + 1 }

/-- The draw engine's turn (R220): it has a step while a draw is in progress, and holds on a full queue. -/
def drawStep (s : State) : State :=
  if s.enc.busy then
    if fifoFull s then s
    else
      { s with ser := fifoPush (sliceWord s.enc s.enc.curRow.toNat s.enc.curWord.toNat) s.ser,
               enc := advanceCursor s.enc }
  else s

end Sys2Proof.Machine
end

