-- ==== Sys2Proof/Machine/Framebuffer.lean ====
section
/-! DEFINITION. The framebuffer commands: FPIX, FPGET, FFILL and FRECT (42_framebuffer.md). Each needs a configured
encoder (R251), clips to the geometry, and writes no pad bit (R250). -/

namespace Sys2Proof.Machine

/-- FPIX (R252). -/
def execFpix (x y : Nat) (c : Bool) (s : State) : Host.Outcome State Fault Refusal :=
  if s.enc.configured then
    if inBounds s.enc x y then .next (respondOk { s with enc := setpix s.enc x y c }) else .next (respondOk s)
  else .next (raise .notConfigured Op.fpix.code s)

/-- FPGET (R253): a pixel outside the geometry reads 0. -/
def execFpget (x y : Nat) (s : State) : Host.Outcome State Fault Refusal :=
  if s.enc.configured then
    if inBounds s.enc x y then .next (respond okCode (BitVec.ofNat 32 (pix s.enc x y).toNat) s)
    else .next (respond okCode 0 s)
  else .next (raise .notConfigured Op.fpget.code s)

/-- FFILL (R254). -/
def execFfill (c : Bool) (s : State) : Host.Outcome State Fault Refusal :=
  if s.enc.configured then
    .next (respondOk { s with enc := setArea s.enc (List.range s.enc.cols.toNat) (List.range s.enc.rows.toNat) c })
  else .next (raise .notConfigured Op.ffill.code s)

/-- FRECT (R255). -/
def execFrect (x y w h : Nat) (c : Bool) (s : State) : Host.Outcome State Fault Refusal :=
  if s.enc.configured then
    .next (respondOk { s with enc := setArea s.enc (span x w s.enc.cols.toNat) (span y h s.enc.rows.toNat) c })
  else .next (raise .notConfigured Op.frect.code s)

end Sys2Proof.Machine
end

