-- ==== Sys2Proof/Machine/Status.lean ====
section
/-! DEFINITION. The status commands: RDREG and CLRERR (44_status.md). -/

namespace Sys2Proof.Machine

/-- RDREG (R310). It has no side effect. -/
def execRdreg (reg : Nat) (s : State) : Host.Outcome State Fault Refusal :=
  match register s reg with
  | some v => .next (respond okCode v s)
  | none => .next (raise .badIndex Op.rdreg.code s)

/-- CLRERR (R312). -/
def execClrerr (s : State) : Host.Outcome State Fault Refusal := .next (respondOk (clearErr s))

end Sys2Proof.Machine
end

