-- ==== Sys2Proof/Machine/Dispatch.lean ====
section
/-! DEFINITION. One arm for each command. -/

namespace Sys2Proof.Machine

def exec (i : Instr) (s : State) : Host.Outcome State Fault Refusal :=
  match i with
  | .scfg dpin spin lpin freq chain => Sys2Proof.Machine.execScfg dpin spin lpin freq chain s
  | .sstart => Sys2Proof.Machine.execSstart s
  | .sstop => Sys2Proof.Machine.execSstop s
  | .senq word => Sys2Proof.Machine.execSenq word s
  | .ecfg rows cols dpin spin layout => Sys2Proof.Machine.execEcfg rows cols dpin spin layout s
  | .edraw => Sys2Proof.Machine.execEdraw s
  | .fpix x y c => Sys2Proof.Machine.execFpix x y c s
  | .fpget x y => Sys2Proof.Machine.execFpget x y s
  | .ffill c => Sys2Proof.Machine.execFfill c s
  | .frect x y w h c => Sys2Proof.Machine.execFrect x y w h c s
  | .dcfg idx en interval => Sys2Proof.Machine.execDcfg idx en interval s
  | .rdreg reg => Sys2Proof.Machine.execRdreg reg s
  | .clrerr => Sys2Proof.Machine.execClrerr s

end Sys2Proof.Machine
end

