-- ==== Sys2Proof/Machine/Turns.lean ====
section
/-! DEFINITION. What each turn does (10_state.md R32, 20_memory.md R90): the host's step, the environment's inputs and
RESET (70_reset_and_hazards.md R370). The serializer's and the draw engine's steps stand in their own files. -/

namespace Sys2Proof.Machine

/-- The command word w, on the port, takes its step: the opcode is looked up, then the reserved bits are checked, then
the command's own rule runs (30_encoding.md R117, R113, R118). -/
def runCommand (w : Command) (s : State) : Host.Outcome State Fault Refusal :=
  match decode w with
  | .ok i => exec i s
  | .illegalOpcode => .next (raise .illegalOpcode (opcodeOf w) s)
  | .reservedBits => .next (raise .reservedBits (opcodeOf w) s)

/-- The completion step of EDRAW (41_encoder.md R221). -/
def completeDraw (s : State) : State := respondOk { s with wait := .none }

/-- The host's turn. While an EDRAW is in progress it completes it once the draw engine is done, and holds before that
(R219, R221). Otherwise it retries the command in progress, or issues the next one (R114). With nothing to issue it has
no step. Log 6. -/
def hostStep (s : State) : Host.Outcome State Fault Refusal :=
  match s.wait with
  | .draw => if s.enc.busy then .next s else .next (completeDraw s)
  | .none =>
    match s.port with
    | some w => runCommand w s
    | none =>
      match s.pending with
      | [] => .next s
      | w :: rest => runCommand w { s with port := some w, pending := rest }

/-- RESET (R370): every state element takes its reset value, and the command in progress is abandoned without a
response. The parameters, the inputs MS_NOW and BTN[i], and the model's own record and inputs stay. Logs 4
and 10. -/
def applyReset (s : State) : State :=
  { State.resetWith s.params with
    msNow := s.msNow, btn := s.btn, pending := s.pending, responses := s.responses, schedule := s.schedule,
    choices := s.choices }

/-- MS_NOW advances by ms milliseconds, modulo 2^32 (43_debounce.md R281). Log 16. -/
def advanceTime (ms : Nat) (s : State) : State := { s with msNow := s.msNow + BitVec.ofNat 32 ms }

/-- What a turn does. -/
def runTurn (t : Turn) (s : State) : Host.Outcome State Fault Refusal :=
  match t with
  | .agent .host => hostStep s
  | .agent .drawEngine => .next (drawStep s)
  | .agent .serializer => .next (serializerStep s)
  | .advanceTime ms => .next (advanceTime ms s)
  | .lineChange i v => lineChange i v s
  | .reset => .next (applyReset s)
  | .foreignWrite _ _ _ => .refused .secondFramebufferWriter
  | .primitive p => .refused (.primitiveNotImplemented p)

/-- The state in which word w is the command in progress and the host has the next turn. -/
def presentCommand (w : Command) (s : State) : State :=
  { s with port := some w, wait := .none, schedule := .agent .host :: s.schedule }

end Sys2Proof.Machine
end

