-- ==== Sys2Proof/Machine/Step.lean ====
section
/-! DEFINITION. The step: the next turn is taken. Which turn comes next is the schedule's to say, and past its end the
free value's (log 1). -/

namespace Sys2Proof.Machine

/-- One step of the block with its host and environment (20_memory.md R90). -/
def step (s : State) : Host.Outcome State Fault Refusal :=
  match s.schedule with
  | t :: rest => runTurn t { s with schedule := rest }
  | [] => runTurn (.agent (Config.freeAgent s.choices)) { s with choices := s.choices + 1 }

/-- The command w, in the opcode table's numbering, is the command in progress on the port and the host has the next
turn, so that the very next step runs it. Nothing else changes but a pending EDRAW, whose hold would keep the host from
running it. Log 5. -/
def State.withFetchWord (s : State) (nbits w : Nat) : State := presentCommand (BitVec.ofNat 64 (w % 2 ^ nbits)) s

end Sys2Proof.Machine
end

