-- ==== Sys2Proof/Machine/Assembler.lean ====
section
/-! DEFINITION. The command syntax (30_encoding.md R125), the layout operand (R126), the default operands (R127) and the
pseudo-commands (R128). Assembling answers the command words of a line, or none for an assembly error. What the spec
leaves open of the text (blanks, letter case of digits, empty lines) is in log 12. -/

namespace Sys2Proof.Machine

/-! ### From a parsed line to command words -/

/-- The 3-bit code of a symbolic descriptor (R120, R126). -/
def descriptorCode (d : Descriptor) : Nat := 4 * d.col.toNat + 2 * d.low.toNat + d.h2a.toNat

/-- The layout operand: a number that fits 6 bits, or a pair that names one row and one column (R126). -/
def layoutOperand : LayoutArg → Option (BitVec 6)
  | .number n => if n < 64 then some (BitVec.ofNat 6 n) else none
  | .pair d0 d1 =>
    if d0.col = d1.col then none else some (BitVec.ofNat 6 (8 * descriptorCode d0 + descriptorCode d1))

/-- An operand of 1 bit. -/
def bitOperand (n : Nat) : Option Bool := if n = 0 then some false else if n = 1 then some true else none

/-- An operand of 32 bits. -/
def wordOperand (n : Nat) : Option Word := if n < 2 ^ 32 then some (BitVec.ofNat 32 n) else none

/-- "An operand that does not fit its field is an assembly error, and no command word is produced" (R125). -/
def fits (i : Instr) : Option (List Instr) := if i.wf then some [i] else none

/-- FRECT with a colour operand. -/
def frectLine (x y w h c : Nat) : Option (List Instr) := (bitOperand c).bind (fun b => fits (.frect x y w h b))

/-- FRECTO: the top row, the bottom row, the left column, the right column (R128). -/
def outline (x y w h c : Nat) : Option (List Instr) :=
  if w = 0 ∨ h = 0 then some []
  else
    (frectLine x y w 1 c).bind fun top =>
    (frectLine x (y + h - 1) w 1 c).bind fun bottom =>
    (frectLine x y 1 h c).bind fun left =>
    (frectLine (x + w - 1) y 1 h c).bind fun right => some (top ++ bottom ++ left ++ right)

/-- The commands of a line: defaults filled in (R127), pseudo-commands expanded (R128). -/
def commandsOf : AsmLine → Option (List Instr)
  | .scfg d s l f c => fits (.scfg d s l f c)
  | .sstart => some [.sstart]
  | .sstop => some [.sstop]
  | .senq n => (wordOperand n).bind (fun w => fits (.senq w))
  | .ecfg r c d s lay => (layoutOperand (lay.getD (.number 0x15))).bind (fun l => fits (.ecfg r c d s l))
  | .edraw => some [.edraw]
  | .fpix x y c => (bitOperand c).bind (fun b => fits (.fpix x y b))
  | .fpget x y => fits (.fpget x y)
  | .ffill c => (bitOperand c).bind (fun b => fits (.ffill b))
  | .frect x y w h c => frectLine x y w h c
  | .dcfg i iv en =>
    (wordOperand (iv.getD 300)).bind fun v => (bitOperand (en.getD 1)).bind fun b => fits (.dcfg i b v)
  | .rdreg r => fits (.rdreg r)
  | .clrerr => some [.clrerr]
  | .fclr => some [.ffill false]
  | .fhline x y w c => frectLine x y w 1 c
  | .fvline x y h c => frectLine x y 1 h c
  | .frecto x y w h c => outline x y w h c

/-- The command words of a line. -/
def wordsOf (l : AsmLine) : Option (List Command) := (commandsOf l).map (fun is => is.map encode)

/-! ### From text to a parsed line -/

def isBlank (c : Char) : Bool := c = ' ' || c = '\t'

/-- Text without leading and trailing blanks. -/
def trim (cs : List Char) : List Char := ((cs.dropWhile isBlank).reverse.dropWhile isBlank).reverse

/-- The value of a digit in base 10 or 16. -/
def digitValue (base : Nat) (c : Char) : Option Nat :=
  let n := c.toNat
  if 48 ≤ n ∧ n ≤ 57 then some (n - 48)
  else if base = 16 ∧ 65 ≤ n ∧ n ≤ 70 then some (n - 55)
  else if base = 16 ∧ 97 ≤ n ∧ n ≤ 102 then some (n - 87)
  else none

/-- Digits read after the value `acc`. -/
def digits (base : Nat) : Nat → List Char → Option Nat
  | acc, [] => some acc
  | acc, c :: cs => (digitValue base c).bind (fun d => digits base (acc * base + d) cs)

/-- "Numbers are decimal or `0x` hexadecimal" (R125). -/
def number : List Char → Option Nat
  | [] => none
  | '0' :: 'x' :: c :: cs => digits 16 0 (c :: cs)
  | cs => digits 10 0 cs

/-- The pieces of a text between the separators. -/
def pieces (sep : Char) : List Char → List (List Char)
  | [] => [[]]
  | c :: cs =>
    if c = sep then [] :: pieces sep cs
    else
      match pieces sep cs with
      | p :: ps => (c :: p) :: ps
      | [] => [[c]]

/-- One symbolic descriptor (R126). -/
def descriptor (cs : List Char) : Option Descriptor :=
  match pieces '.' cs with
  | [half, pol, ord] =>
    (if half = ['R', 'O', 'W'] then some false else if half = ['C', 'O', 'L'] then some true else none).bind fun col =>
    (if pol = ['H', 'I', 'G', 'H'] then some false else if pol = ['L', 'O', 'W'] then some true else none).bind fun low =>
    (if ord = ['A', '2', 'H'] then some false else if ord = ['H', '2', 'A'] then some true else none).bind fun h2a =>
      some ⟨col, low, h2a⟩
  | _ => none

/-- The layout operand's text (R126). -/
def layoutText (cs : List Char) : Option LayoutArg :=
  match pieces ':' cs with
  | [a, b] => (descriptor a).bind fun d0 => (descriptor b).bind fun d1 => some (.pair d0 d1)
  | _ => (number cs).map .number

/-- All of the texts as numbers. -/
def numbers : List (List Char) → Option (List Nat)
  | [] => some []
  | t :: ts => (number t).bind fun n => (numbers ts).bind fun ns => some (n :: ns)

/-- A mnemonic with its operand texts, in the operand order of R125. -/
def lineOf (mnemonic : List Char) (ops : List (List Char)) : Option AsmLine :=
  match mnemonic, ops with
  | ['E', 'C', 'F', 'G'], [r, c, d, s, l] =>
    (numbers [r, c, d, s]).bind fun ns =>
      match ns with
      | [r, c, d, s] => (layoutText l).map (fun l => .ecfg r c d s (some l))
      | _ => none
  | _, _ =>
    (numbers ops).bind fun ns =>
      match mnemonic, ns with
      | ['S', 'C', 'F', 'G'], [d, s, l, f, c] => some (.scfg d s l f c)
      | ['S', 'S', 'T', 'A', 'R', 'T'], [] => some .sstart
      | ['S', 'S', 'T', 'O', 'P'], [] => some .sstop
      | ['S', 'E', 'N', 'Q'], [w] => some (.senq w)
      | ['E', 'C', 'F', 'G'], [r, c, d, s] => some (.ecfg r c d s none)
      | ['E', 'D', 'R', 'A', 'W'], [] => some .edraw
      | ['F', 'P', 'I', 'X'], [x, y, c] => some (.fpix x y c)
      | ['F', 'P', 'G', 'E', 'T'], [x, y] => some (.fpget x y)
      | ['F', 'F', 'I', 'L', 'L'], [c] => some (.ffill c)
      | ['F', 'R', 'E', 'C', 'T'], [x, y, w, h, c] => some (.frect x y w h c)
      | ['D', 'C', 'F', 'G'], [i] => some (.dcfg i none none)
      | ['D', 'C', 'F', 'G'], [i, iv] => some (.dcfg i (some iv) none)
      | ['D', 'C', 'F', 'G'], [i, iv, en] => some (.dcfg i (some iv) (some en))
      | ['R', 'D', 'R', 'E', 'G'], [r] => some (.rdreg r)
      | ['C', 'L', 'R', 'E', 'R', 'R'], [] => some .clrerr
      | ['F', 'C', 'L', 'R'], [] => some .fclr
      | ['F', 'H', 'L', 'I', 'N', 'E'], [x, y, w, c] => some (.fhline x y w c)
      | ['F', 'V', 'L', 'I', 'N', 'E'], [x, y, h, c] => some (.fvline x y h c)
      | ['F', 'R', 'E', 'C', 'T', 'O'], [x, y, w, h, c] => some (.frecto x y w h c)
      | _, _ => none

/-- One line of text: the mnemonic, then its operands separated by commas; `;` starts a comment (R125). A line with
nothing on it gives no command. -/
def assemble (text : List Char) : Option (List Command) :=
  let code := trim (text.takeWhile (fun c => c != ';'))
  if code = [] then some []
  else
    let mnemonic := code.takeWhile (fun c => !isBlank c)
    let rest := trim (code.dropWhile (fun c => !isBlank c))
    let ops := if rest = [] then [] else (pieces ',' rest).map trim
    (lineOf mnemonic ops).bind wordsOf

end Sys2Proof.Machine
end

