-- ==== Sys2Proof/Machine/Observer.lean ====
section
/-! DEFINITION. The reference observer of the downstream chain (40_serializer.md R170). The chips are outside the block,
so this is no part of `State`: it watches the three lines. Its length, and what CH and OUT hold at power-up, are
arguments (R170: "unspecified at power-up"; log 14). -/

namespace Sys2Proof.Machine

/-- The daisy chain of `physBits` shift-register bits CH with an output latch OUT (R170). -/
structure Observer where
  physBits : Nat
  ch       : Nat
  out      : Nat
  deriving DecidableEq, Repr

/-- On SHIFT 0 → 1 the chain takes DATA: `CH <- ((CH << 1) | DATA) mod 2^L` (R170). -/
def Observer.onShift (o : Observer) (before after : Ser) : Observer :=
  if !before.shift && after.shift then { o with ch := (2 * o.ch + after.data.toNat) % 2 ^ o.physBits } else o

/-- On LATCH 0 → 1 the outputs update: `OUT <- CH` (R170). -/
def Observer.onLatch (o : Observer) (before after : Ser) : Observer :=
  if !before.latch && after.latch then { o with out := o.ch } else o

/-- What the observer sees of one step of the block. -/
def Observer.watch (o : Observer) (before after : Ser) : Observer := (o.onShift before after).onLatch before after

/-- The observer after n steps of the machine, which must all answer a next state to be seen. -/
def Observer.watchRun (o : Observer) : Nat → State → Observer
  | 0, _ => o
  | n + 1, s =>
    match step s with
    | .next t => (o.watch s.ser t.ser).watchRun n t
    | .fault _ => o
    | .refused _ => o

end Sys2Proof.Machine
end

