-- ==== Sys2Proof/Safety.lean ====
section
/-! DEFINITION. The terms that claims use: the invariant of the block (10_state.md R33–R55, 20_memory.md R83), when an
agent has a step and when the host is held (R11, R381), weak fairness (R395), and what the lines carry (R164). -/

namespace Sys2Proof.Machine

open Sys2Proof.Config (Params Agent)

/-! ### The invariant -/

/-- The serializer's part (R33–R42). -/
structure SerInv (p : Params) (x : Ser) : Prop where
  /-- The queue's length lies in 0..FIFO_DEPTH (R40). -/
  fifo_le : x.fifo.length ≤ p.fifoDepth
  /-- `SER.osrCount` in 0..32 (R41). -/
  osrCount_le : x.osrCount ≤ 32
  /-- A serializer is enabled only once configured (R155, R201). -/
  enabled_configured : x.enabled = true → x.configured = true
  /-- The pins lie in 0..NUM_PINS−1, and the latch pin is the shift pin plus one (R35). -/
  pins : x.configured = true →
    x.dataPin.toNat < p.numPins ∧ x.latchPin.toNat < p.numPins ∧ x.latchPin.toNat = x.shiftPin.toNat + 1
  /-- The data pin is neither the shift pin nor the latch pin (R152, R201). -/
  data_pin : x.configured = true → x.dataPin ≠ x.shiftPin ∧ x.dataPin ≠ x.latchPin
  /-- `SER.freq` is nonzero once configured (R36). -/
  freq_pos : x.configured = true → x.freq ≠ 0
  /-- `SER.chain` is a positive multiple of 8 once configured (R37). -/
  chain_pos : x.configured = true → 0 < x.chain.toNat ∧ x.chain.toNat % 8 = 0
  /-- `SER.bitCount` lies in 0..SER.chain (R42). -/
  bitCount_le : x.bitCount.toNat ≤ x.chain.toNat
  /-- It equals SER.chain only in phase LATCH_HIGH (R42). -/
  bitCount_eq : x.configured = true → (x.bitCount = x.chain ↔ x.phase = .latchHigh)
  /-- LATCH is 1 exactly between its two ticks (R160). -/
  latch_iff : x.latch = true ↔ x.phase = .latchLow
  /-- SHIFT is low when the rising edge comes, and in the latch (R160). -/
  shift_low : x.phase = .shiftHigh ∨ x.phase = .latchLow → x.shift = false
  /-- SHIFT is high after a frame's last bit (R160). -/
  shift_high : x.phase = .latchHigh → x.shift = true
  /-- A serializer that was never configured holds nothing (R371). -/
  unconfigured : x.configured = false → x.fifo = [] ∧ x.osrCount = 0 ∧ x.phase = .shiftLow

/-- Pad bits read 0 (20_memory.md R83). -/
def PadClear (e : Enc) : Prop :=
  ∀ x y, e.cols.toNat ≤ x → x < 8 * e.colBytes.toNat → y < e.rows.toNat → pix e x y = false

/-- The geometry registers agree with one another and with the accepted ranges (R46–R49). -/
structure GeomInv (p : Params) (e : Enc) : Prop where
  rows_range : 1 ≤ e.rows.toNat ∧ e.rows.toNat ≤ 32
  cols_range : 1 ≤ e.cols.toNat ∧ e.cols.toNat ≤ p.maxCols
  layout_valid : layoutValid e.layout = true
  rowBytes_eq : e.rowBytes.toNat = (e.rows.toNat + 7) / 8
  colBytes_eq : e.colBytes.toNat = (e.cols.toNat + 7) / 8
  paddedSize_eq : e.paddedSize.toNat = 4 * ((e.rowBytes.toNat + e.colBytes.toNat + 3) / 4)
  warnRows_eq : e.warnRows = decide (e.rows.toNat % 8 ≠ 0)

/-- The encoder's part (R45–R51). -/
structure EncInv (p : Params) (e : Enc) : Prop where
  geom : e.configured = true → GeomInv p e
  /-- The cursor names a word of the frame while a draw runs, and is 0 otherwise (R50, R220). -/
  cursor_busy : e.busy = true → e.configured = true ∧ e.curRow.toNat < e.rows.toNat ∧ e.curWord.toNat < wordsPerRow e
  cursor_idle : e.busy = false → e.curRow = 0 ∧ e.curWord = 0
  /-- The framebuffer is in its canonical form. -/
  fb_wf : Memory.wf e.fb
  /-- Only bytes of rows 0..rows−1 and bytes 0..colBytes−1 of each can differ from 0 (R81, R84). -/
  fb_range : ∀ c ∈ e.fb, c.1 < e.rows.toNat * e.colBytes.toNat
  pad_clear : PadClear e

/-- The debouncers' part (R52): a never-fired instance holds no trigger. -/
def DebInv (d : Deb) : Prop := d.hasFired = false → d.last = 0 ∧ d.count = 0

/-- The invariant of the block. -/
structure Inv (s : State) : Prop where
  params : s.params.wf
  ser : SerInv s.params s.ser
  enc : EncInv s.params s.enc
  /-- ECFG configures both halves (R201). -/
  enc_ser : s.enc.configured = true → s.ser.configured = true
  /-- A draw in progress holds the host, with its EDRAW on the port (R219, R221). -/
  busy_wait : s.enc.busy = true → s.wait = .draw
  wait_port : s.wait = .draw → s.port.isSome = true
  deb_length : s.deb.length = s.params.numButtons
  btn_length : s.btn.length = s.params.numButtons
  deb : ∀ d ∈ s.deb, DebInv d
  /-- Every event names a button that exists (R54). -/
  events : ∀ i t, Event.fire i t ∈ s.events → i < s.params.numButtons

/-! ### Steps, holds and fairness -/

/-- Which turn comes next. -/
def nextTurn (s : State) : Turn :=
  match s.schedule with
  | t :: _ => t
  | [] => .agent (Config.freeAgent s.choices)

/-- The command on the port is a SENQ that finds the queue full (R157). A SENQ that is yet to be issued is not on the port
and does not hold here: its first turn moves it there (log 6). -/
def senqHolds (s : State) : Bool :=
  match s.port with
  | none => false
  | some w =>
    match decode w with
    | .ok (.senq _) => s.ser.configured && fifoFull s
    | _ => false

/-- Whether an agent has a step in this state (R11): the host has a command to run, issue or complete, the draw engine
has room to push, the serializer is not stopped or stalled. To issue a command is a step, also where the command then
holds (log 6). -/
def hasStep (a : Agent) (s : State) : Bool :=
  match a with
  | .host =>
    match s.wait with
    | .draw => !s.enc.busy
    | .none => (s.port.isSome || !s.pending.isEmpty) && !senqHolds s
  | .drawEngine => s.enc.busy && !fifoFull s
  | .serializer => (tick s.ser).isSome

/-- The host is held on a full queue: by a SENQ, or by an EDRAW whose draw engine holds (R334, R381). -/
def hostHeld (s : State) : Bool :=
  fifoFull s && match s.wait with
    | .draw => s.enc.busy
    | .none => senqHolds s

/-- The hang of R381: held on a full queue that a stopped serializer will not drain. -/
def hung (s : State) : Bool := hostHeld s && !s.ser.enabled

/-- An infinite run of the block under an infinite sequence of turns: any interleaving of the agents (R90). -/
def IsRun (turns : Nat → Turn) (r : Nat → State) : Prop := ∀ n, runTurn (turns n) (r n) = .next (r (n + 1))

/-- Whether an agent has a step that fairness binds it to: the serializer not stopped or stalled, the draw engine with
room to push, and the host's completion of an EDRAW. DEDUCED (log 13): R395 and D37 name these three and no other step of
the host, so to issue a command and to retry a held SENQ are not bound. -/
def fairStep (a : Agent) (s : State) : Bool :=
  match a with
  | .host => decide (s.wait = .draw) && !s.enc.busy
  | .drawEngine => hasStep .drawEngine s
  | .serializer => hasStep .serializer s

/-- Weak fairness (R395): an agent whose step stays enabled takes it eventually, for the steps of `fairStep` only (log
13). The environment and the host's command steps are not bound. -/
def WeaklyFair (turns : Nat → Turn) (r : Nat → State) : Prop :=
  ∀ a n, (∀ m, n ≤ m → fairStep a (r m) = true) → ∃ m, n ≤ m ∧ turns m = .agent a

/-- n steps of the machine, stopping at the first fault or refusal. -/
def run : Nat → State → Host.Outcome State Fault Refusal
  | 0, s => .next s
  | n + 1, s =>
    match step s with
    | .next t => run n t
    | .fault f => .fault f
    | .refused r => .refused r

/-! ### What the lines carry -/

/-- The levels of the three lines (R38). -/
structure Lines where
  data  : Bool
  shift : Bool
  latch : Bool
  deriving DecidableEq, Repr

def linesOf (x : Ser) : Lines := ⟨x.data, x.shift, x.latch⟩

/-- The bits of a word in sending order, bit 31 first (R165). -/
def wordBits (w : Word) : List Bool := (List.range 32).map (fun k => w.getLsbD (31 - k))

/-- The bits accepted and not yet sent, in sending order (R91): what is left of the word being shifted out, then the
queued words. -/
def outBits (x : Ser) : List Bool := (wordBits x.osr).take x.osrCount ++ x.fifo.flatMap wordBits

/-- The levels after each of n steps of the machine. -/
def lineTrace : Nat → State → List Lines
  | 0, _ => []
  | n + 1, s =>
    match step s with
    | .next t => linesOf t.ser :: lineTrace n t
    | .fault _ => []
    | .refused _ => []

/-- The line sequence of one frame with bits bs (R164). -/
def frameLines (bs : List Bool) : List Lines :=
  bs.flatMap (fun b => [⟨b, false, false⟩, ⟨b, true, false⟩]) ++
    [⟨bs.getLastD false, false, true⟩, ⟨bs.getLastD false, false, false⟩]

/-- A bit sequence as a number, most recent bit least significant (R171). -/
def bitsValue (bs : List Bool) : Nat := bs.foldl (fun acc b => 2 * acc + b.toNat) 0

/-- The words one draw pushes, in row order and slice order (R92, R217). -/
def drawWords (e : Enc) : List Word :=
  (List.range e.rows.toNat).flatMap (fun i => (List.range (wordsPerRow e)).map (fun k => sliceWord e i k))

/-- The words a draw in progress has yet to push: those from its cursor on (R220). With no draw there are none. -/
def wordsToCome (e : Enc) : List Word :=
  if e.busy then (drawWords e).drop (e.curRow.toNat * wordsPerRow e + e.curWord.toNat) else []

/-- The words that n steps of the machine add at the tail of the queue, in order (R40). -/
def pushedBy : Nat → State → List Word
  | 0, _ => []
  | n + 1, s =>
    match step s with
    | .next t => t.ser.fifo.drop s.ser.fifo.length ++ pushedBy n t
    | .fault _ => []
    | .refused _ => []

end Sys2Proof.Machine
end

