-- ==== Sys2Proof/Certificates/Slice0/Obligations.lean ====
section
/-! DEFINITION. The statements for the provers. Each is written against the rules of spec/ with its own literals, not
with the model's helper functions, except where a helper is what the statement is about. -/

namespace Sys2Proof.Claims

open Sys2Proof.Machine
open Sys2Proof.Config (Params Agent)

/-- s when its command ends with a response and nothing else changes (R111, R114). -/
def done (s : State) (code : BitVec 8) (value : Word) : State :=
  { s with port := none, responses := s.responses ++ [⟨code, value⟩] }

/-- s when its command fails: only ERRSTAT and the response (R331). -/
def failed (s : State) (code opcode : BitVec 8) : State :=
  { s with errstat := ⟨code, opcode, true⟩, port := none, responses := s.responses ++ [⟨code, 0⟩] }

/-- The host has the next turn and runs w in state u: w is on the port, or the port is free and w is the next command the
host issues (R114). -/
def Presents (s : State) (w : Command) (u : State) : Prop :=
  ∃ rest, s.schedule = .agent .host :: rest ∧ s.wait = .none ∧
    ((s.port = some w ∧ u = { s with schedule := rest }) ∨
     (s.port = none ∧ ∃ ws, s.pending = w :: ws ∧ u = { s with schedule := rest, port := some w, pending := ws }))

/-- A draw has just started: no word of it has been pushed (R219). -/
def DrawStarts (s : State) : Prop :=
  s.wait = .draw ∧ s.enc.busy = true ∧ s.enc.curRow = 0 ∧ s.enc.curWord = 0

/-- The host waits for its draw at each of the next n steps, and none of them is a RESET. -/
def DrawLasts (n : Nat) (s : State) : Prop :=
  ∀ k u, k < n → run k s = .next u → u.wait = .draw ∧ nextTurn u ≠ .reset

/-- The position of the row-select bit (R210). -/
def rowPos (e : Enc) (i : Nat) : Nat :=
  if e.layout.getLsbD (if e.layout.getLsbD 5 then 0 else 3) then e.rows.toNat - 1 - i else i

/-- The row half's POL flag (R121). -/
def rowActiveLow (e : Enc) : Bool := e.layout.getLsbD (if e.layout.getLsbD 5 then 1 else 4)

/-- The column half's POL flag (R121). -/
def colActiveLow (e : Enc) : Bool := e.layout.getLsbD (if e.layout.getLsbD 5 then 4 else 1)

/-- The column half's ORD flag (R121). -/
def colDescending (e : Enc) : Bool := e.layout.getLsbD (if e.layout.getLsbD 5 then 3 else 0)

/-- PHASE as SER_STATUS shows it (R39). -/
def phaseNumber : Phase → Nat
  | .shiftLow => 0
  | .shiftHigh => 1
  | .latchHigh => 2
  | .latchLow => 3

/-- The register map of R58 without the debouncers, as (number, value). -/
def registerMap (s : State) : List (Nat × Nat) :=
  [(0x00, s.ser.configured.toNat + 2 * s.ser.enabled.toNat +
      4 * (decide (s.ser.fifo.length = 0 ∧ s.ser.osrCount = 0 ∧ s.ser.phase = .shiftLow)).toNat +
      16 * phaseNumber s.ser.phase + 256 * s.ser.fifo.length + 65536 * s.ser.osrCount),
   (0x01, s.ser.dataPin.toNat + 256 * s.ser.shiftPin.toNat + 65536 * s.ser.latchPin.toNat +
      2 ^ 24 * s.ser.data.toNat + 2 ^ 25 * s.ser.shift.toNat + 2 ^ 26 * s.ser.latch.toNat),
   (0x02, s.ser.freq.toNat), (0x03, s.ser.chain.toNat), (0x04, s.ser.bitCount.toNat), (0x05, s.ser.osr.toNat),
   (0x06, s.ser.latchCount.toNat),
   (0x10, s.enc.configured.toNat + 2 * s.enc.busy.toNat + 4 * s.enc.warnRows.toNat),
   (0x11, s.enc.rows.toNat + 256 * s.enc.cols.toNat), (0x12, s.enc.layout.toNat), (0x13, s.enc.rowBytes.toNat),
   (0x14, s.enc.colBytes.toNat), (0x15, s.enc.paddedSize.toNat),
   (0x16, s.enc.curRow.toNat + 256 * s.enc.curWord.toNat),
   (0x30, s.errstat.code.toNat + 256 * s.errstat.opcode.toNat + 65536 * s.errstat.valid.toNat),
   (0x31, s.params.fifoDepth + 256 * s.params.numPins + 65536 * s.params.numButtons),
   (0x32, s.params.maxCols)]

/-- The registers of instance i of R58, as (number, value). -/
def debRegisterMap (d : Deb) (i : Nat) : List (Nat × Nat) :=
  [(0x40 + 4 * i, d.interval.toNat), (0x41 + 4 * i, d.en.toNat + 2 * d.hasFired.toNat + 4 * d.lvl.toNat),
   (0x42 + 4 * i, d.last.toNat), (0x43 + 4 * i, d.count.toNat)]

/-- Pixel (x', y') lies on the outline of the rectangle: its top or bottom row, its left or right column (R128). -/
abbrev OnOutline (x y w h x' y' : Nat) : Prop :=
  (x ≤ x' ∧ x' < x + w ∧ (y' = y ∨ y' = y + h - 1)) ∨ (y ≤ y' ∧ y' < y + h ∧ (x' = x ∨ x' = x + w - 1))

/-- Edges on line i, each a fall, some milliseconds, and a rise. -/
def edges (i : Nat) (gaps : List Nat) : List Turn :=
  gaps.flatMap (fun d => [.lineChange i false, .advanceTime d, .lineChange i true])

/-- The error codes a command can respond with (R330). -/
def errorCodes : List (BitVec 8) :=
  [0x01, 0x02, 0x10, 0x11, 0x12, 0x13, 0x14, 0x15, 0x16, 0x17, 0x18, 0x20, 0x21, 0x22]

end Sys2Proof.Claims

open Sys2Proof Sys2Proof.Machine Sys2Proof.Claims
open Sys2Proof.Config (Params Agent)

/-! ### Encoding -/

/-- R112, R115: decoding the encoding of a well-formed command gives the command back, so no bit of an encoding is
dropped. -/
def Obligations.DecodeOfEncodeIsTheCommand : Prop :=
  ∀ i : Instr, i.wf = true → decode (encode i) = .ok i

/-- R112, R115: a legal word is the encoding of the command it decodes to, and every operand fits its field. -/
def Obligations.EncodeOfDecodeIsTheWord : Prop :=
  ∀ (w : Command) (i : Instr), decode w = .ok i → i.wf = true ∧ encode i = w

/-- R116: a word is a legal encoding of a row exactly when `(w & mask) = match`. -/
def Obligations.LegalEncodingIsMaskMatch : Prop :=
  ∀ row ∈ ([(.scfg, 0x0100000000000000, 0xFF00000000000000), (.sstart, 0x0200000000000000, 0xFFFFFFFFFFFFFFFF),
      (.sstop, 0x0300000000000000, 0xFFFFFFFFFFFFFFFF), (.senq, 0x0400000000000000, 0xFFFFFFFF00000000),
      (.ecfg, 0x1000000000000000, 0xFF0000000000FFC0), (.edraw, 0x1100000000000000, 0xFFFFFFFFFFFFFFFF),
      (.fpix, 0x2000000000000000, 0xFF000000FFFFFFFE), (.fpget, 0x2100000000000000, 0xFF000000FFFFFFFF),
      (.ffill, 0x2200000000000000, 0xFFFFFFFFFFFFFFFE), (.frect, 0x2300000000000000, 0xFF000000000000FE),
      (.dcfg, 0x3000000000000000, 0xFF007FFF00000000), (.rdreg, 0x4000000000000000, 0xFFFFFFFFFFFFFF00),
      (.clrerr, 0x4100000000000000, 0xFFFFFFFFFFFFFFFF)] : List (Op × Command × Command)),
    ∀ w : Command, w &&& row.2.2 = row.2.1 ↔ ∃ i : Instr, i.op = row.1 ∧ decode w = .ok i

/-- R115, R116 and the encodings of 95_test_vectors.md: words written out from the formats decode to their commands. -/
def Obligations.WrittenOutWordsDecode : Prop :=
  decode 0x01020304FFFFFFF8 = .ok (.scfg 2 3 4 262143 16376) ∧ decode 0x0200000000000000 = .ok .sstart ∧
  decode 0x04000000FE000001 = .ok (.senq 0xFE000001) ∧ decode 0x1008001802030015 = .ok (.ecfg 8 24 2 3 0x15) ∧
  decode 0x2000050300000001 = .ok (.fpix 5 3 true) ∧ decode 0x2300020100030201 = .ok (.frect 2 1 3 2 true) ∧
  decode 0x3001800000000032 = .ok (.dcfg 1 true 50) ∧ decode 0x4000000000000030 = .ok (.rdreg 0x30)

/-! ### The host port -/

/-- R110, R114, R118: on the host's turn the command on the port runs, and with a free port the next command of the host
is issued and runs. Around exec, the step only takes the turn off the schedule and the word off the host's list. -/
def Obligations.StepRunsTheDecodedCommand : Prop :=
  ∀ (s : State) (w : Command) (i : Instr) (rest : List Turn), decode w = .ok i →
    s.schedule = .agent .host :: rest → s.wait = .none →
    (s.port = some w → step s = exec i { s with schedule := rest }) ∧
    (∀ ws, s.port = none → s.pending = w :: ws →
      step s = exec i { s with schedule := rest, port := some w, pending := ws })

/-- R117: an illegal opcode fails with ILLEGAL_OPCODE and has no other effect, newly issued or on the port. -/
def Obligations.IllegalOpcodeFails : Prop :=
  ∀ (s u : State) (w : Command) (op : Nat), op = w.toNat / 2 ^ 56 → Presents s w u →
    (op = 0x00 ∨ (0x05 ≤ op ∧ op ≤ 0x0F) ∨ (0x12 ≤ op ∧ op ≤ 0x1F) ∨ (0x24 ≤ op ∧ op ≤ 0x2F) ∨
      (0x31 ≤ op ∧ op ≤ 0x3F) ∨ 0x42 ≤ op) →
    step s = .next (failed u 0x01 (BitVec.ofNat 8 op))

/-- R113: a command with a bit set that its format gives to no field fails with RESERVED_BITS and has no other
effect, newly issued or on the port. -/
def Obligations.ReservedBitFails : Prop :=
  ∀ row ∈ ([(0x02, 0x00FFFFFFFFFFFFFF), (0x03, 0x00FFFFFFFFFFFFFF), (0x04, 0x00FFFFFF00000000),
      (0x10, 0x000000000000FFC0), (0x11, 0x00FFFFFFFFFFFFFF), (0x20, 0x00000000FFFFFFFE), (0x21, 0x00000000FFFFFFFF),
      (0x22, 0x00FFFFFFFFFFFFFE), (0x23, 0x00000000000000FE), (0x30, 0x00007FFF00000000), (0x40, 0x00FFFFFFFFFFFF00),
      (0x41, 0x00FFFFFFFFFFFFFF)] : List (BitVec 8 × Command)),
    ∀ (s u : State) (w : Command), Presents s w u → w.extractLsb' 56 8 = row.1 → w &&& row.2 ≠ 0 →
      step s = .next (failed u 0x02 row.1)

/-- R331, R334, R111, R219: a command ends in one of four ways: it completes with OK, it fails and changes only ERRSTAT,
it is a SENQ that holds and changes nothing, or it is an EDRAW that starts and leaves its response to its completion. -/
def Obligations.EveryCommandEndsInOneOfFourWays : Prop :=
  ∀ (i : Instr) (s : State), ∃ t, exec i s = .next t ∧
    ((t.port = none ∧ (∃ v, t.responses = s.responses ++ [⟨0x00, v⟩]) ∧ (i ≠ .clrerr → t.errstat = s.errstat)) ∨
     (∃ code ∈ errorCodes, t = failed s code i.op.code) ∨
     ((∃ w, i = .senq w) ∧ s.ser.configured = true ∧ s.params.fifoDepth ≤ s.ser.fifo.length ∧ t = s) ∨
     (i = .edraw ∧ t.wait = .draw ∧ t.enc.busy = true ∧ t.port = s.port ∧ t.responses = s.responses ∧
       t.errstat = s.errstat))

/-- 10_state.md: each part of the state is written only by the commands its rule names, whatever the command's operands
and outcome (R35–R43, R46–R52, R54, R56, R57). -/
def Obligations.CommandsWriteOnlyTheirState : Prop :=
  ∀ (i : Instr) (s t : State), exec i s = .next t →
    (t.params = s.params ∧ t.events = s.events ∧ t.msNow = s.msNow ∧ t.btn = s.btn ∧ t.pending = s.pending ∧
      t.schedule = s.schedule ∧ t.choices = s.choices ∧ t.ser.latchCount = s.ser.latchCount) ∧
    (i.op ≠ .scfg → i.op ≠ .ecfg →
      { t.ser with enabled := s.ser.enabled, fifo := s.ser.fifo } = s.ser) ∧
    (i.op ≠ .scfg → i.op ≠ .ecfg → i.op ≠ .senq → t.ser.fifo = s.ser.fifo) ∧
    (i.op ≠ .ecfg → i.op ≠ .sstart → i.op ≠ .sstop → t.ser.enabled = s.ser.enabled) ∧
    (i.op ≠ .ecfg → { t.enc with busy := s.enc.busy, curRow := s.enc.curRow, curWord := s.enc.curWord, fb := s.enc.fb } =
      s.enc) ∧
    (i.op ≠ .edraw → t.enc.busy = s.enc.busy ∧ t.enc.curRow = s.enc.curRow ∧ t.enc.curWord = s.enc.curWord ∧
      t.wait = s.wait) ∧
    (i.op ≠ .ecfg → i.op ≠ .fpix → i.op ≠ .ffill → i.op ≠ .frect → t.enc.fb = s.enc.fb) ∧
    (i.op ≠ .dcfg → t.deb = s.deb)

/-! ### The serializer -/

/-- R152, R153: an SCFG that passes every check writes the pins, the frequency and the chain length, resets the engine,
responds OK, and changes nothing else. -/
def Obligations.ScfgConfiguresTheSerializer : Prop :=
  ∀ (dpin spin lpin freq chain : Nat) (s : State), s.ser.enabled = false →
    dpin < s.params.numPins → spin < s.params.numPins → lpin < s.params.numPins → lpin = spin + 1 → dpin ≠ spin →
    dpin ≠ lpin → 0 < chain → chain % 8 = 0 → 0 < freq →
    exec (.scfg dpin spin lpin freq chain) s = .next (done
      { s with ser := { configured := true, enabled := false, dataPin := BitVec.ofNat 8 dpin,
                        shiftPin := BitVec.ofNat 8 spin, latchPin := BitVec.ofNat 8 lpin,
                        freq := BitVec.ofNat 32 freq, chain := BitVec.ofNat 32 chain, data := false, shift := false,
                        latch := false, phase := .shiftLow, fifo := [], osr := 0, osrCount := 0, bitCount := 0,
                        latchCount := s.ser.latchCount } } 0x00 0)

/-- R152, R330, R332: the first failing check of SCFG, in the order BUSY, CFG_PIN_RANGE, CFG_PIN_ADJ, CFG_PIN_CONFLICT,
CFG_CHAIN, CFG_FREQ. -/
def Obligations.ScfgReportsItsFirstError : Prop :=
  ∀ (dpin spin lpin freq chain : Nat) (s : State),
    (s.ser.enabled = true → exec (.scfg dpin spin lpin freq chain) s = .next (failed s 0x21 0x01)) ∧
    (s.ser.enabled = false →
      ((s.params.numPins ≤ dpin ∨ s.params.numPins ≤ spin ∨ s.params.numPins ≤ lpin) →
        exec (.scfg dpin spin lpin freq chain) s = .next (failed s 0x16 0x01)) ∧
      (dpin < s.params.numPins → spin < s.params.numPins → lpin < s.params.numPins →
        (lpin ≠ spin + 1 → exec (.scfg dpin spin lpin freq chain) s = .next (failed s 0x12 0x01)) ∧
        (lpin = spin + 1 →
          (dpin = spin ∨ dpin = lpin → exec (.scfg dpin spin lpin freq chain) s = .next (failed s 0x17 0x01)) ∧
          (dpin ≠ spin → dpin ≠ lpin →
            (chain = 0 ∨ chain % 8 ≠ 0 → exec (.scfg dpin spin lpin freq chain) s = .next (failed s 0x13 0x01)) ∧
            (0 < chain → chain % 8 = 0 → freq = 0 →
              exec (.scfg dpin spin lpin freq chain) s = .next (failed s 0x18 0x01))))))

/-- R155: SSTART enables a configured serializer and changes nothing else; an unconfigured one fails with
NOT_CONFIGURED. -/
def Obligations.SstartEnablesAConfiguredSerializer : Prop :=
  ∀ s : State,
    (s.ser.configured = true → exec .sstart s = .next (done { s with ser := { s.ser with enabled := true } } 0x00 0)) ∧
    (s.ser.configured = false → exec .sstart s = .next (failed s 0x20 0x02))

/-- R156, R166: SSTOP pauses. It never fails, no number of serializer turns then changes anything but the schedule, and
a following SSTART puts the serializer exactly where it was. -/
def Obligations.SstopPausesUntilSstart : Prop :=
  ∀ (s : State) (n : Nat) (rest : List Turn), s.schedule = List.replicate n (.agent .serializer) ++ rest →
    ∃ t u v, exec .sstop s = .next t ∧ t = done { s with ser := { s.ser with enabled := false } } 0x00 0 ∧
      run n t = .next u ∧ u = { t with schedule := rest } ∧
      (s.ser.configured = true → s.ser.enabled = true →
        exec .sstart u = .next v ∧ v.ser = s.ser ∧ v.responses = s.responses ++ [⟨0x00, 0⟩, ⟨0x00, 0⟩])

/-- R157: SENQ queues its word at the tail, holds on a full queue, and fails on an unconfigured serializer. -/
def Obligations.SenqQueuesOrHolds : Prop :=
  ∀ (w : Word) (s : State),
    (s.ser.configured = false → exec (.senq w) s = .next (failed s 0x20 0x04)) ∧
    (s.ser.configured = true → s.ser.fifo.length = s.params.fifoDepth → exec (.senq w) s = .next s) ∧
    (s.ser.configured = true → s.ser.fifo.length < s.params.fifoDepth →
      exec (.senq w) s = .next (done { s with ser := { s.ser with fifo := s.ser.fifo ++ [w] } } 0x00 0))

/-- R160, R161: the tick, phase by phase, and when it holds. -/
def Obligations.TickFollowsItsPhases : Prop :=
  ∀ (s : State) (rest : List Turn), s.schedule = .agent .serializer :: rest →
    (s.ser.configured = false ∨ s.ser.enabled = false → step s = .next { s with schedule := rest }) ∧
    (s.ser.configured = true → s.ser.enabled = true →
      (s.ser.phase = .shiftLow → s.ser.osrCount = 0 → s.ser.fifo = [] → step s = .next { s with schedule := rest }) ∧
      (∀ w ws, s.ser.phase = .shiftLow → s.ser.osrCount = 0 → s.ser.fifo = w :: ws →
        step s = .next { s with schedule := rest, ser := { s.ser with
          fifo := ws, data := w.getLsbD 31, shift := false, osr := w <<< 1, osrCount := 31, phase := .shiftHigh } }) ∧
      (s.ser.phase = .shiftLow → 0 < s.ser.osrCount →
        step s = .next { s with schedule := rest, ser := { s.ser with
          data := s.ser.osr.getLsbD 31, shift := false, osr := s.ser.osr <<< 1, osrCount := s.ser.osrCount - 1,
          phase := .shiftHigh } }) ∧
      (s.ser.phase = .shiftHigh →
        step s = .next { s with schedule := rest, ser := { s.ser with
          shift := true, bitCount := s.ser.bitCount + 1,
          phase := if s.ser.bitCount + 1 = s.ser.chain then .latchHigh else .shiftLow } }) ∧
      (s.ser.phase = .latchHigh →
        step s = .next { s with schedule := rest, ser := { s.ser with
          shift := false, latch := true, bitCount := 0, latchCount := s.ser.latchCount + 1, phase := .latchLow } }) ∧
      (s.ser.phase = .latchLow →
        step s = .next { s with schedule := rest, ser := { s.ser with latch := false, phase := .shiftLow } }))

/-- R91, R165, R40: the bits leave in the order they were accepted. A tick in SHIFT_LOW puts the first of the bits still
to be sent on DATA and takes it off, every other tick keeps them, and a SENQ appends its word, bit 31 first. -/
def Obligations.BitsLeaveInTheOrderTheyCame : Prop :=
  (∀ (x y : Ser), x.osrCount ≤ 32 → tick x = some y →
    (x.phase = .shiftLow → outBits x = y.data :: outBits y) ∧ (x.phase ≠ .shiftLow → outBits y = outBits x)) ∧
  (∀ (w : Word) (s t : State), exec (.senq w) s = .next t → t.ser.fifo ≠ s.ser.fifo →
    outBits t.ser = outBits s.ser ++ wordBits w) ∧
  (∀ (w : Word) (k : Nat), k < 32 → (wordBits w)[k]? = some (w.getLsbD (31 - k)))

/-- R151: in each tick, DATA changes only as SHIFT is low after it, a rising SHIFT takes one bit of stable DATA outside
a latch, LATCH rises only after SER.chain bits, and it stays high for one tick. -/
def Obligations.LinesKeepTheirContract : Prop :=
  ∀ (p : Params) (x y : Ser), SerInv p x → tick x = some y →
    (y.data ≠ x.data → y.shift = false) ∧
    (x.shift = false → y.shift = true → y.data = x.data ∧ x.latch = false ∧ y.latch = false ∧
      y.bitCount = x.bitCount + 1) ∧
    (x.latch = false → y.latch = true → x.bitCount = x.chain ∧ y.bitCount = 0 ∧ y.latchCount = x.latchCount + 1) ∧
    (x.latch = true → y.latch = false)

/-- R164: the line sequence of one frame, 2C + 2 ticks, and where it leaves the engine. -/
def Obligations.FrameDrivesItsLineSequence : Prop :=
  ∀ (s : State) (bits more : List Bool) (rest : List Turn),
    s.ser.configured = true → s.ser.enabled = true → s.ser.phase = .shiftLow → s.ser.latch = false →
    s.ser.osrCount ≤ 32 → s.ser.bitCount = 0 → 0 < bits.length → bits.length = s.ser.chain.toNat →
    outBits s.ser = bits ++ more →
    s.schedule = List.replicate (2 * bits.length + 2) (.agent .serializer) ++ rest →
    lineTrace (2 * bits.length + 2) s = frameLines bits ∧
    ∃ t, run (2 * bits.length + 2) s = .next t ∧ outBits t.ser = more ∧ t.ser.phase = .shiftLow ∧
      t.ser.bitCount = 0 ∧ t.ser.latch = false ∧ t.ser.shift = false ∧ t.ser.latchCount = s.ser.latchCount + 1 ∧
      t = { s with schedule := rest, ser := t.ser }

/-- R170, R171: after a frame of C ≥ L bits, the reference observer's OUT is the frame's value modulo 2^L, whatever CH
and OUT were before. -/
def Obligations.ObserverLatchesTheFrame : Prop :=
  ∀ (s : State) (bits more : List Bool) (rest : List Turn) (o : Observer),
    s.ser.configured = true → s.ser.enabled = true → s.ser.phase = .shiftLow → s.ser.latch = false →
    s.ser.osrCount ≤ 32 → s.ser.bitCount = 0 → 0 < bits.length → bits.length = s.ser.chain.toNat →
    outBits s.ser = bits ++ more → o.physBits ≤ bits.length →
    s.schedule = List.replicate (2 * bits.length + 2) (.agent .serializer) ++ rest →
    (o.watchRun (2 * bits.length + 2) s).out = bitsValue bits % 2 ^ o.physBits

/-- R222, R171: with the chain as long as a padded slice and no bit of a frame sent yet, the words of row i are exactly
one frame. After its 2·SER.chain + 2 ticks there is one latch more, and the observer of a chain of 8·dataSize bits shows
the body of the slice: the padding has been shifted through and out. -/
def Obligations.EachRowIsLatchedAsOneFrame : Prop :=
  ∀ (s : State) (i : Nat) (more : List Word) (rest : List Turn) (o : Observer), GeomInv s.params s.enc →
    i < s.enc.rows.toNat → s.ser.configured = true → s.ser.enabled = true → s.ser.phase = .shiftLow →
    s.ser.latch = false → s.ser.bitCount = 0 → s.ser.osrCount = 0 →
    s.ser.chain.toNat = 8 * s.enc.paddedSize.toNat → o.physBits = 8 * (s.enc.rowBytes.toNat + s.enc.colBytes.toNat) →
    s.ser.fifo = (List.range (s.enc.paddedSize.toNat / 4)).map (fun k => sliceWord s.enc i k) ++ more →
    s.schedule = List.replicate (2 * s.ser.chain.toNat + 2) (.agent .serializer) ++ rest →
    (o.watchRun (2 * s.ser.chain.toNat + 2) s).out = beValue (body s.enc i) ∧
    ∃ t, run (2 * s.ser.chain.toNat + 2) s = .next t ∧ t.ser.latchCount = s.ser.latchCount + 1 ∧
      t.ser.phase = .shiftLow ∧ t.ser.bitCount = 0 ∧ outBits t.ser = more.flatMap wordBits

/-- R44: idle is 1 exactly when every accepted bit has been sent and its SHIFT edge given, and every latch due on them has
been issued: no frame is complete and unlatched, and no LATCH pulse is under way. A frame that is only partly sent does
not keep idle at 0. -/
def Obligations.IdleMeansNothingLeftToSend : Prop :=
  ∀ (p : Params) (x : Ser), SerInv p x → (idle x = true ↔ outBits x = [] ∧ x.phase ≠ .shiftHigh ∧
    (x.configured = true → x.bitCount ≠ x.chain) ∧ x.latch = false)

/-- R381, R160: an enabled serializer with a word queued pops it within 4·osrCount + 4 turns. -/
def Obligations.EnabledSerializerPopsAWordInBoundedTurns : Prop :=
  ∀ (s : State) (rest : List Turn), Inv s → s.ser.enabled = true → s.ser.fifo ≠ [] →
    s.schedule = List.replicate (4 * s.ser.osrCount + 4) (.agent .serializer) ++ rest →
    ∃ n t, n ≤ 4 * s.ser.osrCount + 4 ∧ run n s = .next t ∧ t.ser.fifo = s.ser.fifo.tail

/-- R381, R395 and log 13: "While SER.enabled = 1 every hold ends": in every weakly fair run without RESET, a host held on
a full queue of an enabled serializer sees the queue with room later. Fairness binds the serializer, the draw engine and
the host's EDRAW completion only. -/
def Obligations.FairRunEndsEveryHold : Prop :=
  ∀ (turns : Nat → Turn) (r : Nat → State), IsRun turns r → WeaklyFair turns r → (∀ n, turns n ≠ .reset) →
    ∀ n, Inv (r n) → (r n).ser.enabled = true → hostHeld (r n) = true →
      ∃ m, n ≤ m ∧ (r m).ser.fifo.length < (r m).params.fifoDepth

/-- R381: a hang lasts until RESET, whatever turn comes. -/
def Obligations.HangLastsUntilReset : Prop :=
  ∀ s t : State, hung s = true → nextTurn s ≠ .reset → step s = .next t → hung t = true ∧ t.ser = s.ser ∧ t.enc = s.enc

/-! ### The encoder -/

/-- R201, R202, R203, R9: an ECFG that passes every check sets the geometry, the layout and the advisory, clears the
framebuffer, configures and starts the serializer, responds OK, and changes nothing else. -/
def Obligations.EcfgConstructsTheDisplay : Prop :=
  ∀ (rows cols dpin spin : Nat) (layout : BitVec 6) (s : State), s.ser.enabled = false →
    1 ≤ rows → rows ≤ 32 → 1 ≤ cols → cols ≤ s.params.maxCols → layout.getLsbD 5 ≠ layout.getLsbD 2 →
    dpin < s.params.numPins → spin + 1 < s.params.numPins → dpin ≠ spin → dpin ≠ spin + 1 →
    ∃ rb cb padded, rb = (rows + 7) / 8 ∧ cb = (cols + 7) / 8 ∧ padded = 4 * ((rb + cb + 3) / 4) ∧
      exec (.ecfg rows cols dpin spin layout) s = .next (done
        { s with
          enc := { configured := true, rows := BitVec.ofNat 8 rows, cols := BitVec.ofNat 16 cols, layout := layout,
                   rowBytes := BitVec.ofNat 32 rb, colBytes := BitVec.ofNat 32 cb,
                   paddedSize := BitVec.ofNat 32 padded, warnRows := decide (rows % 8 ≠ 0), busy := s.enc.busy,
                   curRow := s.enc.curRow, curWord := s.enc.curWord, fb := [] }
          ser := { configured := true, enabled := true, dataPin := BitVec.ofNat 8 dpin,
                   shiftPin := BitVec.ofNat 8 spin, latchPin := BitVec.ofNat 8 (spin + 1), freq := 30000,
                   chain := BitVec.ofNat 32 (8 * padded), data := false, shift := false, latch := false,
                   phase := .shiftLow, fifo := [], osr := 0, osrCount := 0, bitCount := 0,
                   latchCount := s.ser.latchCount } } 0x00 0)

/-- R201, R330, R332: the first failing check of ECFG, in the order BUSY, CFG_GEOM_ZERO, CFG_ROWS, CFG_COLS_MAX,
CFG_LAYOUT, CFG_PIN_RANGE, CFG_PIN_CONFLICT. -/
def Obligations.EcfgReportsItsFirstError : Prop :=
  ∀ (rows cols dpin spin : Nat) (layout : BitVec 6) (s : State),
    (s.ser.enabled = true → exec (.ecfg rows cols dpin spin layout) s = .next (failed s 0x21 0x10)) ∧
    (s.ser.enabled = false →
      (rows = 0 ∨ cols = 0 → exec (.ecfg rows cols dpin spin layout) s = .next (failed s 0x14 0x10)) ∧
      (0 < rows → 0 < cols →
        (32 < rows → exec (.ecfg rows cols dpin spin layout) s = .next (failed s 0x10 0x10)) ∧
        (rows ≤ 32 →
          (s.params.maxCols < cols → exec (.ecfg rows cols dpin spin layout) s = .next (failed s 0x15 0x10)) ∧
          (cols ≤ s.params.maxCols →
            (layout.getLsbD 5 = layout.getLsbD 2 →
              exec (.ecfg rows cols dpin spin layout) s = .next (failed s 0x11 0x10)) ∧
            (layout.getLsbD 5 ≠ layout.getLsbD 2 →
              (s.params.numPins ≤ dpin ∨ s.params.numPins ≤ spin + 1 →
                exec (.ecfg rows cols dpin spin layout) s = .next (failed s 0x16 0x10)) ∧
              (dpin < s.params.numPins → spin + 1 < s.params.numPins → dpin = spin ∨ dpin = spin + 1 →
                exec (.ecfg rows cols dpin spin layout) s = .next (failed s 0x17 0x10)))))))

/-- R210, R211: the row-select field is the big-endian integer with one set bit, complemented when active-low. -/
def Obligations.RowFieldSelectsOneRow : Prop :=
  ∀ (p : Params) (e : Enc) (i : Nat), GeomInv p e → i < e.rows.toNat →
    (rowField e i).length = e.rowBytes.toNat ∧ rowPos e i < e.rows.toNat ∧
    beValue (rowField e i) =
      if rowActiveLow e then 2 ^ (8 * e.rowBytes.toNat) - 1 - 2 ^ rowPos e i else 2 ^ rowPos e i

/-- R212, R213: where pixel (x, i) stands in the column-data field: at bit W−1−x under A2H, at bit x under H2A,
complemented when active-low. Pad bits travel with the field. -/
def Obligations.ColumnFieldHoldsEachPixel : Prop :=
  ∀ (p : Params) (e : Enc) (i x : Nat), GeomInv p e → i < e.rows.toNat → x < 8 * e.colBytes.toNat →
    (colField e i).length = e.colBytes.toNat ∧
    (beValue (colField e i)).testBit (if colDescending e then x else 8 * e.colBytes.toNat - 1 - x) =
      (pix e x i != colActiveLow e)

/-- R214, R215: a scan slice is the zero padding, never complemented, and then the two fields in the order of the
Layout Descriptor, paddedSize bytes in all. -/
def Obligations.SliceIsPaddingThenFields : Prop :=
  ∀ (p : Params) (e : Enc) (i : Nat), GeomInv p e → i < e.rows.toNat →
    (slice e i).length = e.paddedSize.toNat ∧
    slice e i = List.replicate (e.paddedSize.toNat - (e.rowBytes.toNat + e.colBytes.toNat)) 0 ++
      (if e.layout.getLsbD 5 then colField e i ++ rowField e i else rowField e i ++ colField e i)

/-- R216, R85: the k-th word of a row is bytes 4k .. 4k+3 of its slice, the first byte most significant. -/
def Obligations.WordsAreBigEndianPiecesOfTheSlice : Prop :=
  ∀ (p : Params) (e : Enc) (i k : Nat), GeomInv p e → i < e.rows.toNat → k < e.paddedSize.toNat / 4 →
    ∃ b0 b1 b2 b3 : Byte, (slice e i)[4 * k]? = some b0 ∧ (slice e i)[4 * k + 1]? = some b1 ∧
      (slice e i)[4 * k + 2]? = some b2 ∧ (slice e i)[4 * k + 3]? = some b3 ∧
      (sliceWord e i k).toNat = 2 ^ 24 * b0.toNat + 2 ^ 16 * b1.toNat + 2 ^ 8 * b2.toNat + b3.toNat

/-- R218: changing one half's POL flag complements that half's bytes and leaves the other half's alone. -/
def Obligations.PolarityComplementsOneHalf : Prop :=
  ∀ (e e' : Enc) (i : Nat), layoutValid e.layout = true → i < e.rows.toNat →
    (e' = { e with layout := e.layout ^^^ (if e.layout.getLsbD 5 then 0x02 else 0x10) } →
      rowField e' i = (rowField e i).map (fun b => ~~~b) ∧ colField e' i = colField e i) ∧
    (e' = { e with layout := e.layout ^^^ (if e.layout.getLsbD 5 then 0x10 else 0x02) } →
      colField e' i = (colField e i).map (fun b => ~~~b) ∧ rowField e' i = rowField e i)

/-- R219: EDRAW starts a draw and holds the host, or fails on an unconfigured encoder. -/
def Obligations.EdrawStartsTheDraw : Prop :=
  ∀ s : State,
    (s.enc.configured = true → exec .edraw s =
      .next { s with enc := { s.enc with busy := true, curRow := 0, curWord := 0 }, wait := .draw }) ∧
    (s.enc.configured = false → exec .edraw s = .next (failed s 0x20 0x11))

/-- R220: the draw engine's step, word by word, with the cursor's three moves, and when it holds. -/
def Obligations.DrawStepPushesOneWord : Prop :=
  ∀ (s : State) (rest : List Turn), Inv s → s.schedule = .agent .drawEngine :: rest →
    (s.enc.busy = false → step s = .next { s with schedule := rest }) ∧
    (s.enc.busy = true → s.ser.fifo.length = s.params.fifoDepth → step s = .next { s with schedule := rest }) ∧
    (s.enc.busy = true → s.ser.fifo.length < s.params.fifoDepth →
      ∃ e, step s = .next { s with schedule := rest, enc := e, ser := { s.ser with
          fifo := s.ser.fifo ++ [sliceWord s.enc s.enc.curRow.toNat s.enc.curWord.toNat] } } ∧
        (s.enc.curWord.toNat + 1 < s.enc.paddedSize.toNat / 4 → e = { s.enc with curWord := s.enc.curWord + 1 }) ∧
        (s.enc.curWord.toNat + 1 = s.enc.paddedSize.toNat / 4 →
          (s.enc.curRow.toNat + 1 < s.enc.rows.toNat → e = { s.enc with curWord := 0, curRow := s.enc.curRow + 1 }) ∧
          (s.enc.curRow.toNat + 1 = s.enc.rows.toNat →
            e = { s.enc with curWord := 0, curRow := 0, busy := false })))

/-- R219, R221: the host that waits for its draw has no step while the draw engine is busy, and responds OK with 0 once it
is not. By then every word of the draw has been put in the queue, however often the draw engine held. -/
def Obligations.EdrawCompletesWhenAllWordsAreQueued : Prop :=
  (∀ (s : State) (rest : List Turn), s.schedule = .agent .host :: rest → s.wait = .draw →
    (s.enc.busy = true → step s = .next { s with schedule := rest }) ∧
    (s.enc.busy = false → step s = .next (done { s with schedule := rest, wait := .none } 0x00 0))) ∧
  (∀ (s t : State) (n : Nat), Inv s → DrawStarts s → DrawLasts n s → run n s = .next t → t.enc.busy = false →
    pushedBy n s = drawWords s.enc)

/-- R92, R216, R217, R220: a draw with room for all of its words pushes rows·paddedSize/4 words, rows in index order and
the words of a row in slice order, and ends. -/
def Obligations.DrawPushesEveryRowInOrder : Prop :=
  ∀ (s : State) (n : Nat) (rest : List Turn), Inv s → s.enc.busy = true → s.enc.curRow = 0 → s.enc.curWord = 0 →
    n = s.enc.rows.toNat * s.enc.paddedSize.toNat / 4 → s.ser.fifo.length + n ≤ s.params.fifoDepth →
    s.schedule = List.replicate n (.agent .drawEngine) ++ rest →
    (drawWords s.enc).length = n ∧
    run n s = .next { s with schedule := rest, ser := { s.ser with fifo := s.ser.fifo ++ drawWords s.enc },
                                  enc := { s.enc with busy := false } }

/-- R92, R94, R220: a step lemma of the draw, under backpressure too. What has been pushed so far, followed by the words
from the cursor on, is the draw's words, and every step but RESET keeps that: it puts the next of them at the tail of the
queue, or none and leaves the cursor's words as they are. Only the draw engine pushes, and it does when it has room. -/
def Obligations.DrawStepsKeepTheWordsInOrder : Prop :=
  ∀ (s t : State) (sofar : List Word), Inv s → s.wait = .draw → nextTurn s ≠ .reset → step s = .next t →
    sofar ++ wordsToCome s.enc = drawWords s.enc →
    drawWords t.enc = drawWords s.enc ∧
    ∃ pushed, sofar ++ pushed ++ wordsToCome t.enc = drawWords t.enc ∧
      pushed.length = (if nextTurn s = .agent .drawEngine ∧ s.enc.busy = true ∧
        s.ser.fifo.length < s.params.fifoDepth then 1 else 0) ∧
      (t.ser.fifo = s.ser.fifo ++ pushed ∨
        (nextTurn s = .agent .serializer ∧ t.ser.fifo = s.ser.fifo.tail ∧ pushed = []))

/-- R92, R217, R220: the same over any run of a draw, whatever turns of the other agents and inputs come between and
however often the draw engine holds: the words put in the queue, followed by the words from the cursor on, are the draw's
words, rows in index order and the words of a row in slice order. -/
def Obligations.DrawUnderBackpressurePushesItsWordsInOrder : Prop :=
  ∀ (s t : State) (n : Nat), Inv s → DrawStarts s → DrawLasts n s → run n s = .next t →
    pushedBy n s ++ wordsToCome t.enc = drawWords s.enc

/-- R94, R219, R251: while the host waits for its draw, no step but RESET changes the framebuffer, the geometry or the
layout. -/
def Obligations.FramebufferIsStableDuringADraw : Prop :=
  ∀ s t : State, s.wait = .draw → nextTurn s ≠ .reset → step s = .next t →
    { t.enc with busy := s.enc.busy, curRow := s.enc.curRow, curWord := s.enc.curWord } = s.enc ∧
    (s.enc.busy = true → t.wait = .draw ∧ t.port = s.port ∧ t.responses = s.responses)

/-! ### The framebuffer commands -/

/-- R251, R219: without a geometry the framebuffer commands fail with NOT_CONFIGURED. -/
def Obligations.FramebufferCommandsNeedAGeometry : Prop :=
  ∀ (s : State) (x y w h : Nat) (c : Bool), s.enc.configured = false →
    exec (.fpix x y c) s = .next (failed s 0x20 0x20) ∧ exec (.fpget x y) s = .next (failed s 0x20 0x21) ∧
    exec (.ffill c) s = .next (failed s 0x20 0x22) ∧ exec (.frect x y w h c) s = .next (failed s 0x20 0x23)

/-- R252, R82, R250: FPIX writes pixel (x, y), bit 7 − (x mod 8) of byte y·colBytes + x/8, and no other pixel and no
other byte; outside the geometry it writes nothing. It responds OK. -/
def Obligations.FpixWritesOnePixel : Prop :=
  ∀ (s : State) (x y : Nat) (c : Bool), Inv s → s.enc.configured = true →
    (¬(x < s.enc.cols.toNat ∧ y < s.enc.rows.toNat) → exec (.fpix x y c) s = .next (done s 0x00 0)) ∧
    (x < s.enc.cols.toNat → y < s.enc.rows.toNat →
      ∃ fb, exec (.fpix x y c) s = .next (done { s with enc := { s.enc with fb := fb } } 0x00 0) ∧
        (Memory.read fb (y * s.enc.colBytes.toNat + x / 8)).getLsbD (7 - x % 8) = c ∧
        (∀ j, j < 8 → j ≠ 7 - x % 8 → (Memory.read fb (y * s.enc.colBytes.toNat + x / 8)).getLsbD j =
          (Memory.read s.enc.fb (y * s.enc.colBytes.toNat + x / 8)).getLsbD j) ∧
        (∀ a, a ≠ y * s.enc.colBytes.toNat + x / 8 → Memory.read fb a = Memory.read s.enc.fb a))

/-- R253, R82: FPGET responds with the pixel, 0 outside the geometry, and changes nothing. -/
def Obligations.FpgetReadsThePixel : Prop :=
  ∀ (s : State) (x y : Nat), s.enc.configured = true →
    (x < s.enc.cols.toNat → y < s.enc.rows.toNat → exec (.fpget x y) s = .next (done s 0x00
      (if (Memory.read s.enc.fb (y * s.enc.colBytes.toNat + x / 8)).getLsbD (7 - x % 8) then 1 else 0))) ∧
    (¬(x < s.enc.cols.toNat ∧ y < s.enc.rows.toNat) → exec (.fpget x y) s = .next (done s 0x00 0))

/-- R254, R250: FFILL gives every pixel the value and leaves the pad bits 0; no byte outside the rows in use changes. -/
def Obligations.FfillSetsEveryPixel : Prop :=
  ∀ (s : State) (c : Bool), Inv s → s.enc.configured = true →
    ∃ fb, exec (.ffill c) s = .next (done { s with enc := { s.enc with fb := fb } } 0x00 0) ∧
      (∀ x y, x < s.enc.cols.toNat → y < s.enc.rows.toNat → pix { s.enc with fb := fb } x y = c) ∧
      PadClear { s.enc with fb := fb } ∧
      (∀ a, s.enc.rows.toNat * s.enc.colBytes.toNat ≤ a → Memory.read fb a = Memory.read s.enc.fb a)

/-- R255, R250: FRECT gives the value to the pixels of the rectangle that lie in the geometry and to no other pixel;
bounds do not wrap. A byte that holds no such pixel does not change. -/
def Obligations.FrectFillsTheClippedRectangle : Prop :=
  ∀ (s : State) (x y w h : Nat) (c : Bool), Inv s → s.enc.configured = true →
    ∃ fb, exec (.frect x y w h c) s = .next (done { s with enc := { s.enc with fb := fb } } 0x00 0) ∧
      (∀ x' y', x' < 8 * s.enc.colBytes.toNat → y' < s.enc.rows.toNat → pix { s.enc with fb := fb } x' y' =
        if x ≤ x' ∧ x' < x + w ∧ x' < s.enc.cols.toNat ∧ y ≤ y' ∧ y' < y + h then c else pix s.enc x' y') ∧
      (∀ a, (∀ x' y', x ≤ x' → x' < x + w → x' < s.enc.cols.toNat → y ≤ y' → y' < y + h → y' < s.enc.rows.toNat →
          a ≠ y' * s.enc.colBytes.toNat + x' / 8) → Memory.read fb a = Memory.read s.enc.fb a)

/-- R128, R255, R250: the four commands of FRECTO give the colour to the pixels of the outline that lie in the geometry.
Every other pixel and every pad bit stays, every byte that holds no such pixel stays, and of the rest of the state only
the four responses are new. -/
def Obligations.OutlinePaintsTheBorder : Prop :=
  ∀ (s : State) (x y w h : Nat) (c : Bool), Inv s → s.enc.configured = true → 1 ≤ w → 1 ≤ h → x < 2 ^ 16 → y < 2 ^ 8 →
    w < 2 ^ 16 → h < 2 ^ 8 → y + h - 1 ≤ 255 → x + w - 1 ≤ 65535 →
    ∃ i1 i2 i3 i4 t1 t2 t3 t4, commandsOf (.frecto x y w h c.toNat) = some [i1, i2, i3, i4] ∧
      exec i1 s = .next t1 ∧ exec i2 t1 = .next t2 ∧ exec i3 t2 = .next t3 ∧ exec i4 t3 = .next t4 ∧
      t4 = { s with enc := { s.enc with fb := t4.enc.fb }, port := none,
                    responses := s.responses ++ List.replicate 4 ⟨0x00, 0⟩ } ∧
      (∀ x' y', x' < 8 * s.enc.colBytes.toNat → y' < s.enc.rows.toNat → pix t4.enc x' y' =
        if x' < s.enc.cols.toNat ∧ OnOutline x y w h x' y' then c else pix s.enc x' y') ∧
      (∀ a, (∀ x' y', x' < s.enc.cols.toNat → y' < s.enc.rows.toNat → OnOutline x y w h x' y' →
          a ≠ y' * s.enc.colBytes.toNat + x' / 8) → Memory.read t4.enc.fb a = Memory.read s.enc.fb a)

/-! ### The debouncer -/

/-- R283: DCFG makes a fresh instance and keeps its line view; an index ≥ NUM_BUTTONS fails with BAD_INDEX. -/
def Obligations.DcfgMakesAFreshInstance : Prop :=
  ∀ (s : State) (i : Nat) (en : Bool) (interval : Word),
    (s.params.numButtons ≤ i → exec (.dcfg i en interval) s = .next (failed s 0x22 0x30)) ∧
    (∀ d, i < s.params.numButtons → s.deb[i]? = some d → exec (.dcfg i en interval) s = .next (done
      { s with deb := s.deb.set i { en := en, interval := interval, hasFired := false, last := 0, lvl := d.lvl,
                                    count := 0 } } 0x00 0))

/-- R284, R285, R290, R291: a line change sets the line and the instance's view of it. A rising edge of an enabled
instance fires when the instance has never fired or the interval has passed modulo 2^32; otherwise nothing more
happens. -/
def Obligations.LineChangeFiresOrDrops : Prop :=
  ∀ (s : State) (i : Nat) (v : Bool) (d : Deb) (rest : List Turn), s.schedule = .lineChange i v :: rest →
    i < s.params.numButtons → s.deb[i]? = some d →
    (d.lvl = false ∧ v = true ∧ d.en = true ∧
        (d.hasFired = false ∨ d.interval.toNat ≤ (s.msNow.toNat + 2 ^ 32 - d.last.toNat) % 2 ^ 32) →
      step s = .next { s with
        schedule := rest, btn := s.btn.set i v, events := s.events ++ [.fire i s.msNow],
        deb := s.deb.set i { d with lvl := true, hasFired := true, last := s.msNow, count := d.count + 1 } }) ∧
    (¬(d.lvl = false ∧ v = true ∧ d.en = true ∧
        (d.hasFired = false ∨ d.interval.toNat ≤ (s.msNow.toNat + 2 ^ 32 - d.last.toNat) % 2 ^ 32)) →
      step s = .next { s with schedule := rest, btn := s.btn.set i v, deb := s.deb.set i { d with lvl := v } })

/-- R286, R287: after an accepted trigger, every edge of a burst that stays inside the interval is dropped, and dropped
edges never move the window. -/
def Obligations.BurstInsideTheIntervalIsDropped : Prop :=
  ∀ (s : State) (i : Nat) (d : Deb) (gaps : List Nat) (rest : List Turn),
    s.schedule = edges i gaps ++ rest → i < s.params.numButtons → s.deb[i]? = some d → s.btn[i]? = some true →
    d.en = true → d.hasFired = true → d.lvl = true → s.msNow = d.last →
    (gaps.sum < 2 ^ 32 ∧ gaps.sum < d.interval.toNat) →
    run (3 * gaps.length) s =
      .next { s with schedule := rest, msNow := s.msNow + BitVec.ofNat 32 gaps.sum }

/-! ### Status -/

/-- R58, R310, R44: RDREG responds with the register's fields at the places R58 gives them, and changes nothing. -/
def Obligations.RdregReadsTheRegisterMap : Prop :=
  ∀ s : State, Inv s →
    (∀ r ∈ registerMap s, exec (.rdreg r.1) s = .next (done s 0x00 (BitVec.ofNat 32 r.2)) ∧ r.2 < 2 ^ 32) ∧
    (∀ i d, i < s.params.numButtons → s.deb[i]? = some d → ∀ r ∈ debRegisterMap d i,
      exec (.rdreg r.1) s = .next (done s 0x00 (BitVec.ofNat 32 r.2)) ∧ r.2 < 2 ^ 32)

/-- R58, R310: an unmapped register number fails with BAD_INDEX. -/
def Obligations.RdregOfAnUnmappedNumberFails : Prop :=
  ∀ (s : State) (n : Nat),
    (0x07 ≤ n ∧ n ≤ 0x0F) ∨ (0x17 ≤ n ∧ n ≤ 0x2F) ∨ (0x33 ≤ n ∧ n ≤ 0x3F) ∨
      (0x40 + 4 * s.params.numButtons ≤ n ∧ n ≤ 0xFF) →
    exec (.rdreg n) s = .next (failed s 0x22 0x40)

/-- R312: CLRERR clears the error record. -/
def Obligations.ClrerrClearsTheRecord : Prop :=
  ∀ s : State, exec .clrerr s = .next (done { s with errstat := ⟨0, 0, false⟩ } 0x00 0)

/-- R59: what the registers read right after reset, for every value of the parameters. -/
def Obligations.RegistersAfterReset : Prop :=
  ∀ p : Params, p.wf → ∀ n,
    (n ≤ 0x06 ∨ (0x10 ≤ n ∧ n ≤ 0x16) ∨ (0x30 ≤ n ∧ n ≤ 0x32) ∨ (0x40 ≤ n ∧ n < 0x40 + 4 * p.numButtons)) →
    exec (.rdreg n) (State.resetWith p) = .next (done (State.resetWith p) 0x00
      (if n = 0x00 then 0x00000004
       else if n = 0x12 then 0x00000015
       else if n = 0x31 then BitVec.ofNat 32 (p.fifoDepth + 256 * p.numPins + 65536 * p.numButtons)
       else if n = 0x32 then BitVec.ofNat 32 p.maxCols
       else if 0x40 ≤ n ∧ (n - 0x40) % 4 = 0 then 0x0000012C
       else 0x00000000))

/-! ### The whole machine -/

/-- R370, R371: RESET, from any state. The parameters and the inputs stay, and so do the model's own fields but the
command in progress (log 4). -/
def Obligations.ResetSetsEveryStateElement : Prop :=
  ∀ (s : State) (rest : List Turn), s.schedule = .reset :: rest →
    step s = .next
      { params := s.params,
        ser := { configured := false, enabled := false, dataPin := 0, shiftPin := 0, latchPin := 0, freq := 0, chain := 0,
                 data := false, shift := false, latch := false, phase := .shiftLow, fifo := [], osr := 0, osrCount := 0,
                 bitCount := 0, latchCount := 0 },
        enc := { configured := false, rows := 0, cols := 0, layout := 0x15, rowBytes := 0, colBytes := 0,
                 paddedSize := 0, warnRows := false, busy := false, curRow := 0, curWord := 0, fb := [] },
        deb := List.replicate s.params.numButtons
          { en := false, interval := 300, hasFired := false, last := 0, lvl := false, count := 0 },
        errstat := ⟨0, 0, false⟩, events := [], wait := .none, msNow := s.msNow, btn := s.btn, port := none,
        pending := s.pending, responses := s.responses, schedule := rest, choices := s.choices }

/-- 10_state.md: the state after reset meets the invariant, for every value of the parameters. -/
def Obligations.ResetMeetsTheInvariant : Prop :=
  (∀ p : Params, p.wf → Inv (State.resetWith p)) ∧ Inv State.reset

/-- 10_state.md R33–R56, 20_memory.md R83: every step keeps the invariant, from every state that meets it. -/
def Obligations.EveryStepKeepsTheInvariant : Prop :=
  ∀ s t : State, Inv s → step s = .next t → Inv t

/-- R38, R43, R55, R95, R281, R289: what each agent's turn may touch. -/
def Obligations.AgentsTouchOnlyTheirOwnState : Prop :=
  ∀ (s t : State) (rest : List Turn), step s = .next t →
    (s.schedule = .agent .serializer :: rest → t = { s with schedule := rest, ser := t.ser } ∧
      { t.ser with data := s.ser.data, shift := s.ser.shift, latch := s.ser.latch, phase := s.ser.phase,
                   fifo := s.ser.fifo, osr := s.ser.osr, osrCount := s.ser.osrCount, bitCount := s.ser.bitCount,
                   latchCount := s.ser.latchCount } = s.ser ∧
      (t.ser.fifo = s.ser.fifo ∨ t.ser.fifo = s.ser.fifo.tail)) ∧
    (s.schedule = .agent .drawEngine :: rest → t = { s with schedule := rest, ser := t.ser, enc := t.enc } ∧
      { t.ser with fifo := s.ser.fifo } = s.ser ∧ s.ser.fifo <+: t.ser.fifo ∧
      { t.enc with busy := s.enc.busy, curRow := s.enc.curRow, curWord := s.enc.curWord } = s.enc) ∧
    (∀ i v, s.schedule = .lineChange i v :: rest →
      t = { s with schedule := rest, btn := t.btn, deb := t.deb, events := t.events } ∧
      (∀ j, j ≠ i → t.deb[j]? = s.deb[j]? ∧ t.btn[j]? = s.btn[j]?) ∧ s.events <+: t.events) ∧
    (∀ ms, s.schedule = .advanceTime ms :: rest → t = { s with schedule := rest, msNow := t.msNow } ∧
      t.msNow.toNat = (s.msNow.toNat + ms) % 2 ^ 32)

/-- R11, and log 6 (the model's choice): a turn given to an agent that holds is a step that changes nothing, and a turn
changes nothing exactly when the agent has no step: the host with nothing to issue, complete or run, or with a SENQ on its
port and the queue full, the draw engine on a full queue, the stopped or stalled serializer. To issue a SENQ that then
holds counts as a step, since the command moves to the port. -/
def Obligations.AgentHoldsExactlyWithoutAStep : Prop :=
  ∀ (a : Agent) (s : State), hasStep a s = false ↔ runTurn (.agent a) s = .next s

/-- R90 and log 1 (the model's choice): past the end of the schedule some agent gets the turn, and the step is the one a
schedule naming that agent would have given. Nothing says which agent. -/
def Obligations.UnscheduledTurnGoesToSomeAgent : Prop :=
  ∀ s : State, s.schedule = [] →
    ∃ a : Agent, step s = step { s with schedule := [.agent a], choices := s.choices + 1 }

/-- R380, R256, R56: the model refuses a second framebuffer writer and the primitives the block does not implement, and
stops on a line that does not exist (log 8, the model's choice). -/
def Obligations.OutsideTheBlockIsRefused : Prop :=
  ∀ (s : State) (rest : List Turn),
    (∀ y k b, s.schedule = .foreignWrite y k b :: rest → step s = .refused .secondFramebufferWriter) ∧
    (∀ p, s.schedule = .primitive p :: rest → step s = .refused (.primitiveNotImplemented p)) ∧
    (∀ i v, s.schedule = .lineChange i v :: rest → s.params.numButtons ≤ i → step s = .fault (.noSuchLine i))
end

