-- ==== Sys2Proof/Laws/State.lean ====
section
/-! SUPPORT. One lemma for each field under each shared update of the state, true by rfl. -/

namespace Sys2Proof.Machine

section Respond
variable (c : BitVec 8) (v : Word) (s : State)

@[simp] theorem respond_params : (respond c v s).params = s.params := rfl
@[simp] theorem respond_ser : (respond c v s).ser = s.ser := rfl
@[simp] theorem respond_enc : (respond c v s).enc = s.enc := rfl
@[simp] theorem respond_deb : (respond c v s).deb = s.deb := rfl
@[simp] theorem respond_errstat : (respond c v s).errstat = s.errstat := rfl
@[simp] theorem respond_events : (respond c v s).events = s.events := rfl
@[simp] theorem respond_wait : (respond c v s).wait = s.wait := rfl
@[simp] theorem respond_msNow : (respond c v s).msNow = s.msNow := rfl
@[simp] theorem respond_btn : (respond c v s).btn = s.btn := rfl
@[simp] theorem respond_port : (respond c v s).port = none := rfl
@[simp] theorem respond_pending : (respond c v s).pending = s.pending := rfl
@[simp] theorem respond_responses : (respond c v s).responses = s.responses ++ [⟨c, v⟩] := rfl
@[simp] theorem respond_schedule : (respond c v s).schedule = s.schedule := rfl
@[simp] theorem respond_choices : (respond c v s).choices = s.choices := rfl

end Respond

/-- `respondOk` is spelled as `respond` in every proof. -/
@[simp] theorem respondOk_eq (s : State) : respondOk s = respond 0x00 0 s := rfl

section Raise
variable (e : Err) (o : BitVec 8) (s : State)

@[simp] theorem raise_params : (raise e o s).params = s.params := rfl
@[simp] theorem raise_ser : (raise e o s).ser = s.ser := rfl
@[simp] theorem raise_enc : (raise e o s).enc = s.enc := rfl
@[simp] theorem raise_deb : (raise e o s).deb = s.deb := rfl
@[simp] theorem raise_errstat : (raise e o s).errstat = ⟨e.code, o, true⟩ := rfl
@[simp] theorem raise_events : (raise e o s).events = s.events := rfl
@[simp] theorem raise_wait : (raise e o s).wait = s.wait := rfl
@[simp] theorem raise_msNow : (raise e o s).msNow = s.msNow := rfl
@[simp] theorem raise_btn : (raise e o s).btn = s.btn := rfl
@[simp] theorem raise_port : (raise e o s).port = none := rfl
@[simp] theorem raise_pending : (raise e o s).pending = s.pending := rfl
@[simp] theorem raise_responses : (raise e o s).responses = s.responses ++ [⟨e.code, 0⟩] := rfl
@[simp] theorem raise_schedule : (raise e o s).schedule = s.schedule := rfl
@[simp] theorem raise_choices : (raise e o s).choices = s.choices := rfl

end Raise

section ClearErr
variable (s : State)

@[simp] theorem clearErr_params : (clearErr s).params = s.params := rfl
@[simp] theorem clearErr_ser : (clearErr s).ser = s.ser := rfl
@[simp] theorem clearErr_enc : (clearErr s).enc = s.enc := rfl
@[simp] theorem clearErr_deb : (clearErr s).deb = s.deb := rfl
@[simp] theorem clearErr_errstat : (clearErr s).errstat = ⟨0, 0, false⟩ := rfl
@[simp] theorem clearErr_events : (clearErr s).events = s.events := rfl
@[simp] theorem clearErr_wait : (clearErr s).wait = s.wait := rfl
@[simp] theorem clearErr_msNow : (clearErr s).msNow = s.msNow := rfl
@[simp] theorem clearErr_btn : (clearErr s).btn = s.btn := rfl
@[simp] theorem clearErr_port : (clearErr s).port = s.port := rfl
@[simp] theorem clearErr_pending : (clearErr s).pending = s.pending := rfl
@[simp] theorem clearErr_responses : (clearErr s).responses = s.responses := rfl
@[simp] theorem clearErr_schedule : (clearErr s).schedule = s.schedule := rfl
@[simp] theorem clearErr_choices : (clearErr s).choices = s.choices := rfl

end ClearErr

section FbWrite
variable (e : Enc) (y k : Nat) (v : Byte)

@[simp] theorem fbWrite_configured : (fbWrite e y k v).configured = e.configured := rfl
@[simp] theorem fbWrite_rows : (fbWrite e y k v).rows = e.rows := rfl
@[simp] theorem fbWrite_cols : (fbWrite e y k v).cols = e.cols := rfl
@[simp] theorem fbWrite_layout : (fbWrite e y k v).layout = e.layout := rfl
@[simp] theorem fbWrite_rowBytes : (fbWrite e y k v).rowBytes = e.rowBytes := rfl
@[simp] theorem fbWrite_colBytes : (fbWrite e y k v).colBytes = e.colBytes := rfl
@[simp] theorem fbWrite_paddedSize : (fbWrite e y k v).paddedSize = e.paddedSize := rfl
@[simp] theorem fbWrite_warnRows : (fbWrite e y k v).warnRows = e.warnRows := rfl
@[simp] theorem fbWrite_busy : (fbWrite e y k v).busy = e.busy := rfl
@[simp] theorem fbWrite_curRow : (fbWrite e y k v).curRow = e.curRow := rfl
@[simp] theorem fbWrite_curWord : (fbWrite e y k v).curWord = e.curWord := rfl
@[simp] theorem fbWrite_fb : (fbWrite e y k v).fb = Memory.write e.fb (fbIndex e y k) v := rfl

end FbWrite

section FifoPush
variable (w : Word) (x : Ser)

@[simp] theorem fifoPush_fifo : (fifoPush w x).fifo = x.fifo ++ [w] := rfl
@[simp] theorem fifoPush_configured : (fifoPush w x).configured = x.configured := rfl
@[simp] theorem fifoPush_enabled : (fifoPush w x).enabled = x.enabled := rfl
@[simp] theorem fifoPush_chain : (fifoPush w x).chain = x.chain := rfl
@[simp] theorem fifoPush_phase : (fifoPush w x).phase = x.phase := rfl
@[simp] theorem fifoPush_osr : (fifoPush w x).osr = x.osr := rfl
@[simp] theorem fifoPush_osrCount : (fifoPush w x).osrCount = x.osrCount := rfl
@[simp] theorem fifoPush_bitCount : (fifoPush w x).bitCount = x.bitCount := rfl
@[simp] theorem fifoPush_latchCount : (fifoPush w x).latchCount = x.latchCount := rfl

end FifoPush

section ApplyReset
variable (s : State)

@[simp] theorem applyReset_params : (applyReset s).params = s.params := rfl
@[simp] theorem applyReset_ser : (applyReset s).ser = .reset := rfl
@[simp] theorem applyReset_enc : (applyReset s).enc = .reset := rfl
@[simp] theorem applyReset_deb : (applyReset s).deb = List.replicate s.params.numButtons .reset := rfl
@[simp] theorem applyReset_errstat : (applyReset s).errstat = .reset := rfl
@[simp] theorem applyReset_events : (applyReset s).events = [] := rfl
@[simp] theorem applyReset_wait : (applyReset s).wait = .none := rfl
@[simp] theorem applyReset_msNow : (applyReset s).msNow = s.msNow := rfl
@[simp] theorem applyReset_btn : (applyReset s).btn = s.btn := rfl
@[simp] theorem applyReset_port : (applyReset s).port = none := rfl
@[simp] theorem applyReset_pending : (applyReset s).pending = s.pending := rfl
@[simp] theorem applyReset_responses : (applyReset s).responses = s.responses := rfl
@[simp] theorem applyReset_schedule : (applyReset s).schedule = s.schedule := rfl

end ApplyReset

/-- The next turn of a schedule is taken off it and done. -/
theorem step_cons {s : State} {t : Turn} {rest : List Turn} (h : s.schedule = t :: rest) :
    step s = runTurn t { s with schedule := rest } := by
  simp [step, h]

/-- Past the end of the schedule the free value names the agent. -/
theorem step_nil {s : State} (h : s.schedule = []) :
    step s = runTurn (.agent (Config.freeAgent s.choices)) { s with choices := s.choices + 1 } := by
  simp [step, h]

end Sys2Proof.Machine
end

