-- ==== Sys2Proof/Laws/Bytes.lean ====
section
/-! SUPPORT. Byte sequences and bit sequences as numbers (00_scope.md R10), and bit strings put together into a
register. -/

namespace Sys2Proof.Machine

/-! ### Byte sequences -/

theorem beValue_append (a b : List Byte) : beValue (a ++ b) = beValue a * 256 ^ b.length + beValue b := by
  have key : ∀ (b : List Byte) (c : Nat),
      b.foldl (fun acc b => acc * 256 + b.toNat) c = c * 256 ^ b.length + beValue b := by
    intro b
    induction b with
    | nil => intro c; simp [beValue]
    | cons x xs ih =>
      intro c
      unfold beValue
      simp only [List.foldl_cons]
      rw [ih, ih (0 * 256 + x.toNat)]
      simp only [List.length_cons, pow_succ]
      ring
  show (a ++ b).foldl _ 0 = _
  rw [List.foldl_append, key]
  rfl

@[simp] theorem beValue_singleton (b : Byte) : beValue [b] = b.toNat := by simp [beValue]

theorem beValue_lt (a : List Byte) : beValue a < 256 ^ a.length := by
  induction a using List.reverseRecOn with
  | nil => simp [beValue]
  | append_singleton a x ih =>
    have := x.isLt
    rw [beValue_append, beValue_singleton, List.length_append, List.length_singleton, pow_one, pow_succ]
    omega

@[simp] theorem length_beBytes (n v : Nat) : (beBytes n v).length = n := by simp [beBytes]

/-- The n-byte big-endian sequence of a number has that number as its value, modulo 2^(8n). -/
theorem beValue_beBytes (n v : Nat) : beValue (beBytes n v) = v % 256 ^ n := by
  induction n generalizing v with
  | zero => rw [pow_zero, Nat.mod_one]; rfl
  | succ n ih =>
    have h : beBytes (n + 1) v = [BitVec.ofNat 8 (v / 256 ^ n)] ++ beBytes n v := by
      simp only [beBytes, List.range_succ_eq_map, List.map_cons, List.map_map, List.singleton_append]
      congr 1
      · rw [show (256 : Nat) = 2 ^ 8 from rfl, ← pow_mul]
        simp
      · apply List.map_congr_left
        intro k _
        simp only [Function.comp, Nat.succ_eq_add_one]
        rw [show n + 1 - 1 - (k + 1) = n - 1 - k by omega]
    rw [h, beValue_append, ih, length_beBytes, pow_succ, Nat.mod_mul, beValue_singleton, BitVec.toNat_ofNat]
    ring

/-- Complementing every byte complements the value (R218). -/
theorem beValue_map_not (a : List Byte) : beValue (a.map (fun b => ~~~b)) + beValue a + 1 = 256 ^ a.length := by
  induction a using List.reverseRecOn with
  | nil => rfl
  | append_singleton a x ih =>
    have := x.isLt
    rw [List.map_append, List.map_singleton, beValue_append, beValue_append, beValue_singleton, beValue_singleton,
      List.length_append, List.length_singleton, List.length_singleton, pow_one, pow_succ, BitVec.toNat_not]
    omega

/-- Bit j of a big-endian value is bit j mod 8 of the byte that stands j/8 bytes from the end. -/
theorem testBit_beValue (a : List Byte) (j : Nat) (hj : j < 8 * a.length) :
    (beValue a).testBit j = (a.getD (a.length - 1 - j / 8) 0).getLsbD (j % 8) := by
  induction a using List.reverseRecOn generalizing j with
  | nil => simp at hj
  | append_singleton a x ih =>
    have h1 : beValue (a ++ [x]) = 2 ^ 8 * beValue a + x.toNat := by
      rw [beValue_append, beValue_singleton, List.length_singleton]
      ring
    rw [h1, Nat.testBit_two_pow_mul_add _ x.isLt]
    simp only [List.length_append, List.length_cons, List.length_nil] at hj ⊢
    by_cases h : j < 8
    · rw [if_pos h, show a.length + (0 + 1) - 1 - j / 8 = a.length by omega, Nat.mod_eq_of_lt h]
      simp [List.getD, BitVec.getLsbD]
    · rw [if_neg h, ih (j - 8) (by omega), show a.length + (0 + 1) - 1 - j / 8 = a.length - 1 - (j - 8) / 8 by omega,
        show (j - 8) % 8 = j % 8 by omega, List.getD, List.getD, List.getElem?_append_left (by omega)]

@[simp] theorem length_polarity (low : Bool) (bs : List Byte) : (polarity low bs).length = bs.length := by
  cases low <;> simp [polarity]

/-! ### Bit sequences -/

theorem bitsValue_append (a b : List Bool) : bitsValue (a ++ b) = bitsValue a * 2 ^ b.length + bitsValue b := by
  have key : ∀ (b : List Bool) (c : Nat),
      b.foldl (fun acc b => 2 * acc + b.toNat) c = c * 2 ^ b.length + bitsValue b := by
    intro b
    induction b with
    | nil => intro c; simp [bitsValue]
    | cons x xs ih =>
      intro c
      unfold bitsValue
      simp only [List.foldl_cons]
      rw [ih, ih (2 * 0 + x.toNat)]
      simp only [List.length_cons, pow_succ]
      ring
  show (a ++ b).foldl _ 0 = _
  rw [List.foldl_append, key]
  rfl

/-! ### Bit strings -/

/-- The number a concatenation stands for. -/
theorem toNat_concat {m n : Nat} (a : BitVec m) (b : BitVec n) : (a ++ b).toNat = a.toNat * 2 ^ n + b.toNat := by
  rw [BitVec.toNat_append, Nat.shiftLeft_eq, Nat.mul_comm, Nat.two_pow_add_eq_or_of_lt b.isLt]

@[simp] theorem toNat_bit (b : Bool) : (bit b).toNat = b.toNat := by cases b <;> rfl

end Sys2Proof.Machine
end

