-- ==== Sys2Proof/Laws/Decode.lean ====
section
/-! SUPPORT. The decoder and the encoder, one fact at a time: the opcode, the reserved bits and each field of a packed
word, and what a decoded word must look like. -/

namespace Sys2Proof

/-- Looking up a row's opcode finds the row. -/
@[simp] theorem ofCode_code (o : Op) : Op.ofCode o.code = some o := by cases o <;> decide

/-- The row found has the opcode looked up. -/
theorem code_of_ofCode {c : BitVec 8} {o : Op} (h : Op.ofCode c = some o) : o.code = c := by
  have := List.find?_some h
  simpa using this

/-- A packed word as a number. -/
theorem pack_toNat (o : Op) (low : Nat) (h : low < 2 ^ 56) : (pack o low).toNat = o.code.toNat * 2 ^ 56 + low := by
  have := o.code.isLt
  rw [pack, BitVec.toNat_ofNat]
  omega

/-- The opcode of a packed word. -/
theorem opcodeOf_pack (o : Op) (low : Nat) (h : low < 2 ^ 56) : opcodeOf (pack o low) = o.code := by
  apply BitVec.eq_of_toNat_eq
  have := o.code.isLt
  rw [opcodeOf, pack_toNat o low h, BitVec.toNat_ofNat]
  omega

/-- A field of a packed word is that field of its operand bits. -/
theorem fieldOf_pack (o : Op) (low lo len : Nat) (h : low < 2 ^ 56) (hl : lo + len ≤ 56) :
    fieldOf (pack o low) lo len = low / 2 ^ lo % 2 ^ len := by
  rw [fieldOf, pack_toNat o low h]
  obtain ⟨k, hk⟩ : ∃ k, 56 = lo + len + k := ⟨56 - (lo + len), by omega⟩
  rw [show o.code.toNat * 2 ^ 56 = 2 ^ lo * (2 ^ len * (o.code.toNat * 2 ^ k)) by rw [hk]; ring,
    Nat.mul_add_div (by positivity), Nat.mul_add_mod]

/-- A packed word whose reserved bits are clear decodes to its fields. -/
theorem decode_pack (o : Op) (low : Nat) (h : low < 2 ^ 56) (hr : reservedClear o (pack o low) = true) :
    decode (pack o low) = .ok (operandsOf o (pack o low)) := by
  rw [decode, opcodeOf_pack o low h, ofCode_code]
  exact if_pos hr

/-- What the decoder's answer says of a word: its opcode is a row's, the reserved bits are clear, and the command is
the row's fields. -/
theorem decode_ok_iff {w : Command} {i : Instr} :
    decode w = .ok i ↔ ∃ o, opcodeOf w = o.code ∧ reservedClear o w = true ∧ operandsOf o w = i := by
  constructor
  · intro h
    unfold decode at h
    split at h
    · cases h
    · rename_i o ho
      split at h
      · injection h with h
        exact ⟨o, (code_of_ofCode ho).symm, ‹_›, h⟩
      · cases h
  · rintro ⟨o, ho, hr, rfl⟩
    rw [decode, ho, ofCode_code]
    exact if_pos hr

/-- Every opcode that is no row's is illegal. -/
theorem decode_illegal {w : Command} (h : Op.ofCode (opcodeOf w) = none) : decode w = .illegalOpcode := by
  rw [decode, h]

/-- A set reserved bit is reported after the opcode. -/
theorem decode_reserved {w : Command} {o : Op} (ho : opcodeOf w = o.code) (hr : reservedClear o w = false) :
    decode w = .reservedBits := by
  rw [decode, ho, ofCode_code]
  exact if_neg (by rw [hr]; decide)

/-- A row's fields give a command of that row. -/
@[simp] theorem op_operandsOf (o : Op) (w : Command) : (operandsOf o w).op = o := by cases o <;> rfl

theorem fieldOf_lt (w : Command) (lo len : Nat) : fieldOf w lo len < 2 ^ len := Nat.mod_lt _ (by positivity)

/-- Every operand the decoder reads fits its field. -/
theorem wf_operandsOf (o : Op) (w : Command) : (operandsOf o w).wf = true := by
  cases o <;> simp only [operandsOf, Instr.wf, Bool.and_eq_true, decide_eq_true_eq] <;>
    first | trivial | exact fieldOf_lt _ _ _ | (refine ⟨?_, ?_⟩ <;> exact fieldOf_lt _ _ _) |
      (refine ⟨⟨⟨?_, ?_⟩, ?_⟩, ?_⟩ <;> exact fieldOf_lt _ _ _) |
      (refine ⟨⟨⟨⟨?_, ?_⟩, ?_⟩, ?_⟩, ?_⟩ <;> exact fieldOf_lt _ _ _)

/-- A decoded command is well formed. -/
theorem wf_of_decode {w : Command} {i : Instr} (h : decode w = .ok i) : i.wf = true := by
  obtain ⟨o, -, -, rfl⟩ := decode_ok_iff.1 h
  exact wf_operandsOf o w

end Sys2Proof
end

