-- ==== Sys2Proof/Laws/Exec.lean ====
section
/-! SUPPORT. What each command's meaning can answer, said once, guards included. Every command answers a next state. -/

namespace Sys2Proof.Machine

/-- Every command answers a next state (60_exceptions.md R331: a failing command is answered, not stopped). -/
theorem exec_next (i : Instr) (s : State) : ∃ t, exec i s = .next t := by
  cases i <;> simp only [exec, execScfg, execSstart, execSstop, execSenq, execEcfg, execEdraw, execFpix, execFpget,
    execFfill, execFrect, execDcfg, execRdreg, execClrerr] <;> (repeat' split) <;> exact ⟨_, rfl⟩

theorem execScfg_cases {d p l f c : Nat} {s t : State} (h : execScfg d p l f c s = .next t) :
    (∃ e, scfgError s d p l f c = some e ∧ t = raise e Op.scfg.code s) ∨
    (scfgError s d p l f c = none ∧ t = respondOk { s with ser := serConfigure s.ser d p l f c }) := by
  unfold execScfg at h
  split at h
  · rename_i e he
    injection h with h
    exact .inl ⟨e, he, h.symm⟩
  · rename_i he
    injection h with h
    exact .inr ⟨he, h.symm⟩

/-- An accepted SCFG (R152). -/
theorem scfgError_none {s : State} {d p l f c : Nat} (h : scfgError s d p l f c = none) :
    s.ser.enabled = false ∧ d < s.params.numPins ∧ p < s.params.numPins ∧ l < s.params.numPins ∧ l = p + 1 ∧ d ≠ p ∧
    d ≠ l ∧ 0 < c ∧ c % 8 = 0 ∧ 0 < f := by
  unfold scfgError at h
  split at h
  · cases h
  split at h
  · cases h
  split at h
  · cases h
  split at h
  · cases h
  split at h
  · cases h
  split at h
  · cases h
  rename_i he h1 h2 h3 h4 h5
  refine ⟨by simpa using he, ?_, ?_, ?_, ?_, ?_, ?_, ?_, ?_, ?_⟩ <;> omega

theorem execEcfg_cases {r c d p : Nat} {l : BitVec 6} {s t : State} (h : execEcfg r c d p l s = .next t) :
    (∃ e, ecfgError s r c d p l = some e ∧ t = raise e Op.ecfg.code s) ∨
    (ecfgError s r c d p l = none ∧
      t = respondOk { s with enc := encConfigure s.enc r c l, ser := ecfgSer s.ser r c d p }) := by
  unfold execEcfg at h
  split at h
  · rename_i e he
    injection h with h
    exact .inl ⟨e, he, h.symm⟩
  · rename_i he
    injection h with h
    exact .inr ⟨he, h.symm⟩

/-- An accepted ECFG (R201). -/
theorem ecfgError_none {s : State} {r c d p : Nat} {l : BitVec 6} (h : ecfgError s r c d p l = none) :
    s.ser.enabled = false ∧ 1 ≤ r ∧ r ≤ 32 ∧ 1 ≤ c ∧ c ≤ s.params.maxCols ∧ layoutValid l = true ∧
    d < s.params.numPins ∧ p + 1 < s.params.numPins ∧ d ≠ p ∧ d ≠ p + 1 := by
  unfold ecfgError Config.maxRows at h
  split at h
  · cases h
  split at h
  · cases h
  split at h
  · cases h
  split at h
  · cases h
  split at h
  · cases h
  split at h
  · cases h
  split at h
  · cases h
  rename_i he h1 h2 h3 h4 h5 h6
  refine ⟨by simpa using he, ?_, ?_, ?_, ?_, by simpa using h4, ?_, ?_, ?_, ?_⟩ <;> omega

theorem execSstart_cases {s t : State} (h : execSstart s = .next t) :
    (s.ser.configured = true ∧ t = respondOk { s with ser := { s.ser with enabled := true } }) ∨
    (s.ser.configured = false ∧ t = raise .notConfigured Op.sstart.code s) := by
  unfold execSstart at h
  split at h <;> injection h with h
  · exact .inl ⟨‹_›, h.symm⟩
  · exact .inr ⟨by simp_all, h.symm⟩

theorem execSstop_cases {s t : State} (h : execSstop s = .next t) :
    t = respondOk { s with ser := { s.ser with enabled := false } } := by
  unfold execSstop at h
  injection h with h
  exact h.symm

theorem execSenq_cases {w : Word} {s t : State} (h : execSenq w s = .next t) :
    (s.ser.configured = true ∧ fifoFull s = true ∧ t = s) ∨
    (s.ser.configured = true ∧ fifoFull s = false ∧ t = respondOk { s with ser := fifoPush w s.ser }) ∨
    (s.ser.configured = false ∧ t = raise .notConfigured Op.senq.code s) := by
  unfold execSenq at h
  split at h
  · split at h <;> injection h with h
    · exact .inl ⟨‹_›, ‹_›, h.symm⟩
    · exact .inr (.inl ⟨‹_›, by simp_all, h.symm⟩)
  · injection h with h
    exact .inr (.inr ⟨by simp_all, h.symm⟩)

theorem execEdraw_cases {s t : State} (h : execEdraw s = .next t) :
    (s.enc.configured = true ∧
      t = { s with enc := { s.enc with busy := true, curRow := 0, curWord := 0 }, wait := .draw }) ∨
    (s.enc.configured = false ∧ t = raise .notConfigured Op.edraw.code s) := by
  unfold execEdraw at h
  split at h <;> injection h with h
  · exact .inl ⟨‹_›, h.symm⟩
  · exact .inr ⟨by simp_all, h.symm⟩

theorem execFpix_cases {x y : Nat} {c : Bool} {s t : State} (h : execFpix x y c s = .next t) :
    (s.enc.configured = true ∧ inBounds s.enc x y = true ∧ t = respondOk { s with enc := setpix s.enc x y c }) ∨
    (s.enc.configured = true ∧ inBounds s.enc x y = false ∧ t = respondOk s) ∨
    (s.enc.configured = false ∧ t = raise .notConfigured Op.fpix.code s) := by
  unfold execFpix at h
  split at h
  · split at h <;> injection h with h
    · exact .inl ⟨‹_›, ‹_›, h.symm⟩
    · exact .inr (.inl ⟨‹_›, by simp_all, h.symm⟩)
  · injection h with h
    exact .inr (.inr ⟨by simp_all, h.symm⟩)

theorem execFpget_cases {x y : Nat} {s t : State} (h : execFpget x y s = .next t) :
    (s.enc.configured = true ∧ ∃ v, t = respond 0x00 v s) ∨
    (s.enc.configured = false ∧ t = raise .notConfigured Op.fpget.code s) := by
  unfold execFpget at h
  split at h
  · split at h <;> injection h with h
    · exact .inl ⟨‹_›, _, h.symm⟩
    · exact .inl ⟨‹_›, _, h.symm⟩
  · injection h with h
    exact .inr ⟨by simp_all, h.symm⟩

theorem execFfill_cases {c : Bool} {s t : State} (h : execFfill c s = .next t) :
    (s.enc.configured = true ∧ t = respondOk
      { s with enc := setArea s.enc (List.range s.enc.cols.toNat) (List.range s.enc.rows.toNat) c }) ∨
    (s.enc.configured = false ∧ t = raise .notConfigured Op.ffill.code s) := by
  unfold execFfill at h
  split at h <;> injection h with h
  · exact .inl ⟨‹_›, h.symm⟩
  · exact .inr ⟨by simp_all, h.symm⟩

theorem execFrect_cases {x y w h : Nat} {c : Bool} {s t : State} (he : execFrect x y w h c s = .next t) :
    (s.enc.configured = true ∧ t = respondOk
      { s with enc := setArea s.enc (span x w s.enc.cols.toNat) (span y h s.enc.rows.toNat) c }) ∨
    (s.enc.configured = false ∧ t = raise .notConfigured Op.frect.code s) := by
  unfold execFrect at he
  split at he <;> injection he with he
  · exact .inl ⟨‹_›, he.symm⟩
  · exact .inr ⟨by simp_all, he.symm⟩

theorem execDcfg_cases {i : Nat} {en : Bool} {v : Word} {s t : State} (h : execDcfg i en v s = .next t) :
    (s.params.numButtons ≤ i ∧ t = raise .badIndex Op.dcfg.code s) ∨
    (i < s.params.numButtons ∧ t = respondOk { s with deb := s.deb.set i (freshDeb (debAt s i) en v) }) := by
  unfold execDcfg at h
  split at h <;> injection h with h
  · exact .inl ⟨by omega, h.symm⟩
  · exact .inr ⟨by omega, h.symm⟩

theorem execRdreg_cases {n : Nat} {s t : State} (h : execRdreg n s = .next t) :
    (∃ v, register s n = some v ∧ t = respond 0x00 v s) ∨
    (register s n = none ∧ t = raise .badIndex Op.rdreg.code s) := by
  unfold execRdreg at h
  split at h <;> injection h with h
  · exact .inl ⟨_, ‹_›, h.symm⟩
  · exact .inr ⟨‹_›, h.symm⟩

theorem execClrerr_cases {s t : State} (h : execClrerr s = .next t) : t = respondOk (clearErr s) := by
  unfold execClrerr at h
  injection h with h
  exact h.symm

/-- When an edge fires, in numbers (R285). -/
theorem accepts_iff (d : Deb) (now : Word) : accepts d now = true ↔
    d.hasFired = false ∨ d.interval.toNat ≤ (now.toNat + 2 ^ 32 - d.last.toNat) % 2 ^ 32 := by
  have := d.last.isLt
  simp only [accepts, Bool.or_eq_true, Bool.not_eq_true', decide_eq_true_eq, BitVec.le_def, BitVec.toNat_sub]
  rw [show 2 ^ 32 - d.last.toNat + now.toNat = now.toNat + 2 ^ 32 - d.last.toNat by omega]

/-- The line change's two outcomes on a line that exists (R284, R285). -/
theorem lineChange_cases {i : Nat} {v : Bool} {s t : State} (h : lineChange i v s = .next t) :
    i < s.params.numButtons ∧
    (((debAt s i).lvl = false ∧ v = true ∧ (debAt s i).en = true ∧ accepts { debAt s i with lvl := v } s.msNow = true ∧
        t = { s with btn := s.btn.set i v, deb := s.deb.set i (triggered { debAt s i with lvl := v } s.msNow),
                     events := s.events ++ [.fire i s.msNow] }) ∨
     t = { s with btn := s.btn.set i v, deb := s.deb.set i { debAt s i with lvl := v } }) := by
  unfold lineChange at h
  split at h
  · refine ⟨‹_›, ?_⟩
    dsimp only at h
    split at h <;> injection h with h
    · rename_i hc
      simp only [Bool.and_eq_true, Bool.not_eq_true'] at hc
      exact .inl ⟨hc.1.1.1, hc.1.1.2, hc.1.2, hc.2, h.symm⟩
    · exact .inr h.symm
  · cases h

/-- The draw engine's turn (R220): nothing, or one word more in the queue and the cursor moved. -/
theorem drawStep_cases (s : State) :
    (s.enc.busy = true ∧ fifoFull s = false ∧
      drawStep s = { s with ser := fifoPush (sliceWord s.enc s.enc.curRow.toNat s.enc.curWord.toNat) s.ser,
                            enc := advanceCursor s.enc }) ∨
    ((s.enc.busy = false ∨ fifoFull s = true) ∧ drawStep s = s) := by
  unfold drawStep
  rcases hb : s.enc.busy with _ | _
  · exact .inr ⟨.inl rfl, by simp⟩
  · rcases hf : fifoFull s with _ | _
    · exact .inl ⟨rfl, rfl, by simp⟩
    · exact .inr ⟨.inr rfl, by simp⟩

/-- The cursor's three moves (R220). -/
theorem advanceCursor_cases (e : Enc) :
    ((e.curWord + 1).toNat = wordsPerRow e ∧ e.curRow + 1 = e.rows ∧
      advanceCursor e = { e with curWord := 0, curRow := 0, busy := false }) ∨
    ((e.curWord + 1).toNat = wordsPerRow e ∧ e.curRow + 1 ≠ e.rows ∧
      advanceCursor e = { e with curWord := 0, curRow := e.curRow + 1 }) ∨
    ((e.curWord + 1).toNat ≠ wordsPerRow e ∧ advanceCursor e = { e with curWord := e.curWord + 1 }) := by
  unfold advanceCursor
  by_cases h1 : (e.curWord + 1).toNat = wordsPerRow e
  · by_cases h2 : e.curRow + 1 = e.rows
    · exact .inl ⟨h1, h2, by rw [if_pos h1, if_pos h2]⟩
    · exact .inr (.inl ⟨h1, h2, by rw [if_pos h1, if_neg h2]⟩)
  · exact .inr (.inr ⟨h1, by rw [if_neg h1]⟩)

/-- The host's turn: it holds, completes its draw, or runs a command (R114, R221). -/
theorem hostStep_cases (s : State) :
    (s.wait = .draw ∧ s.enc.busy = true ∧ hostStep s = .next s) ∨
    (s.wait = .draw ∧ s.enc.busy = false ∧ hostStep s = .next (completeDraw s)) ∨
    (∃ w, s.wait = .none ∧ s.port = some w ∧ hostStep s = runCommand w s) ∨
    (∃ w ws, s.wait = .none ∧ s.port = none ∧ s.pending = w :: ws ∧
      hostStep s = runCommand w { s with port := some w, pending := ws }) ∨
    (s.wait = .none ∧ s.port = none ∧ s.pending = [] ∧ hostStep s = .next s) := by
  unfold hostStep
  rcases hw : s.wait with _ | _
  · rcases hp : s.port with _ | w
    · rcases hq : s.pending with _ | ⟨w, ws⟩
      · exact .inr (.inr (.inr (.inr ⟨rfl, rfl, rfl, rfl⟩)))
      · exact .inr (.inr (.inr (.inl ⟨w, ws, rfl, rfl, rfl, rfl⟩)))
    · exact .inr (.inr (.inl ⟨w, rfl, rfl, rfl⟩))
  · rcases hb : s.enc.busy with _ | _
    · exact .inr (.inl ⟨rfl, rfl, by simp⟩)
    · exact .inl ⟨rfl, rfl, by simp⟩

/-- A command word runs its command, or fails at decoding (R118). -/
theorem runCommand_cases (w : Command) (s : State) :
    (∃ i, decode w = .ok i ∧ runCommand w s = exec i s) ∨
    (∃ e, runCommand w s = .next (raise e (opcodeOf w) s)) := by
  unfold runCommand
  rcases hd : decode w with i | _ | _
  · exact .inl ⟨i, rfl, rfl⟩
  · exact .inr ⟨_, rfl⟩
  · exact .inr ⟨_, rfl⟩

end Sys2Proof.Machine
end

