-- ==== Sys2Proof/Laws/Draw.lean ====
section
/-! SUPPORT. The words of a draw (41_encoder.md R217, R220): how many there are, where each stands, and that the draw
engine takes the next of them. -/

namespace Sys2Proof.Machine

/-- The words of the first n rows. -/
theorem length_rowWords (e : Enc) (n : Nat) :
    ((List.range n).flatMap (fun i => (List.range (wordsPerRow e)).map (fun k => sliceWord e i k))).length =
      n * wordsPerRow e := by
  induction n with
  | zero => simp
  | succ n ih => simp [List.range_succ, ih, Nat.succ_mul]

/-- How many words a draw pushes (R217). -/
theorem length_drawWords (e : Enc) : (drawWords e).length = e.rows.toNat * wordsPerRow e := length_rowWords e _

/-- Word w of row r is word r·wordsPerRow + w of the draw (R92). -/
theorem getElem?_drawWords {e : Enc} {r w : Nat} (hr : r < e.rows.toNat) (hw : w < wordsPerRow e) :
    (drawWords e)[r * wordsPerRow e + w]? = some (sliceWord e r w) := by
  have key : ∀ n, r < n →
      ((List.range n).flatMap (fun i => (List.range (wordsPerRow e)).map (fun k => sliceWord e i k)))[
        r * wordsPerRow e + w]? = some (sliceWord e r w) := by
    intro n
    induction n with
    | zero => exact fun h => absurd h (Nat.not_lt_zero r)
    | succ n ih =>
      intro h
      rw [List.range_succ, List.flatMap_append]
      by_cases hn : r < n
      · have hl : (r + 1) * wordsPerRow e ≤ n * wordsPerRow e := Nat.mul_le_mul_right _ hn
        rw [Nat.succ_mul] at hl
        rw [List.getElem?_append_left (by rw [length_rowWords]; omega)]
        exact ih hn
      · obtain rfl : r = n := by omega
        rw [List.getElem?_append_right (by rw [length_rowWords]; omega), length_rowWords, Nat.add_sub_cancel_left]
        simp [hw]
  exact key _ hr

/-- A draw that has just started has all of its words to come. -/
theorem wordsToCome_start {e : Enc} (hb : e.busy = true) (hr : e.curRow = 0) (hw : e.curWord = 0) :
    wordsToCome e = drawWords e := by simp [wordsToCome, hb, hr, hw]

/-- The words of a draw depend on the framebuffer, the geometry and the layout only, not on the cursor. -/
theorem drawWords_cursor (e : Enc) (b : Bool) (r : BitVec 8) (w : BitVec 16) :
    drawWords { e with busy := b, curRow := r, curWord := w } = drawWords e := rfl

/-- The word that the draw engine pushes is the first of those to come, and the rest are to come after it (R220). -/
theorem wordsToCome_push {e : Enc} (hb : e.busy = true) (hr : e.curRow.toNat < e.rows.toNat)
    (hw : e.curWord.toNat < wordsPerRow e) (hs : wordsPerRow e < 65536) :
    wordsToCome e = sliceWord e e.curRow.toNat e.curWord.toNat :: wordsToCome (advanceCursor e) := by
  have hrow := e.rows.isLt
  have ew : (e.curWord + 1).toNat = e.curWord.toNat + 1 := by rw [BitVec.toNat_add, show (1 : BitVec 16).toNat = 1 from rfl]; omega
  have er : (e.curRow + 1).toNat = e.curRow.toNat + 1 := by rw [BitVec.toNat_add, show (1 : BitVec 8).toNat = 1 from rfl]; omega
  have el : e.curRow + 1 = e.rows ↔ e.curRow.toNat + 1 = e.rows.toNat := by rw [← er]; exact BitVec.toNat_inj.symm
  obtain ⟨hlt, hget⟩ := List.getElem?_eq_some_iff.1 (getElem?_drawWords hr hw)
  have hhead : wordsToCome e = sliceWord e e.curRow.toNat e.curWord.toNat ::
      (drawWords e).drop (e.curRow.toNat * wordsPerRow e + e.curWord.toNat + 1) := by
    rw [wordsToCome, if_pos hb, List.drop_eq_getElem_cons hlt, hget]
  rw [hhead]
  congr 1
  rcases advanceCursor_cases e with ⟨h1, h2, h⟩ | ⟨h1, h2, h⟩ | ⟨h1, h⟩ <;> rw [h]
  · rw [ew] at h1
    rw [el] at h2
    rw [wordsToCome, if_neg (by simp), List.drop_eq_nil_iff, length_drawWords, ← h2, Nat.succ_mul]
    omega
  · rw [ew] at h1
    rw [wordsToCome, if_pos hb]
    show _ = (drawWords e).drop ((e.curRow + 1).toNat * wordsPerRow e + 0)
    rw [er, Nat.succ_mul]
    congr 1
    omega
  · rw [wordsToCome, if_pos hb]
    show _ = (drawWords e).drop (e.curRow.toNat * wordsPerRow e + (e.curWord + 1).toNat)
    rw [ew]
    rfl

end Sys2Proof.Machine
end

