-- ==== Sys2Proof/Laws/Memory.lean ====
section
/-! SUPPORT. The laws of the framebuffer's storage: read after write, and the canonical form kept by every write. -/

namespace Sys2Proof.Machine

/-- A write leaves every other index alone, whatever the list's form. -/
theorem read_write_other {a a' : Nat} (h : a' ≠ a) (v : Byte) (m : Memory) :
    Memory.read (Memory.write m a v) a' = Memory.read m a' := by
  induction m with
  | nil => by_cases hv : v = 0#8 <;> simp [Memory.write, Memory.read, hv, Ne.symm h]
  | cons c m ih =>
    obtain ⟨k, u⟩ := c
    by_cases h1 : a < k
    · by_cases hv : v = 0#8 <;> simp [Memory.write, Memory.read, h1, hv, Ne.symm h]
    · by_cases h2 : a = k
      · subst h2
        by_cases hv : v = 0#8 <;> simp [Memory.write, Memory.read, hv, Ne.symm h]
      · simp only [Memory.write, if_neg h1, if_neg h2, Memory.read, ih]

/-- An index below every listed one reads 0. -/
theorem read_eq_zero {m : Memory} {a : Nat} (h : ∀ c ∈ m, a < c.1) : Memory.read m a = 0#8 := by
  induction m with
  | nil => rfl
  | cons c m ih =>
    have := h c (by simp)
    simp only [Memory.read]
    rw [if_neg (by omega)]
    exact ih (fun c hc => h c (by simp [hc]))

/-- Read after write gives the value written, in a memory of rising indexes. -/
theorem read_write_same {m : Memory} (h : m.Pairwise (fun a b => a.1 < b.1)) (a : Nat) (v : Byte) :
    Memory.read (Memory.write m a v) a = v := by
  induction m with
  | nil => by_cases hv : v = 0#8 <;> simp [Memory.write, Memory.read, hv]
  | cons c m ih =>
    obtain ⟨k, u⟩ := c
    rw [List.pairwise_cons] at h
    by_cases h1 : a < k
    · by_cases hv : v = 0#8
      · simp only [Memory.write, if_pos h1, if_pos hv]
        rw [hv]
        refine read_eq_zero (fun c hc => ?_)
        rcases List.mem_cons.1 hc with rfl | hc
        · exact h1
        · exact Nat.lt_trans h1 (h.1 c hc)
      · simp [Memory.write, Memory.read, h1, hv]
    · by_cases h2 : a = k
      · subst h2
        by_cases hv : v = 0#8
        · simp only [Memory.write, if_neg h1, if_pos, hv]
          exact read_eq_zero h.1
        · simp [Memory.write, Memory.read, hv]
      · simp only [Memory.write, if_neg h1, if_neg h2, Memory.read, if_neg (Ne.symm h2)]
        exact ih h.2

/-- Every entry after a write is the written one or an old one. -/
theorem mem_write {m : Memory} {a : Nat} {v : Byte} {c : Host.Cell} (h : c ∈ Memory.write m a v) :
    (c = (a, v) ∧ v ≠ 0#8) ∨ c ∈ m := by
  induction m with
  | nil =>
    by_cases hv : v = 0#8
    · simp [Memory.write, hv] at h
    · simp only [Memory.write, if_neg hv, List.mem_singleton] at h
      exact .inl ⟨h, hv⟩
  | cons d m ih =>
    obtain ⟨k, u⟩ := d
    simp only [Memory.write] at h
    split at h
    · split at h
      · exact .inr h
      · rcases List.mem_cons.1 h with h | h
        · exact .inl ⟨h, ‹_›⟩
        · exact .inr h
    · split at h
      · split at h
        · exact .inr (List.mem_cons_of_mem _ h)
        · rcases List.mem_cons.1 h with h | h
          · exact .inl ⟨h, ‹_›⟩
          · exact .inr (List.mem_cons_of_mem _ h)
      · rcases List.mem_cons.1 h with h | h
        · exact .inr (by simp [h])
        · exact (ih h).imp id (List.mem_cons_of_mem _)

/-- A write keeps the indexes rising. -/
theorem write_pairwise {m : Memory} (h : m.Pairwise (fun a b => a.1 < b.1)) (a : Nat) (v : Byte) :
    (Memory.write m a v).Pairwise (fun a b => a.1 < b.1) := by
  induction m with
  | nil => by_cases hv : v = 0#8 <;> simp [Memory.write, hv]
  | cons c m ih =>
    obtain ⟨k, u⟩ := c
    have hm := List.pairwise_cons.1 h
    by_cases h1 : a < k
    · by_cases hv : v = 0#8
      · simpa [Memory.write, h1, hv] using hm
      · simp only [Memory.write, if_pos h1, if_neg hv]
        refine List.pairwise_cons.2 ⟨fun c hc => ?_, h⟩
        rcases List.mem_cons.1 hc with rfl | hc
        · exact h1
        · exact Nat.lt_trans h1 (hm.1 c hc)
    · by_cases h2 : a = k
      · subst h2
        by_cases hv : v = 0#8
        · simpa [Memory.write, hv] using hm.2
        · simp only [Memory.write, if_neg h1, if_neg hv]
          exact List.pairwise_cons.2 ⟨hm.1, hm.2⟩
      · simp only [Memory.write, if_neg h1, if_neg h2]
        refine List.pairwise_cons.2 ⟨fun c hc => ?_, ih hm.2⟩
        rcases mem_write hc with ⟨rfl, -⟩ | hc
        · show k < a
          omega
        · exact hm.1 c hc

/-- Every memory operation keeps the canonical form. -/
theorem write_wf {m : Memory} (h : Memory.wf m) (a : Nat) (v : Byte) : Memory.wf (Memory.write m a v) :=
  ⟨write_pairwise h.1 a v, fun c hc => by
    rcases mem_write hc with ⟨rfl, hv⟩ | hc
    · exact hv
    · exact h.2 c hc⟩

/-- The empty framebuffer, every byte 0, is in the canonical form. -/
theorem nil_wf : Memory.wf [] := ⟨.nil, by simp⟩

/-- A listed entry is what its index reads as. -/
theorem read_of_mem {m : Memory} (h : m.Pairwise (fun a b => a.1 < b.1)) {c : Host.Cell} (hc : c ∈ m) :
    Memory.read m c.1 = c.2 := by
  induction m with
  | nil => simp at hc
  | cons d m ih =>
    have hm := List.pairwise_cons.1 h
    rcases List.mem_cons.1 hc with rfl | hc
    · simp [Memory.read]
    · have := hm.1 c hc
      simp only [Memory.read]
      rw [if_neg (by omega)]
      exact ih hm.2 hc

/-- An index that reads other than 0 is listed. -/
theorem mem_of_read_ne {m : Memory} {a : Nat} (h : Memory.read m a ≠ 0#8) : (a, Memory.read m a) ∈ m := by
  induction m with
  | nil => exact absurd rfl h
  | cons d m ih =>
    obtain ⟨k, u⟩ := d
    by_cases hk : k = a
    · subst hk
      simp [Memory.read]
    · simp only [Memory.read, if_neg hk] at h ⊢
      exact List.mem_cons_of_mem _ (ih h)

/-- Two memories in the canonical form that read the same everywhere are equal. -/
theorem eq_of_read_eq {m n : Memory} (hm : Memory.wf m) (hn : Memory.wf n)
    (h : ∀ a, Memory.read m a = Memory.read n a) : m = n := by
  induction m generalizing n with
  | nil =>
    cases n with
    | nil => rfl
    | cons c n =>
      have := h c.1
      simp only [Memory.read, if_true] at this
      exact absurd this.symm (hn.2 c (by simp))
  | cons c m ih =>
    obtain ⟨k, u⟩ := c
    have hm1 := List.pairwise_cons.1 hm.1
    have hu := hm.2 (k, u) (by simp)
    cases n with
    | nil =>
      have := h k
      simp only [Memory.read, if_true] at this
      exact absurd this hu
    | cons d n =>
      obtain ⟨l, w⟩ := d
      have hn1 := List.pairwise_cons.1 hn.1
      have hw := hn.2 (l, w) (by simp)
      have hkl : k = l := by
        rcases Nat.lt_trichotomy k l with hlt | heq | hgt
        · have := h k
          simp only [Memory.read, if_true] at this
          rw [if_neg (by omega), read_eq_zero (fun c hc => Nat.lt_trans hlt (hn1.1 c hc))] at this
          exact absurd this hu
        · exact heq
        · have := h l
          simp only [Memory.read, if_true] at this
          rw [if_neg (by omega), read_eq_zero (fun c hc => Nat.lt_trans hgt (hm1.1 c hc))] at this
          exact absurd this.symm hw
      subst hkl
      have huw : u = w := by simpa [Memory.read] using h k
      subst huw
      have : m = n := by
        refine ih ⟨hm1.2, fun c hc => hm.2 c (by simp [hc])⟩ ⟨hn1.2, fun c hc => hn.2 c (by simp [hc])⟩ (fun a => ?_)
        by_cases ha : k = a
        · subst ha
          rw [read_eq_zero hm1.1, read_eq_zero hn1.1]
        · simpa [Memory.read, ha] using h a
      rw [this]

end Sys2Proof.Machine
end

