-- ==== Sys2Proof/Laws/PerInstr.lean ====
section
/-! SUPPORT. One statement about each command as syntax: the word of a well-formed command has its row's opcode and no
reserved bit (30_encoding.md R113, R115, R116). -/

namespace Sys2Proof.Laws.EncodesItsRow

/-- The word of a well-formed command has its row's opcode, and every reserved bit clear. -/
def Statement (i : Instr) : Prop :=
  i.wf = true → opcodeOf (encode i) = i.op.code ∧ reservedClear i.op (encode i) = true

/-- A packed word whose one reserved field is 0. -/
theorem of_pack {o : Op} {low lo len : Nat} (h : low < 2 ^ 56) (ho : o.reserved = [(lo, len)]) (hl : lo + len ≤ 56)
    (hz : low / 2 ^ lo % 2 ^ len = 0) :
    opcodeOf (pack o low) = o.code ∧ reservedClear o (pack o low) = true := by
  refine ⟨opcodeOf_pack o low h, ?_⟩
  simp only [reservedClear, ho, List.all_cons, List.all_nil, Bool.and_true, beq_iff_eq]
  rw [fieldOf_pack o low lo len h hl]
  exact hz

theorem scfg (dpin spin lpin freq chain : Nat) : Statement (.scfg dpin spin lpin freq chain) := by
  intro h
  simp only [Instr.wf, Bool.and_eq_true, decide_eq_true_eq] at h
  exact ⟨opcodeOf_pack .scfg _ (by omega), rfl⟩

theorem sstart : Statement .sstart := fun _ => of_pack (by omega) rfl (by omega) (by omega)

theorem sstop : Statement .sstop := fun _ => of_pack (by omega) rfl (by omega) (by omega)

theorem senq (word : Word) : Statement (.senq word) := by
  have := word.isLt
  exact fun _ => of_pack (by omega) rfl (by omega) (by omega)

theorem ecfg (rows cols dpin spin : Nat) (layout : BitVec 6) : Statement (.ecfg rows cols dpin spin layout) := by
  intro h
  have := layout.isLt
  simp only [Instr.wf, Bool.and_eq_true, decide_eq_true_eq] at h
  exact of_pack (by omega) rfl (by omega) (by omega)

theorem edraw : Statement .edraw := fun _ => of_pack (by omega) rfl (by omega) (by omega)

theorem fpix (x y : Nat) (c : Bool) : Statement (.fpix x y c) := by
  intro h
  have := Bool.toNat_lt c
  simp only [Instr.wf, Bool.and_eq_true, decide_eq_true_eq] at h
  exact of_pack (by omega) rfl (by omega) (by omega)

theorem fpget (x y : Nat) : Statement (.fpget x y) := by
  intro h
  simp only [Instr.wf, Bool.and_eq_true, decide_eq_true_eq] at h
  exact of_pack (by omega) rfl (by omega) (by omega)

theorem ffill (c : Bool) : Statement (.ffill c) := by
  have := Bool.toNat_lt c
  exact fun _ => of_pack (by omega) rfl (by omega) (by omega)

theorem frect (x y w h : Nat) (c : Bool) : Statement (.frect x y w h c) := by
  intro hw
  have := Bool.toNat_lt c
  simp only [Instr.wf, Bool.and_eq_true, decide_eq_true_eq] at hw
  exact of_pack (by omega) rfl (by omega) (by omega)

theorem dcfg (idx : Nat) (en : Bool) (interval : Word) : Statement (.dcfg idx en interval) := by
  intro h
  have := Bool.toNat_lt en
  have := interval.isLt
  simp only [Instr.wf, decide_eq_true_eq] at h
  exact of_pack (by omega) rfl (by omega) (by omega)

theorem rdreg (reg : Nat) : Statement (.rdreg reg) := by
  intro h
  simp only [Instr.wf, decide_eq_true_eq] at h
  exact of_pack (by omega) rfl (by omega) (by omega)

theorem clrerr : Statement .clrerr := fun _ => of_pack (by omega) rfl (by omega) (by omega)

end Sys2Proof.Laws.EncodesItsRow
end

