-- ==== Sys2Proof/Laws/Pixels.lean ====
section
/-! SUPPORT. What setting one pixel, a row of pixels or an area does to every pixel and every byte (20_memory.md R82). -/

namespace Sys2Proof.Machine

/-- Bit k of a byte after `b[j] <- c`. -/
theorem getLsbD_setBit (b : Byte) (j k : Nat) (c : Bool) (hk : k < 8) :
    (setBit b j c).getLsbD k = if k = j then c else b.getLsbD k := by
  unfold setBit
  rcases Nat.lt_trichotomy k j with h | h | h
  · cases c <;> simp [hk, h, Nat.ne_of_lt h]
  · subst h
    cases c <;> simp [hk]
  · cases c <;> simp [hk, Nat.not_lt.2 (Nat.le_of_lt h), Nat.ne_of_gt h, Nat.sub_ne_zero_of_lt h]

/-- Byte (y, k) and byte (y', k') of the rows in use share an index only when they are the same. -/
theorem fbIndex_inj {e : Enc} {y y' k k' : Nat} (hk : k < e.colBytes.toNat) (hk' : k' < e.colBytes.toNat)
    (h : fbIndex e y k = fbIndex e y' k') : y = y' ∧ k = k' := by
  unfold fbIndex at h
  have h1 : (y * e.colBytes.toNat + k) / e.colBytes.toNat = y := by
    rw [Nat.mul_comm, Nat.mul_add_div (by omega), Nat.div_eq_of_lt hk, Nat.add_zero]
  have h2 : (y' * e.colBytes.toNat + k') / e.colBytes.toNat = y' := by
    rw [Nat.mul_comm, Nat.mul_add_div (by omega), Nat.div_eq_of_lt hk', Nat.add_zero]
  have hy : y = y' := by rw [← h1, ← h2, h]
  subst hy
  exact ⟨rfl, by omega⟩

/-- A byte after a pixel is set: the pixel's own byte has one bit replaced, every other index reads as before. -/
theorem read_setpix {e : Enc} (h : Memory.wf e.fb) (x y a : Nat) (c : Bool) :
    Memory.read (setpix e x y c).fb a =
      if a = fbIndex e y (x / 8) then setBit (Memory.read e.fb a) (7 - x % 8) c else Memory.read e.fb a := by
  by_cases ha : a = fbIndex e y (x / 8)
  · subst ha
    simp only [if_true]
    exact read_write_same h.1 _ _
  · rw [if_neg ha]
    exact read_write_other ha _ _

/-- A pixel after a pixel is set. -/
theorem pix_setpix {e : Enc} (h : Memory.wf e.fb) {x y x' y' : Nat} (hx : x < 8 * e.colBytes.toNat)
    (hx' : x' < 8 * e.colBytes.toNat) (c : Bool) :
    pix (setpix e x y c) x' y' = if x' = x ∧ y' = y then c else pix e x' y' := by
  show (Memory.read (setpix e x y c).fb (fbIndex e y' (x' / 8))).getLsbD (7 - x' % 8) = _
  rw [read_setpix h]
  by_cases hi : fbIndex e y' (x' / 8) = fbIndex e y (x / 8)
  · obtain ⟨rfl, hk⟩ := fbIndex_inj (by omega) (by omega) hi
    rw [if_pos hi, getLsbD_setBit _ _ _ _ (by omega)]
    by_cases hxx : x' = x
    · simp [hxx]
    · rw [if_neg (by omega), if_neg (by tauto)]
      rfl
  · rw [if_neg hi, if_neg]
    · rfl
    · rintro ⟨rfl, rfl⟩
      exact hi rfl

/-- Setting a pixel changes the framebuffer only. -/
theorem setpix_eq (e : Enc) (x y : Nat) (c : Bool) : setpix e x y c = { e with fb := (setpix e x y c).fb } := rfl

/-- Setting a row of pixels changes the framebuffer only. -/
theorem setRow_eq (xs : List Nat) (y : Nat) (c : Bool) : ∀ e : Enc, ∃ fb, setRow e xs y c = { e with fb := fb } := by
  induction xs with
  | nil => exact fun e => ⟨e.fb, rfl⟩
  | cons x xs ih =>
    intro e
    obtain ⟨fb, h⟩ := ih (setpix e x y c)
    exact ⟨fb, h⟩

/-- Setting an area of pixels changes the framebuffer only. -/
theorem setArea_eq (xs ys : List Nat) (c : Bool) : ∀ e : Enc, ∃ fb, setArea e xs ys c = { e with fb := fb } := by
  induction ys with
  | nil => exact fun e => ⟨e.fb, rfl⟩
  | cons y ys ih =>
    intro e
    obtain ⟨fb, h⟩ := ih (setRow e xs y c)
    obtain ⟨fb', h'⟩ := setRow_eq xs y c e
    exact ⟨fb, h.trans (by rw [h'])⟩

/-- Setting a pixel keeps the canonical form. -/
theorem setpix_wf {e : Enc} (h : Memory.wf e.fb) (x y : Nat) (c : Bool) : Memory.wf (setpix e x y c).fb :=
  write_wf h _ _

/-- What a sequence of pixel writes does, in one place: it changes the framebuffer only, keeps its form, gives exactly
the listed pixels the colour, and leaves every byte alone that holds none of them. -/
structure Painted (e e' : Enc) (P : Nat → Nat → Prop) (c : Bool) : Prop where
  eq : e' = { e with fb := e'.fb }
  wf : Memory.wf e'.fb
  inside : ∀ x y, x < 8 * e.colBytes.toNat → P x y → pix e' x y = c
  outside : ∀ x y, x < 8 * e.colBytes.toNat → ¬P x y → pix e' x y = pix e x y
  bytes : ∀ a, (∀ x y, P x y → a ≠ fbIndex e y (x / 8)) → Memory.read e'.fb a = Memory.read e.fb a

theorem Painted.refl {e : Enc} (h : Memory.wf e.fb) (c : Bool) : Painted e e (fun _ _ => False) c :=
  ⟨rfl, h, fun _ _ _ hf => hf.elim, fun _ _ _ _ => rfl, fun _ _ => rfl⟩

theorem Painted.colBytes {e e' : Enc} {P c} (h : Painted e e' P c) : e'.colBytes = e.colBytes := by rw [h.eq]

/-- One pixel more. -/
theorem Painted.setpix {e e' : Enc} {P c} (h : Painted e e' P c) {x y : Nat} (hx : x < 8 * e.colBytes.toNat) :
    Painted e (Machine.setpix e' x y c) (fun x' y' => P x' y' ∨ (x' = x ∧ y' = y)) c := by
  have hcb := h.colBytes
  have hfi : fbIndex e' = fbIndex e := by funext a b; simp [fbIndex, hcb]
  refine ⟨?_, setpix_wf h.wf x y c, ?_, ?_, ?_⟩
  · rw [setpix_eq, h.eq]
  · intro x' y' hx' hp
    rw [pix_setpix h.wf (by rw [hcb]; exact hx) (by rw [hcb]; exact hx')]
    by_cases hq : x' = x ∧ y' = y
    · rw [if_pos hq]
    · rw [if_neg hq]
      exact h.inside x' y' hx' (hp.resolve_right hq)
  · intro x' y' hx' hp
    rw [not_or] at hp
    rw [pix_setpix h.wf (by rw [hcb]; exact hx) (by rw [hcb]; exact hx'), if_neg hp.2]
    exact h.outside x' y' hx' hp.1
  · intro a ha
    rw [read_setpix h.wf, hfi, if_neg (ha x y (.inr ⟨rfl, rfl⟩))]
    exact h.bytes a (fun x' y' hp => ha x' y' (.inl hp))

/-- The painted set may be described in another way. -/
theorem Painted.congr {e e' : Enc} {P Q c} (h : Painted e e' P c) (hq : ∀ x y, P x y ↔ Q x y) : Painted e e' Q c := by
  have : P = Q := by funext x y; exact propext (hq x y)
  exact this ▸ h

/-- A row of pixels more. -/
theorem Painted.setRow {e : Enc} {c : Bool} {y : Nat} (xs : List Nat) (hx : ∀ x ∈ xs, x < 8 * e.colBytes.toNat) :
    ∀ {e' : Enc} {P}, Painted e e' P c →
      Painted e (Machine.setRow e' xs y c) (fun x' y' => P x' y' ∨ (x' ∈ xs ∧ y' = y)) c := by
  induction xs with
  | nil => intro e' P h; exact h.congr (by simp)
  | cons x xs ih =>
    intro e' P h
    refine (ih (fun x' hx' => hx x' (by simp [hx'])) (h.setpix (hx x (by simp)) (y := y))).congr (fun x' y' => ?_)
    simp only [List.mem_cons]
    tauto

/-- An area of pixels. -/
theorem Painted.setArea {e : Enc} {c : Bool} (xs : List Nat) (hx : ∀ x ∈ xs, x < 8 * e.colBytes.toNat) (ys : List Nat) :
    ∀ {e' : Enc} {P}, Painted e e' P c →
      Painted e (Machine.setArea e' xs ys c) (fun x' y' => P x' y' ∨ (x' ∈ xs ∧ y' ∈ ys)) c := by
  induction ys with
  | nil => intro e' P h; exact h.congr (by simp)
  | cons y ys ih =>
    intro e' P h
    refine (ih (h.setRow xs hx (y := y))).congr (fun x' y' => ?_)
    simp only [List.mem_cons]
    tauto

/-- What FFILL and FRECT do to the framebuffer (R254, R255): exactly the pixels of the area take the colour. -/
theorem setArea_painted {e : Enc} (h : Memory.wf e.fb) (xs ys : List Nat) (hx : ∀ x ∈ xs, x < 8 * e.colBytes.toNat)
    (c : Bool) : Painted e (setArea e xs ys c) (fun x y => x ∈ xs ∧ y ∈ ys) c :=
  (Painted.setArea xs hx ys (Painted.refl h c)).congr (by simp)

/-- What FPIX does to the framebuffer (R252). -/
theorem setpix_painted {e : Enc} (h : Memory.wf e.fb) {x : Nat} (hx : x < 8 * e.colBytes.toNat) (y : Nat) (c : Bool) :
    Painted e (setpix e x y c) (fun x' y' => x' = x ∧ y' = y) c :=
  ((Painted.refl h c).setpix hx).congr (by simp)

/-- The coordinates a clipped span covers (R255). -/
theorem mem_span {n lo len bound : Nat} : n ∈ span lo len bound ↔ lo ≤ n ∧ n < lo + len ∧ n < bound := by
  simp only [span, List.mem_range'_1]
  omega

end Sys2Proof.Machine
end

