-- ==== Sys2Proof/Laws/Serializer.lean ====
section
/-! SUPPORT. What a tick can do (40_serializer.md R160), said once, and the bits it sends. -/

namespace Sys2Proof.Machine

/-- What one tick can do, guards included. -/
theorem tick_cases {x y : Ser} (h : tick x = some y) :
    x.configured = true ∧ x.enabled = true ∧
    ((∃ w ws, x.phase = .shiftLow ∧ x.osrCount = 0 ∧ x.fifo = w :: ws ∧
        y = shiftOut { x with fifo := ws, osr := w, osrCount := 32 }) ∨
     (x.phase = .shiftLow ∧ 0 < x.osrCount ∧ y = shiftOut x) ∨
     (x.phase = .shiftHigh ∧ y = tickShiftHigh x) ∨
     (x.phase = .latchHigh ∧ y = tickLatchHigh x) ∨
     (x.phase = .latchLow ∧ y = tickLatchLow x)) := by
  unfold tick at h
  split at h
  · rename_i hce
    rw [Bool.and_eq_true] at hce
    refine ⟨hce.1, hce.2, ?_⟩
    split at h
    · rename_i hp
      unfold tickShiftLow at h
      split at h
      · rename_i h0
        split at h
        · cases h
        · rename_i w ws hf
          exact .inl ⟨w, ws, hp, h0, hf, (Option.some.inj h).symm⟩
      · rename_i h0
        exact .inr (.inl ⟨hp, Nat.pos_of_ne_zero h0, (Option.some.inj h).symm⟩)
    · rename_i hp
      exact .inr (.inr (.inl ⟨hp, (Option.some.inj h).symm⟩))
    · rename_i hp
      exact .inr (.inr (.inr (.inl ⟨hp, (Option.some.inj h).symm⟩)))
    · rename_i hp
      exact .inr (.inr (.inr (.inr ⟨hp, (Option.some.inj h).symm⟩)))
  · cases h

/-- When the serializer has no step: not configured, not enabled, or stalled at a word boundary (R160, R161). -/
theorem tick_none {x : Ser} (h : tick x = none) :
    x.configured = false ∨ x.enabled = false ∨ (x.phase = .shiftLow ∧ x.osrCount = 0 ∧ x.fifo = []) := by
  unfold tick at h
  split at h
  · split at h
    · rename_i hp
      unfold tickShiftLow at h
      split at h
      · rename_i h0
        split at h
        · rename_i hf
          exact .inr (.inr ⟨hp, h0, hf⟩)
        · cases h
      · cases h
    all_goals cases h
  · rename_i hce
    rcases hc : x.configured with _ | _
    · exact .inl rfl
    · rcases he : x.enabled with _ | _
      · exact .inr (.inl rfl)
      · simp [hc, he] at hce

/-- A first step and then the rest. -/
theorem run_succ {s t : State} (n : Nat) (h : step s = .next t) : run (n + 1) s = run n t := by
  simp only [run, h]

/-- A tick keeps the configuration (R160 writes none of it). -/
theorem tick_config {x y : Ser} (h : tick x = some y) :
    y.configured = x.configured ∧ y.enabled = x.enabled ∧ y.dataPin = x.dataPin ∧ y.shiftPin = x.shiftPin ∧
    y.latchPin = x.latchPin ∧ y.freq = x.freq ∧ y.chain = x.chain := by
  obtain ⟨-, -, ⟨w, ws, -, -, -, rfl⟩ | ⟨-, -, rfl⟩ | ⟨-, rfl⟩ | ⟨-, rfl⟩ | ⟨-, rfl⟩⟩ := tick_cases h <;>
    exact ⟨rfl, rfl, rfl, rfl, rfl, rfl, rfl⟩

/-- The serializer's turn is a tick or nothing. -/
theorem serializerStep_cases (s : State) :
    (∃ y, tick s.ser = some y ∧ serializerStep s = { s with ser := y }) ∨
    (tick s.ser = none ∧ serializerStep s = s) := by
  unfold serializerStep
  rcases h : tick s.ser with _ | y
  · exact .inr ⟨rfl, rfl⟩
  · exact .inl ⟨y, rfl, rfl⟩

/-! ### The bits of a word -/

@[simp] theorem length_wordBits (w : Word) : (wordBits w).length = 32 := by simp [wordBits]

theorem getElem?_wordBits (w : Word) (k : Nat) :
    (wordBits w)[k]? = if k < 32 then some (w.getLsbD (31 - k)) else none := by
  by_cases h : k < 32
  · simp [wordBits, h]
  · simp [wordBits, h]

/-- Sending the top bit and shifting left leaves the rest of the bits in order (R160). -/
theorem take_wordBits_succ (w : Word) {n : Nat} (hn : n < 32) :
    (wordBits w).take (n + 1) = w.getLsbD 31 :: (wordBits (w <<< 1)).take n := by
  apply List.ext_getElem?
  intro k
  cases k with
  | zero => rw [List.getElem?_take, if_pos (by omega), getElem?_wordBits, if_pos (by omega), List.getElem?_cons_zero]
  | succ k =>
    rw [List.getElem?_cons_succ, List.getElem?_take, List.getElem?_take, getElem?_wordBits, getElem?_wordBits]
    by_cases hk : k < n
    · rw [if_pos (by omega), if_pos hk, if_pos (by omega), if_pos (by omega), BitVec.getLsbD_shiftLeft]
      have h1 : 31 - k < 32 := by omega
      have h2 : ¬(31 - k < 1) := by omega
      have h3 : 31 - (k + 1) = 31 - k - 1 := by omega
      simp [h1, h2, h3]
    · rw [if_neg (by omega), if_neg hk]

/-- All 32 bits of a word. -/
theorem wordBits_eq_take (w : Word) : (wordBits w).take 32 = wordBits w := List.take_of_length_le (by simp)

end Sys2Proof.Machine
end

