-- ==== Sys2Proof/Tests/Slice0.lean ====
section
/-! SUPPORT. Tests with expected values from spec/95_test_vectors.md (named in each comment) and from the rules, and for
every statement with hypotheses a witness that meets them all. -/

namespace Sys2Proof.Tests

open Sys2Proof.Machine Sys2Proof.Claims
open Sys2Proof.Config (Params Agent)

/-! ### Helpers -/

/-- The state a command leaves. -/
def after (i : Instr) (s : State) : State :=
  match exec i s with
  | .next t => t
  | .fault _ => s
  | .refused _ => s

/-- The state a turn leaves. -/
def turn (t : Turn) (s : State) : State :=
  match runTurn t s with
  | .next u => u
  | .fault _ => s
  | .refused _ => s

/-- One serializer turn. -/
def ticked (s : State) : State := turn (.agent .serializer) s

/-- The last response given. -/
def answer (s : State) : Option Response := s.responses.getLast?

/-- Reset with w on the port and the host's turn next. -/
def presented (w : Command) : State := presentCommand w .reset

/-- The display of 8 rows and 24 columns of 95_test_vectors.md, just constructed. -/
def display : State := after (.ecfg 8 24 2 3 0x15) .reset

/-- A serializer of chain 32 as `SCFG 2, 3, 4, 30000, 32` leaves it. -/
def serial : State := after (.scfg 2 3 4 30000 32) .reset

/-! ### Well-formedness: one ill-formed command for each check -/

theorem test_wf_refuses_dpin : (Instr.scfg 256 3 4 1 8).wf = false := by decide
theorem test_wf_refuses_spin : (Instr.scfg 2 256 4 1 8).wf = false := by decide
theorem test_wf_refuses_lpin : (Instr.scfg 2 3 256 1 8).wf = false := by decide
theorem test_wf_refuses_freq : (Instr.scfg 2 3 4 262144 8).wf = false := by decide
theorem test_wf_refuses_chain : (Instr.scfg 2 3 4 1 16384).wf = false := by decide
theorem test_wf_refuses_rows : (Instr.ecfg 256 24 2 3 0x15).wf = false := by decide
theorem test_wf_refuses_cols : (Instr.ecfg 8 65536 2 3 0x15).wf = false := by decide
theorem test_wf_refuses_ecfg_dpin : (Instr.ecfg 8 24 256 3 0x15).wf = false := by decide
theorem test_wf_refuses_ecfg_spin : (Instr.ecfg 8 24 2 256 0x15).wf = false := by decide
theorem test_wf_refuses_fpix_x : (Instr.fpix 65536 0 true).wf = false := by decide
theorem test_wf_refuses_fpix_y : (Instr.fpix 0 256 true).wf = false := by decide
theorem test_wf_refuses_fpget_x : (Instr.fpget 65536 0).wf = false := by decide
theorem test_wf_refuses_fpget_y : (Instr.fpget 0 256).wf = false := by decide
theorem test_wf_refuses_frect_x : (Instr.frect 65536 0 1 1 true).wf = false := by decide
theorem test_wf_refuses_frect_y : (Instr.frect 0 256 1 1 true).wf = false := by decide
theorem test_wf_refuses_frect_w : (Instr.frect 0 0 65536 1 true).wf = false := by decide
theorem test_wf_refuses_frect_h : (Instr.frect 0 0 1 256 true).wf = false := by decide
theorem test_wf_refuses_dcfg_idx : (Instr.dcfg 256 true 0).wf = false := by decide
theorem test_wf_refuses_rdreg_reg : (Instr.rdreg 256).wf = false := by decide

/-! ### Decoding: the words of "Encodings" and of L2 -/

theorem test_decode_scfg : decode 0x010203041D4C0020 = .ok (.scfg 2 3 4 30000 32) := by decide
theorem test_decode_sstart : decode 0x0200000000000000 = .ok .sstart := by decide
theorem test_decode_sstop : decode 0x0300000000000000 = .ok .sstop := by decide
theorem test_decode_senq : decode 0x0400000012345678 = .ok (.senq 0x12345678) := by decide
theorem test_decode_ecfg : decode 0x1010001802030015 = .ok (.ecfg 16 24 2 3 0x15) := by decide
theorem test_decode_edraw : decode 0x1100000000000000 = .ok .edraw := by decide
theorem test_decode_fpix : decode 0x2000170700000000 = .ok (.fpix 23 7 false) := by decide
theorem test_decode_fpget : decode 0x2100050300000000 = .ok (.fpget 5 3) := by decide
theorem test_decode_ffill : decode 0x2200000000000001 = .ok (.ffill true) := by decide
theorem test_decode_frect : decode 0x2300170000011001 = .ok (.frect 23 0 1 16 true) := by decide
theorem test_decode_dcfg : decode 0x300000000000012C = .ok (.dcfg 0 false 300) := by decide
theorem test_decode_rdreg : decode 0x4000000000000047 = .ok (.rdreg 0x47) := by decide
theorem test_decode_clrerr : decode 0x4100000000000000 = .ok .clrerr := by decide

/-- ST-3: opcodes 0x00, 0x05 and 0xFF are illegal, whatever else the word holds. -/
theorem test_decode_illegal : decode 0 = .illegalOpcode ∧ decode 0x0500000000000000 = .illegalOpcode ∧
    decode 0xFF00000000000000 = .illegalOpcode := by decide

/-- FB-5 to FB-8, ST-3 and the DCFG errors: reserved bits. -/
theorem test_decode_reserved : decode 0x2000000000000002 = .reservedBits ∧ decode 0x2100000000000001 = .reservedBits ∧
    decode 0x2200000000000002 = .reservedBits ∧ decode 0x2300000000000080 = .reservedBits ∧
    decode 0x300080010000012C = .reservedBits ∧ decode 0x4100000000000001 = .reservedBits ∧
    decode 0x4000000000000100 = .reservedBits ∧ decode 0x1008001802030055 = .reservedBits := by decide

/-- Encodings: the largest FREQ and the largest legal CHAIN. -/
theorem test_encode_scfg : encode (.scfg 2 3 4 262143 16376) = 0x01020304FFFFFFF8 := by decide

theorem test_table_word : decodeTableWord 64 0x3001800000000032 = some (.dcfg 1 true 50) ∧
    decodeTableWord 64 0x4200000000000000 = none := by decide

/-! ### The assembler: lines of "Encodings" -/

theorem test_asm_default_layout : assemble "ECFG 8, 24, 2, 3 ; comment".toList = some [0x1008001802030015] := by decide
theorem test_asm_symbolic_layout :
    assemble "ECFG 8, 24, 2, 3, ROW.LOW.A2H:COL.HIGH.H2A".toList = some [0x1008001802030015] := by decide
theorem test_asm_two_rows_refused : assemble "ECFG 8, 24, 2, 3, ROW.LOW.A2H:ROW.HIGH.H2A".toList = none := by decide
theorem test_asm_dcfg_defaults : assemble "DCFG 0".toList = some [0x300080000000012C] := by decide
theorem test_asm_hex : assemble "SENQ 0xFE000001".toList = some [0x04000000FE000001] := by decide
theorem test_asm_too_wide : assemble "FPIX 65536, 0, 1".toList = none := by decide
theorem test_asm_frecto : assemble "FRECTO 0, 0, 24, 8, 1".toList =
    some [0x2300000000180101, 0x2300000700180101, 0x2300000000010801, 0x2300170000010801] := by decide
theorem test_asm_lines : assemble "FHLINE 0, 7, 24, 1".toList = some [0x2300000700180101] ∧
    assemble "FVLINE 23, 0, 8, 1".toList = some [0x2300170000010801] ∧
    assemble "FCLR".toList = some [0x2200000000000000] := by decide

/-! ### Commands -/

/-- R152 example: SER_CHAIN = 32, SER_FREQ = 30000, and R371's IDLE. -/
theorem test_scfg : register serial 0x03 = some 32 ∧ register serial 0x02 = some 30000 ∧
    register serial 0x01 = some 0x00040302 ∧ register serial 0x00 = some 0x00000005 := by decide

/-- R152 corner case: SPIN = NUM_PINS−1 fails with CFG_PIN_RANGE. -/
theorem test_scfg_pin_range : answer (after (.scfg 2 29 30 30000 32) .reset) = some ⟨0x16, 0⟩ := by decide

/-- R155: SSTART on an unconfigured serializer, and on a configured one. -/
theorem test_sstart : answer (after .sstart .reset) = some ⟨0x20, 0⟩ ∧
    (after .sstart serial).ser.enabled = true := by decide

/-- R156 example: SSTOP after the first 2 ticks of a frame leaves BITCOUNT 1, SHIFT_LOW and SHIFT = 1. -/
theorem test_sstop : let s := after .sstop (ticked (ticked (after (.senq 0xFE000001) (after .sstart serial))))
    register s 0x04 = some 1 ∧ s.ser.phase = .shiftLow ∧ s.ser.shift = true ∧ s.ser.enabled = false := by decide

/-- P2, step 4: one word queued and the serializer enabled reads 0x00000103. -/
theorem test_senq : register (after .sstart (after (.senq 0x12345678) (after (.scfg 2 3 4 30000 16) .reset))) 0x00 =
    some 0x00000103 := by decide

/-- R157: the fifth word finds the queue of 4 full: no response, nothing changed. -/
theorem test_senq_holds :
    let s := after (.senq 4) (after (.senq 3) (after (.senq 2) (after (.senq 1) serial)))
    after (.senq 5) s = s ∧ s.ser.fifo = [1, 2, 3, 4] := by decide

/-- R160: the first tick puts bit 31 on DATA; P2's word starts with 0, S-1's with 1. -/
theorem test_tick : (ticked (after .sstart (after (.senq 0xFE000001) serial))).ser.data = true ∧
    (ticked (after .sstart (after (.senq 0x12345678) serial))).ser.data = false := by decide

/-- R201 example and L1-5. -/
theorem test_ecfg : register display 0x13 = some 1 ∧ register display 0x14 = some 3 ∧ register display 0x15 = some 4 ∧
    register display 0x03 = some 32 ∧ register display 0x00 = some 0x00000007 := by decide

/-- P5: ROWS = 33 fails with 0x10 and records opcode 0x10; WARN_ROWS for 12 rows reads 0x00000005. -/
theorem test_ecfg_rows : register (after (.ecfg 33 24 2 3 0x15) .reset) 0x30 = some 0x00011010 ∧
    register (after (.ecfg 12 16 2 3 0x15) .reset) 0x10 = some 0x00000005 := by decide

/-- P1: the first words of the draw; EN-8: a row of two words. -/
theorem test_slice_words : let s := after (.fpix 0 0 true) display
    sliceWord s.enc 0 0 = 0xFE000001 ∧ sliceWord s.enc 7 0 = 0x7F000000 := by decide

/-- EN-9: the three column-first layouts. -/
theorem test_layouts :
    sliceWord (after (.fpix 0 0 true) (after (.ecfg 8 24 2 3 0x22) .reset)).enc 0 0 = 0x800000FE ∧
    sliceWord (after (.fpix 0 0 true) (after (.ecfg 8 24 2 3 0x2A) .reset)).enc 0 0 = 0x000001FE ∧
    sliceWord (after (.fpix 0 0 true) (after (.ecfg 8 24 2 3 0x28) .reset)).enc 0 0 = 0x00000101 := by decide

/-- R219: EDRAW holds the host; EN-7: without a display it fails. -/
theorem test_edraw : (after .edraw display).wait = .draw ∧ (after .edraw display).responses = display.responses ∧
    answer (after .edraw .reset) = some ⟨0x20, 0⟩ := by decide

/-- P1: the draw engine's first step pushes 0xFE000001. -/
theorem test_draw_step : (turn (.agent .drawEngine) (after .edraw (after (.fpix 0 0 true) display))).ser.fifo =
    [0xFE000001] := by decide

/-- FB-1: byte (3, 0) = 0x04. FB-3: a clipped pixel changes nothing. -/
theorem test_fpix : fbRead (after (.fpix 5 3 true) display).enc 3 0 = 0x04 ∧
    (after (.fpix 24 0 true) display).enc = display.enc ∧ (after (.fpix 0 8 true) display).enc = display.enc := by decide

/-- FB-1 and FB-4. -/
theorem test_fpget : answer (after (.fpget 5 3) (after (.fpix 5 3 true) display)) = some ⟨0, 1⟩ ∧
    answer (after (.fpget 100 0) display) = some ⟨0, 0⟩ := by decide

/-- FB-17, with two rows: 20 columns give FF FF F0, the pad bits stay 0. -/
theorem test_ffill : (after (.ffill true) (after (.ecfg 2 20 2 3 0x15) .reset)).enc.fb =
    [(0, 0xFF), (1, 0xFF), (2, 0xF0), (3, 0xFF), (4, 0xFF), (5, 0xF0)] := by decide

/-- FB-9. -/
theorem test_frect : (after (.frect 2 1 3 2 true) display).enc.fb = [(3, 0x38), (6, 0x38)] := by decide

/-- FB-10 and FB-12: clipped at column 24 and row 8; wholly outside. -/
theorem test_frect_clipped : (after (.frect 20 6 10 5 true) display).enc.fb = [(20, 0x0F), (23, 0x0F)] ∧
    (after (.frect 65535 0 65535 255 true) display).enc = display.enc := by decide

/-- DB-2, and the DCFG error. -/
theorem test_dcfg : register (after (.dcfg 0 true 300) .reset) 0x41 = some 1 ∧
    answer (after (.dcfg 4 true 300) .reset) = some ⟨0x22, 0⟩ := by decide

/-- DB-5: 272 ms after the trigger, over the wrap, the edge is dropped; 300 ms after it fires. -/
theorem test_edge_wrap : let d : Deb := { en := true, interval := 300, hasFired := true, last := 0xFFFFFF00, lvl := true,
                                          count := 1 }
    accepts d 0x10 = false ∧ accepts d 0x2C = true := by decide

/-- DB-6 and DB-7: a disabled instance follows the line and fires nothing; after DCFG a held line is no edge. -/
theorem test_line_change : let s := after (.dcfg 0 true 300) (turn (.lineChange 0 true) .reset)
    register (turn (.lineChange 0 true) .reset) 0x41 = some 4 ∧ register s 0x41 = some 5 ∧
    (turn (.lineChange 0 true) s).events = [] := by decide

/-- L1-6: the edge at 0 fires. -/
theorem test_first_edge : (turn (.lineChange 0 true) (after (.dcfg 0 true 300) .reset)).events = [.fire 0 0] := by decide

/-- ST-1 and ST-2. -/
theorem test_rdreg : answer (after (.rdreg 0x31) .reset) = some ⟨0, 0x00041E04⟩ ∧
    answer (after (.rdreg 0x50) .reset) = some ⟨0x22, 0⟩ := by decide

/-- P5, steps 4 to 6. -/
theorem test_clrerr : let s := after (.ecfg 8 24 2 3 0x24) .reset
    register s 0x30 = some 0x00011011 ∧ register (after .clrerr s) 0x30 = some 0 := by decide

/-- R170: a rising edge of SHIFT takes DATA into CH bit 0. -/
theorem test_observer : let s := ticked (after .sstart (after (.senq 0xFE000001) serial))
    ((Observer.mk 8 0xFF 0).watch s.ser (ticked s).ser).ch = 0xFF ∧
    ((Observer.mk 8 0x40 0).watch s.ser (ticked s).ser).ch = 0x81 := by decide

/-- R370: a reset abandons the command in progress and keeps the inputs. -/
theorem test_reset : let s := turn .reset (turn (.advanceTime 7) (after .edraw display))
    s.port = none ∧ s.wait = .none ∧ s.msNow = 7 ∧ s.enc.configured = false := by decide

/-- The fetch word runs as the first command after reset. -/
theorem test_fetch_word : step (State.reset.withFetchWord 64 0x4000000000000000) =
    exec (.rdreg 0) { presented 0x4000000000000000 with schedule := [] } := by rfl

/-! ### Witnesses

For each statement of Certificates/Slice0/Obligations.lean with hypotheses, a state and operands that meet them all, for
each clause, at the ends of its ranges. -/

/-! #### Encoding -/

theorem witness_DecodeOfEncodeIsTheCommand :
    (Instr.scfg 255 255 255 262143 16383).wf = true ∧ Instr.sstart.wf = true ∧ Instr.sstop.wf = true ∧
    (Instr.senq 0xFFFFFFFF).wf = true ∧ (Instr.ecfg 255 65535 255 255 0x3F).wf = true ∧ Instr.edraw.wf = true ∧
    (Instr.fpix 65535 255 true).wf = true ∧ (Instr.fpget 65535 255).wf = true ∧ (Instr.ffill true).wf = true ∧
    (Instr.frect 65535 255 65535 255 true).wf = true ∧ (Instr.dcfg 255 true 0xFFFFFFFF).wf = true ∧
    (Instr.rdreg 255).wf = true ∧ Instr.clrerr.wf = true := by decide

theorem witness_EncodeOfDecodeIsTheWord : decode 0x23FFFFFFFFFFFF01 = .ok (.frect 65535 255 65535 255 true) := by decide

/-! #### The host port -/

theorem witness_StepRunsTheDecodedCommand :
    decode 0x0200000000000000 = .ok .sstart ∧
    (let s := presented 0x0200000000000000
     s.schedule = [.agent .host] ∧ s.wait = .none ∧ s.port = some 0x0200000000000000) ∧
    (let s : State := { State.reset with schedule := [.agent .host], pending := [0x0200000000000000] }
     s.schedule = [.agent .host] ∧ s.wait = .none ∧ s.port = none ∧ s.pending = [0x0200000000000000]) := by decide

/-- After reset, with w the next command the host issues and the host's turn next. -/
def issuing (w : Command) : State := { State.reset with schedule := [.agent .host], pending := [w] }

/-- A command on the port, and one about to be issued. -/
theorem presents_presented (w : Command) : Presents (presented w) w { presented w with schedule := [] } ∧
    Presents (issuing w) w { State.reset with port := some w } :=
  ⟨⟨[], rfl, rfl, .inl ⟨rfl, rfl⟩⟩, ⟨[], rfl, rfl, .inr ⟨rfl, [], rfl, rfl⟩⟩⟩

theorem witness_IllegalOpcodeFails : ∀ op ∈ [0x00, 0x05, 0x0F, 0x12, 0x1F, 0x24, 0x2F, 0x31, 0x3F, 0x42, 0xFF],
    let w : Command := BitVec.ofNat 64 (op * 2 ^ 56)
    op = w.toNat / 2 ^ 56 ∧
      (Presents (presented w) w { presented w with schedule := [] } ∧
        Presents (issuing w) w { State.reset with port := some w }) ∧
      (op = 0x00 ∨ (0x05 ≤ op ∧ op ≤ 0x0F) ∨ (0x12 ≤ op ∧ op ≤ 0x1F) ∨ (0x24 ≤ op ∧ op ≤ 0x2F) ∨
        (0x31 ≤ op ∧ op ≤ 0x3F) ∨ 0x42 ≤ op) := by
  intro op hop
  exact ⟨(by decide : ∀ op ∈ [0x00, 0x05, 0x0F, 0x12, 0x1F, 0x24, 0x2F, 0x31, 0x3F, 0x42, 0xFF],
      op = (BitVec.ofNat 64 (op * 2 ^ 56)).toNat / 2 ^ 56) op hop, presents_presented _,
    (by decide : ∀ op ∈ [0x00, 0x05, 0x0F, 0x12, 0x1F, 0x24, 0x2F, 0x31, 0x3F, 0x42, 0xFF], op = 0x00 ∨
      (0x05 ≤ op ∧ op ≤ 0x0F) ∨ (0x12 ≤ op ∧ op ≤ 0x1F) ∨ (0x24 ≤ op ∧ op ≤ 0x2F) ∨ (0x31 ≤ op ∧ op ≤ 0x3F) ∨
      0x42 ≤ op) op hop⟩

/-- A word with the given opcode byte and one reserved bit meets the premises for its row of the statement, on the port
or about to be issued (`presents_presented`, which holds for every word). -/
abbrev MeetsReserved (c : BitVec 8) (w mask : Command) : Prop := w.extractLsb' 56 8 = c ∧ w &&& mask ≠ 0

/-- For each row, the lowest and the highest reserved bit (one of them for the rows of one shape). -/
theorem witness_ReservedBitFails :
    (∀ w, Presents (presented w) w { presented w with schedule := [] } ∧
      Presents (issuing w) w { State.reset with port := some w }) ∧
    (MeetsReserved 0x02 0x0200000000000001 0x00FFFFFFFFFFFFFF ∧ MeetsReserved 0x02 0x0280000000000000 0x00FFFFFFFFFFFFFF ∧
     MeetsReserved 0x03 0x0300000000000001 0x00FFFFFFFFFFFFFF ∧ MeetsReserved 0x04 0x0400000100000000 0x00FFFFFF00000000 ∧
     MeetsReserved 0x04 0x0480000000000000 0x00FFFFFF00000000 ∧ MeetsReserved 0x10 0x1000000000000040 0x000000000000FFC0 ∧
     MeetsReserved 0x10 0x1000000000008000 0x000000000000FFC0) ∧
    (MeetsReserved 0x11 0x1180000000000000 0x00FFFFFFFFFFFFFF ∧ MeetsReserved 0x20 0x2000000000000002 0x00000000FFFFFFFE ∧
     MeetsReserved 0x20 0x2000000080000000 0x00000000FFFFFFFE ∧ MeetsReserved 0x21 0x2100000000000001 0x00000000FFFFFFFF ∧
     MeetsReserved 0x22 0x2200000000000002 0x00FFFFFFFFFFFFFE ∧ MeetsReserved 0x22 0x2280000000000000 0x00FFFFFFFFFFFFFE) ∧
    (MeetsReserved 0x23 0x2300000000000002 0x00000000000000FE ∧ MeetsReserved 0x23 0x2300000000000080 0x00000000000000FE ∧
     MeetsReserved 0x30 0x3000000100000000 0x00007FFF00000000 ∧ MeetsReserved 0x30 0x3000400000000000 0x00007FFF00000000 ∧
     MeetsReserved 0x40 0x4000000000000100 0x00FFFFFFFFFFFF00 ∧ MeetsReserved 0x40 0x4080000000000000 0x00FFFFFFFFFFFF00 ∧
     MeetsReserved 0x41 0x4100000000000001 0x00FFFFFFFFFFFFFF) :=
  ⟨presents_presented, by decide, by decide, by decide⟩

theorem witness_CommandsWriteOnlyTheirState : exec .sstop .reset = .next (after .sstop .reset) := rfl

/-! #### The serializer -/

/-- NUM_PINS is 30 here, so 29 is the last pin. -/
theorem witness_ScfgConfiguresTheSerializer : State.reset.ser.enabled = false ∧ 0 < State.reset.params.numPins ∧
    28 < State.reset.params.numPins ∧ 29 < State.reset.params.numPins ∧ 29 = 28 + 1 ∧ 0 ≠ 28 ∧ 0 ≠ 29 ∧ 0 < 8 ∧
    8 % 8 = 0 ∧ 0 < 1 := by decide

theorem witness_ScfgReportsItsFirstError :
    display.ser.enabled = true ∧ State.reset.ser.enabled = false ∧
    (State.reset.params.numPins ≤ 30 ∧ 29 < State.reset.params.numPins) ∧ (4 ≠ 2 + 1 ∧ 4 = 3 + 1) ∧
    (3 = 3 ∨ 3 = 4) ∧ (2 ≠ 3 ∧ 2 ≠ 4) ∧ (9 = 0 ∨ 9 % 8 ≠ 0) ∧ (0 < 8 ∧ 8 % 8 = 0 ∧ 0 = 0) := by decide

theorem witness_SstartEnablesAConfiguredSerializer :
    serial.ser.configured = true ∧ State.reset.ser.configured = false := by decide

theorem witness_SstopPausesUntilSstart :
    let s : State := { display with schedule := List.replicate 3 (.agent .serializer) ++ [.agent .host] }
    s.schedule = List.replicate 3 (.agent .serializer) ++ [.agent .host] ∧ s.ser.configured = true ∧
      s.ser.enabled = true := by decide

/-- The queue of FIFO_DEPTH = 4 full, and with one place left. -/
theorem witness_SenqQueuesOrHolds :
    let full : State := { serial with ser := { serial.ser with fifo := [1, 2, 3, 4] } }
    let room : State := { serial with ser := { serial.ser with fifo := [1, 2, 3] } }
    State.reset.ser.configured = false ∧
    (full.ser.configured = true ∧ full.ser.fifo.length = full.params.fifoDepth) ∧
    (room.ser.configured = true ∧ room.ser.fifo.length < room.params.fifoDepth) := by decide

/-- A running serializer in a given place of its cycle, with the serializer's turn next. -/
def running (phase : Phase) (fifo : List Word) (osrCount : Nat) (latch shift : Bool) (bitCount : Word) : State :=
  { display with
    schedule := [.agent .serializer]
    ser := { display.ser with phase := phase, fifo := fifo, osrCount := osrCount, latch := latch, shift := shift,
                              bitCount := bitCount } }

theorem witness_TickFollowsItsPhases :
    (let s : State := { State.reset with schedule := [.agent .serializer] }
     s.schedule = [.agent .serializer] ∧ (s.ser.configured = false ∨ s.ser.enabled = false)) ∧
    (∀ s ∈ [running .shiftLow [] 0 false false 0, running .shiftLow [5] 0 false false 0,
        running .shiftLow [] 1 false true 31, running .shiftHigh [] 0 false false 31,
        running .latchHigh [] 0 false true 32, running .latchLow [] 0 true false 0],
      s.schedule = [.agent .serializer] ∧ s.ser.configured = true ∧ s.ser.enabled = true) := by decide

/-- The last bit of a word, and the first bit of the next. -/
theorem witness_BitsLeaveInTheOrderTheyCame :
    (∀ s ∈ [running .shiftLow [] 1 false true 31, running .shiftLow [5] 0 false false 0,
        running .latchHigh [] 32 false true 32],
      s.ser.osrCount ≤ 32 ∧ (tick s.ser).isSome = true) ∧
    (after (.senq 5) serial).ser.fifo ≠ serial.ser.fifo := by decide

theorem serInv_running : SerInv Params.vectors (running .shiftLow [0xFFFFFFFF] 0 false true 0).ser ∧
    SerInv Params.vectors (running .shiftHigh [] 0 false false 31).ser ∧
    SerInv Params.vectors (running .latchHigh [] 0 false true 32).ser ∧
    SerInv Params.vectors (running .latchLow [] 0 true false 0).ser ∧
    SerInv Params.vectors (running .shiftLow [] 0 false true 0).ser := by
  refine ⟨?_, ?_, ?_, ?_, ?_⟩ <;> constructor <;> decide

/-- For each clause a tick that meets its premises. -/
theorem witness_LinesKeepTheirContract :
    (∃ p x y, SerInv p x ∧ tick x = some y ∧ y.data ≠ x.data) ∧
    (∃ p x y, SerInv p x ∧ tick x = some y ∧ x.shift = false ∧ y.shift = true) ∧
    (∃ p x y, SerInv p x ∧ tick x = some y ∧ x.latch = false ∧ y.latch = true) ∧
    (∃ p x y, SerInv p x ∧ tick x = some y ∧ x.latch = true) :=
  ⟨⟨_, (running .shiftLow [0xFFFFFFFF] 0 false true 0).ser, _, serInv_running.1, rfl, by decide⟩,
   ⟨_, _, _, serInv_running.2.1, rfl, rfl, rfl⟩, ⟨_, _, _, serInv_running.2.2.1, rfl, rfl, rfl⟩,
   ⟨_, _, _, serInv_running.2.2.2.1, rfl, rfl⟩⟩

/-- One frame of 32 bits in one word, with another word behind it, on the display of 8 rows and 24 columns. -/
def framed : State :=
  { display with
    ser := { display.ser with fifo := [0xFE000001, 5] }
    schedule := List.replicate 66 (.agent .serializer) }

theorem witness_FrameDrivesItsLineSequence :
    framed.ser.configured = true ∧ framed.ser.enabled = true ∧ framed.ser.phase = .shiftLow ∧
    framed.ser.latch = false ∧ framed.ser.osrCount ≤ 32 ∧ framed.ser.bitCount = 0 ∧
    0 < (wordBits 0xFE000001).length ∧ (wordBits 0xFE000001).length = framed.ser.chain.toNat ∧
    outBits framed.ser = wordBits 0xFE000001 ++ wordBits 5 ∧
    framed.schedule = List.replicate (2 * (wordBits 0xFE000001).length + 2) (.agent .serializer) ++ [] := by decide

theorem witness_ObserverLatchesTheFrame : (Observer.mk 32 7 9).physBits ≤ (wordBits 0xFE000001).length ∧
    framed.ser.configured = true ∧ framed.ser.enabled = true ∧ framed.ser.phase = .shiftLow ∧
    framed.ser.latch = false ∧ framed.ser.osrCount ≤ 32 ∧ framed.ser.bitCount = 0 ∧
    0 < (wordBits 0xFE000001).length ∧ (wordBits 0xFE000001).length = framed.ser.chain.toNat ∧
    outBits framed.ser = wordBits 0xFE000001 ++ wordBits 5 ∧
    framed.schedule = List.replicate (2 * (wordBits 0xFE000001).length + 2) (.agent .serializer) ++ [] :=
  ⟨by decide, witness_FrameDrivesItsLineSequence⟩

/-! #### States that meet the invariant -/

/-- The display of the given rows and 24 columns with a queue, and an EDRAW at a given place of its frame. -/
def drawing (rows : Nat) (fifo : List Word) (row : BitVec 8) (word : BitVec 16) (sched : List Turn) : State :=
  let s := after (.ecfg rows 24 2 3 0x15) .reset
  { s with
    ser := { s.ser with fifo := fifo }
    enc := { s.enc with busy := true, curRow := row, curWord := word }
    wait := .draw, port := some 0x1100000000000000, schedule := sched }

/-- The same display between two commands, with w on the port. -/
def showing (rows : Nat) (fifo : List Word) (port : Option Command) (sched : List Turn) : State :=
  let s := after (.ecfg rows 24 2 3 0x15) .reset
  { s with ser := { s.ser with fifo := fifo }, port := port, schedule := sched }

theorem geomInv_of_rows {rows : Nat} (h : rows = 4 ∨ rows = 16) :
    GeomInv Params.vectors (after (.ecfg rows 24 2 3 0x15) .reset).enc := by
  rcases h with rfl | rfl <;> constructor <;> decide

/-- A row of 24 columns takes one word with 4 rows and two with 16. -/
theorem wordsPerRow_of_rows : wordsPerRow (after (.ecfg 4 24 2 3 0x15) .reset).enc = 1 ∧
    wordsPerRow (after (.ecfg 16 24 2 3 0x15) .reset).enc = 2 := by decide

theorem serInv_of_rows {rows : Nat} (h : rows = 4 ∨ rows = 16) (fifo : List Word) (hf : fifo.length ≤ 4) :
    SerInv Params.vectors { (after (.ecfg rows 24 2 3 0x15) .reset).ser with fifo := fifo } := by
  have base : SerInv Params.vectors (after (.ecfg rows 24 2 3 0x15) .reset).ser := by
    rcases h with rfl | rfl <;> constructor <;> decide
  have conf : (after (.ecfg rows 24 2 3 0x15) .reset).ser.configured = true := by rcases h with rfl | rfl <;> rfl
  exact { base with
    fifo_le := hf
    unconfigured := fun hc => by
      rw [show (after (.ecfg rows 24 2 3 0x15) .reset).ser.configured = false from hc] at conf
      cases conf }

theorem padClear_of_empty {e : Enc} (h : e.fb = []) : PadClear e := by
  intro x y _ _ _
  simp [pix, fbRead, h, Memory.read]

theorem debInv_of_reset : ∀ d ∈ State.reset.deb, DebInv d := by
  intro d hd _
  rw [(List.mem_replicate.1 hd).2]
  exact ⟨rfl, rfl⟩

theorem inv_drawing {rows : Nat} (h : rows = 4 ∨ rows = 16) (fifo : List Word) (hf : fifo.length ≤ 4) {row : BitVec 8}
    {word : BitVec 16} (hr : row.toNat < rows) (hw : word.toNat < if rows = 4 then 1 else 2) (sched : List Turn) :
    Machine.Inv (drawing rows fifo row word sched) := by
  have hg := geomInv_of_rows h
  have hs := serInv_of_rows h fifo hf
  have hwords : wordsPerRow (after (.ecfg rows 24 2 3 0x15) .reset).enc = if rows = 4 then 1 else 2 := by
    rcases h with rfl | rfl
    · exact wordsPerRow_of_rows.1
    · exact wordsPerRow_of_rows.2
  rw [← hwords] at hw
  rcases h with rfl | rfl
  all_goals exact
    { params := (by decide : Params.vectors.wf)
      ser := hs
      enc :=
        { geom := fun _ => ⟨hg.1, hg.2, hg.3, hg.4, hg.5, hg.6, hg.7⟩
          cursor_busy := fun _ => ⟨rfl, hr, hw⟩
          cursor_idle := fun hb => nomatch hb
          fb_wf := ⟨.nil, fun c hc => nomatch hc⟩
          fb_range := fun c hc => nomatch hc
          pad_clear := padClear_of_empty rfl }
      enc_ser := fun _ => rfl
      busy_wait := fun _ => rfl
      wait_port := fun _ => rfl
      deb_length := rfl
      btn_length := rfl
      deb := debInv_of_reset
      events := fun i t he => nomatch he }

theorem inv_showing {rows : Nat} (h : rows = 4 ∨ rows = 16) (fifo : List Word) (hf : fifo.length ≤ 4)
    (port : Option Command) (sched : List Turn) : Machine.Inv (showing rows fifo port sched) := by
  have hg := geomInv_of_rows h
  have hs := serInv_of_rows h fifo hf
  rcases h with rfl | rfl
  all_goals exact
    { params := (by decide : Params.vectors.wf)
      ser := hs
      enc :=
        { geom := fun _ => hg
          cursor_busy := fun hb => nomatch hb
          cursor_idle := fun _ => ⟨rfl, rfl⟩
          fb_wf := ⟨.nil, fun c hc => nomatch hc⟩
          fb_range := fun c hc => nomatch hc
          pad_clear := padClear_of_empty rfl }
      enc_ser := fun _ => rfl
      busy_wait := fun hb => nomatch hb
      wait_port := fun hw => nomatch hw
      deb_length := rfl
      btn_length := rfl
      deb := debInv_of_reset
      events := fun i t he => nomatch he }

theorem witness_EachRowIsLatchedAsOneFrame :
    let s := showing 16 [0xFF, 0xFE000000, 5] none (List.replicate 130 (.agent .serializer))
    GeomInv s.params s.enc ∧ 0 < s.enc.rows.toNat ∧ s.ser.configured = true ∧ s.ser.enabled = true ∧
    s.ser.phase = .shiftLow ∧ s.ser.latch = false ∧ s.ser.bitCount = 0 ∧ s.ser.osrCount = 0 ∧
    s.ser.chain.toNat = 8 * s.enc.paddedSize.toNat ∧
    (Observer.mk 40 7 9).physBits = 8 * (s.enc.rowBytes.toNat + s.enc.colBytes.toNat) ∧
    s.ser.fifo = (List.range (s.enc.paddedSize.toNat / 4)).map (fun k => sliceWord s.enc 0 k) ++ [5] ∧
    s.schedule = List.replicate (2 * s.ser.chain.toNat + 2) (.agent .serializer) ++ [] :=
  ⟨geomInv_of_rows (.inr rfl), by decide⟩

/-- S-5's stall, idle in the middle of a frame, and a word still queued. -/
theorem witness_IdleMeansNothingLeftToSend : SerInv Params.vectors (running .shiftLow [] 0 false true 0).ser ∧
    idle (running .shiftLow [] 0 false true 0).ser = true ∧ idle (running .shiftLow [5] 0 false true 0).ser = false :=
  ⟨serInv_running.2.2.2.2, by decide, by decide⟩

theorem witness_EnabledSerializerPopsAWordInBoundedTurns :
    let s := showing 4 [5] none (List.replicate 4 (.agent .serializer))
    Machine.Inv s ∧ s.ser.enabled = true ∧ s.ser.fifo ≠ [] ∧
    s.schedule = List.replicate (4 * s.ser.osrCount + 4) (.agent .serializer) ++ [] :=
  ⟨inv_showing (.inl rfl) _ (by decide) _ _, by decide⟩

/-- The three agents in turn. -/
def roundRobin (n : Nat) : Turn :=
  .agent (if n % 3 = 0 then .serializer else if n % 3 = 1 then .host else .drawEngine)

/-- A run in which a SENQ is held on a full queue at first, under `roundRobin`. -/
def robinRun : Nat → State
  | 0 => showing 4 [1, 2, 3, 4] (some 0x0400000000000005) []
  | n + 1 => turn (roundRobin n) (robinRun n)

/-- An agent's turn always answers a next state. -/
theorem turn_of_agent (a : Agent) (s : State) : runTurn (.agent a) s = .next (turn (.agent a) s) := by
  have h : ∃ t, runTurn (.agent a) s = .next t := by
    cases a with
    | host =>
      have hr : ∀ (w : Command) (s : State), ∃ t, runCommand w s = .next t := by
        intro w s
        rcases runCommand_cases w s with ⟨i, -, h⟩ | ⟨e, h⟩
        · rw [h]
          exact exec_next i s
        · exact ⟨_, h⟩
      show ∃ t, hostStep s = .next t
      rcases hostStep_cases s with ⟨-, -, h⟩ | ⟨-, -, h⟩ | ⟨w, -, -, h⟩ | ⟨w, ws, -, -, -, h⟩ | ⟨-, -, -, h⟩ <;> rw [h]
      · exact ⟨_, rfl⟩
      · exact ⟨_, rfl⟩
      · exact hr _ _
      · exact hr _ _
      · exact ⟨_, rfl⟩
    | drawEngine => exact ⟨_, rfl⟩
    | serializer => exact ⟨_, rfl⟩
  obtain ⟨t, h⟩ := h
  rw [turn, h]

theorem witness_FairRunEndsEveryHold : IsRun roundRobin robinRun ∧ WeaklyFair roundRobin robinRun ∧
    (∀ n, roundRobin n ≠ .reset) ∧ Machine.Inv (robinRun 0) ∧ (robinRun 0).ser.enabled = true ∧
    hostHeld (robinRun 0) = true := by
  refine ⟨fun n => turn_of_agent _ _, fun a n _ => ?_, fun n h => (nomatch h),
    inv_showing (.inl rfl) _ (by decide) _ _, rfl, by decide⟩
  cases a with
  | serializer =>
    exact ⟨3 * n, by omega, by rw [roundRobin, show 3 * n % 3 = 0 by omega]; rfl⟩
  | host => exact ⟨3 * n + 1, by omega, by rw [roundRobin, show (3 * n + 1) % 3 = 1 by omega]; rfl⟩
  | drawEngine => exact ⟨3 * n + 2, by omega, by rw [roundRobin, show (3 * n + 2) % 3 = 2 by omega]; rfl⟩

/-- EN-7's hang: the serializer stopped, four words queued, and the draw not done. -/
theorem witness_HangLastsUntilReset :
    let d := drawing 16 [1, 2, 3, 4] 2 0 [.agent .host]
    let s : State := { d with ser := { d.ser with enabled := false } }
    hung s = true ∧ nextTurn s ≠ .reset ∧ step s = .next { s with schedule := [] } := ⟨by decide, by decide, rfl⟩

/-! #### The encoder -/

/-- The smallest and the largest geometry of the parameters NUM_PINS = 30 and MAX_COLS = 64, pins 28 and 29. -/
theorem witness_EcfgConstructsTheDisplay : State.reset.ser.enabled = false ∧
    (1 ≤ 32 ∧ 32 ≤ 32 ∧ 1 ≤ 64 ∧ 64 ≤ State.reset.params.maxCols) ∧ (1 ≤ 1 ∧ 1 ≤ 32 ∧ 1 ≤ State.reset.params.maxCols) ∧
    (0x15#6).getLsbD 5 ≠ (0x15#6).getLsbD 2 ∧ 0 < State.reset.params.numPins ∧ 28 + 1 < State.reset.params.numPins ∧
    0 ≠ 28 ∧ 0 ≠ 28 + 1 := by decide

theorem witness_EcfgReportsItsFirstError : display.ser.enabled = true ∧ State.reset.ser.enabled = false ∧
    32 < 33 ∧ State.reset.params.maxCols < 65 ∧ (0x24#6).getLsbD 5 = (0x24#6).getLsbD 2 ∧
    (0x15#6).getLsbD 5 ≠ (0x15#6).getLsbD 2 ∧ State.reset.params.numPins ≤ 30 ∧ State.reset.params.numPins ≤ 29 + 1 ∧
    (2 < State.reset.params.numPins ∧ 2 + 1 < State.reset.params.numPins ∧ (2 = 2 ∨ 2 = 2 + 1)) := by decide

/-- The first and the last row; the first and the last column, pad bits included; the last word of a row. -/
theorem witness_RowFieldSelectsOneRow :
    let e := (showing 16 [] none []).enc
    GeomInv Params.vectors e ∧ 0 < e.rows.toNat ∧ 15 < e.rows.toNat :=
  ⟨geomInv_of_rows (.inr rfl), by decide, by decide⟩

theorem witness_ColumnFieldHoldsEachPixel :
    let e := (showing 16 [] none []).enc
    GeomInv Params.vectors e ∧ 15 < e.rows.toNat ∧ 0 < 8 * e.colBytes.toNat ∧ 23 < 8 * e.colBytes.toNat :=
  ⟨geomInv_of_rows (.inr rfl), by decide, by decide, by decide⟩

theorem witness_SliceIsPaddingThenFields :
    let e := (showing 16 [] none []).enc
    GeomInv Params.vectors e ∧ 15 < e.rows.toNat := ⟨geomInv_of_rows (.inr rfl), by decide⟩

theorem witness_WordsAreBigEndianPiecesOfTheSlice :
    let e := (showing 16 [] none []).enc
    GeomInv Params.vectors e ∧ 15 < e.rows.toNat ∧ 1 < e.paddedSize.toNat / 4 :=
  ⟨geomInv_of_rows (.inr rfl), by decide, by decide⟩

theorem witness_PolarityComplementsOneHalf : layoutValid display.enc.layout = true ∧ 7 < display.enc.rows.toNat := by
  decide

theorem witness_EdrawStartsTheDraw : display.enc.configured = true ∧ State.reset.enc.configured = false := by decide

/-- No draw; a full queue; and room for a word that is not the row's last, the row's last, and the frame's last. -/
theorem witness_DrawStepPushesOneWord :
    (let s := showing 16 [] none [.agent .drawEngine]
     Machine.Inv s ∧ s.schedule = [.agent .drawEngine] ∧ s.enc.busy = false) ∧
    (let s := drawing 16 [1, 2, 3, 4] 15 1 [.agent .drawEngine]
     Machine.Inv s ∧ s.enc.busy = true ∧ s.ser.fifo.length = s.params.fifoDepth) ∧
    (let s := drawing 16 [1, 2, 3] 15 0 [.agent .drawEngine]
     Machine.Inv s ∧ s.enc.busy = true ∧ s.ser.fifo.length < s.params.fifoDepth ∧
       s.enc.curWord.toNat + 1 < s.enc.paddedSize.toNat / 4) ∧
    (let s := drawing 16 [1, 2, 3] 14 1 [.agent .drawEngine]
     Machine.Inv s ∧ s.enc.busy = true ∧ s.ser.fifo.length < s.params.fifoDepth ∧
       s.enc.curWord.toNat + 1 = s.enc.paddedSize.toNat / 4 ∧ s.enc.curRow.toNat + 1 < s.enc.rows.toNat) ∧
    (let s := drawing 16 [1, 2, 3] 15 1 [.agent .drawEngine]
     Machine.Inv s ∧ s.enc.busy = true ∧ s.ser.fifo.length < s.params.fifoDepth ∧
       s.enc.curWord.toNat + 1 = s.enc.paddedSize.toNat / 4 ∧ s.enc.curRow.toNat + 1 = s.enc.rows.toNat) :=
  ⟨⟨inv_showing (.inr rfl) _ (by decide) _ _, by decide⟩,
   ⟨inv_drawing (.inr rfl) _ (by decide) (by decide) (by decide) _, by decide⟩,
   ⟨inv_drawing (.inr rfl) _ (by decide) (by decide) (by decide) _, by decide⟩,
   ⟨inv_drawing (.inr rfl) _ (by decide) (by decide) (by decide) _, by decide⟩,
   ⟨inv_drawing (.inr rfl) _ (by decide) (by decide) (by decide) _, by decide⟩⟩

/-- A draw of four words on a queue that holds one already: the fourth push finds it full and holds until the serializer
has popped a word, after which the draw ends. -/
def heldDraw : State :=
  drawing 4 [7] 0 0 (List.replicate 4 (.agent .drawEngine) ++ [.agent .serializer, .agent .drawEngine, .agent .host])

/-- The state n steps later. -/
def afterSteps (n : Nat) (s : State) : State :=
  match run n s with
  | .next t => t
  | .fault _ => s
  | .refused _ => s

theorem heldDraw_inv : Machine.Inv heldDraw := inv_drawing (.inl rfl) _ (by decide) (by decide) (by decide) _

theorem heldDraw_runs : run 6 heldDraw = .next (afterSteps 6 heldDraw) := rfl

theorem heldDraw_lasts : DrawLasts 6 heldDraw := by
  intro k u hk h
  have h1 : ∀ k < 6, (afterSteps k heldDraw).wait = .draw ∧ nextTurn (afterSteps k heldDraw) ≠ .reset := by decide
  have h2 : afterSteps k heldDraw = u := by rw [afterSteps, h]
  exact h2 ▸ h1 k hk

/-- The hold is there: the fourth step changes nothing but the schedule. -/
theorem test_heldDraw_holds : (afterSteps 4 heldDraw).ser = (afterSteps 3 heldDraw).ser ∧
    (afterSteps 4 heldDraw).enc.busy = true ∧ (afterSteps 6 heldDraw).enc.busy = false := by decide

theorem witness_EdrawCompletesWhenAllWordsAreQueued :
    ((let s := drawing 16 [1, 2, 3, 4] 15 1 [.agent .host]
      s.schedule = [.agent .host] ∧ s.wait = .draw ∧ s.enc.busy = true) ∧
     (let s := turn (.agent .drawEngine) (drawing 16 [1, 2, 3] 15 1 [.agent .host])
      s.schedule = [.agent .host] ∧ s.wait = .draw ∧ s.enc.busy = false)) ∧
    (Machine.Inv heldDraw ∧ DrawStarts heldDraw ∧ DrawLasts 6 heldDraw ∧
      run 6 heldDraw = .next (afterSteps 6 heldDraw) ∧ (afterSteps 6 heldDraw).enc.busy = false) :=
  ⟨by decide, heldDraw_inv, ⟨rfl, rfl, rfl, rfl⟩, heldDraw_lasts, heldDraw_runs, test_heldDraw_holds.2.2⟩

/-- The draw of `heldDraw` after its first word, with the second to push. -/
theorem witness_DrawStepsKeepTheWordsInOrder :
    let s := drawing 4 [7] 1 0 [.agent .drawEngine]
    Machine.Inv s ∧ s.wait = .draw ∧ nextTurn s ≠ .reset ∧
    step s = .next (turn (.agent .drawEngine) { s with schedule := [] }) ∧
    [sliceWord s.enc 0 0] ++ wordsToCome s.enc = drawWords s.enc ∧ s.ser.fifo.length < s.params.fifoDepth :=
  ⟨inv_drawing (.inl rfl) _ (by decide) (by decide) (by decide) _, rfl, by decide, rfl, by decide, by decide⟩

theorem witness_DrawUnderBackpressurePushesItsWordsInOrder : Machine.Inv heldDraw ∧ DrawStarts heldDraw ∧
    DrawLasts 6 heldDraw ∧ run 6 heldDraw = .next (afterSteps 6 heldDraw) :=
  ⟨heldDraw_inv, ⟨rfl, rfl, rfl, rfl⟩, heldDraw_lasts, heldDraw_runs⟩

/-- EN-7: four rows of one word fit a queue of 4. -/
theorem witness_DrawPushesEveryRowInOrder :
    let s := drawing 4 [] 0 0 (List.replicate 4 (.agent .drawEngine))
    Machine.Inv s ∧ s.enc.busy = true ∧ s.enc.curRow = 0 ∧ s.enc.curWord = 0 ∧
    4 = s.enc.rows.toNat * s.enc.paddedSize.toNat / 4 ∧ s.ser.fifo.length + 4 ≤ s.params.fifoDepth ∧
    s.schedule = List.replicate 4 (.agent .drawEngine) ++ [] :=
  ⟨inv_drawing (.inl rfl) _ (by decide) (by decide) (by decide) _, by decide⟩

theorem witness_FramebufferIsStableDuringADraw :
    let s := drawing 16 [] 0 0 [.agent .drawEngine]
    s.wait = .draw ∧ nextTurn s ≠ .reset ∧ s.enc.busy = true ∧
    step s = .next (turn (.agent .drawEngine) { s with schedule := [] }) := ⟨rfl, by decide, rfl, rfl⟩

/-! #### The framebuffer commands -/

theorem witness_FramebufferCommandsNeedAGeometry : State.reset.enc.configured = false := rfl

/-- The last pixel of the geometry, and the first ones outside it. -/
theorem witness_FpixWritesOnePixel :
    let s := showing 16 [] none []
    Machine.Inv s ∧ s.enc.configured = true ∧ (23 < s.enc.cols.toNat ∧ 15 < s.enc.rows.toNat) ∧
    ¬(24 < s.enc.cols.toNat ∧ 15 < s.enc.rows.toNat) ∧ ¬(23 < s.enc.cols.toNat ∧ 16 < s.enc.rows.toNat) :=
  ⟨inv_showing (.inr rfl) _ (by decide) _ _, by decide⟩

theorem witness_FpgetReadsThePixel :
    let s := showing 16 [] none []
    s.enc.configured = true ∧ (23 < s.enc.cols.toNat ∧ 15 < s.enc.rows.toNat) ∧
    ¬(24 < s.enc.cols.toNat ∧ 15 < s.enc.rows.toNat) ∧ ¬(23 < s.enc.cols.toNat ∧ 16 < s.enc.rows.toNat) := by decide

theorem witness_FfillSetsEveryPixel :
    let s := showing 16 [] none []
    Machine.Inv s ∧ s.enc.configured = true := ⟨inv_showing (.inr rfl) _ (by decide) _ _, by decide⟩

/-- A rectangle partly outside: the pixels at its corner, at the last column, and beyond the clip. -/
theorem witness_FrectFillsTheClippedRectangle :
    let s := showing 16 [] none []
    Machine.Inv s ∧ s.enc.configured = true ∧ 23 < 8 * s.enc.colBytes.toNat ∧ 15 < s.enc.rows.toNat ∧
    (20 ≤ 23 ∧ 23 < 20 + 65535 ∧ 23 < s.enc.cols.toNat ∧ 14 ≤ 15 ∧ 15 < 14 + 255) ∧
    ¬(20 ≤ 19 ∧ 19 < 20 + 65535) :=
  ⟨inv_showing (.inr rfl) _ (by decide) _ _, by decide⟩

/-- The outline of the whole display with its last pixel, the largest one the pseudo-command admits, and the first byte
after the rows in use, which holds no pixel of either. -/
theorem witness_OutlinePaintsTheBorder :
    let s := showing 16 [] none []
    Machine.Inv s ∧ s.enc.configured = true ∧ (1 ≤ 24 ∧ 1 ≤ 16 ∧ 0 < 2 ^ 16 ∧ 0 < 2 ^ 8 ∧ 24 < 2 ^ 16 ∧ 16 < 2 ^ 8 ∧
      0 + 16 - 1 ≤ 255 ∧ 0 + 24 - 1 ≤ 65535) ∧
    (1 ≤ 65535 ∧ 1 ≤ 255 ∧ 1 < 2 ^ 16 ∧ 1 < 2 ^ 8 ∧ 65535 < 2 ^ 16 ∧ 255 < 2 ^ 8 ∧ 1 + 255 - 1 ≤ 255 ∧
      1 + 65535 - 1 ≤ 65535) ∧
    (23 < 8 * s.enc.colBytes.toNat ∧ 15 < s.enc.rows.toNat ∧ 23 < s.enc.cols.toNat ∧ OnOutline 0 0 24 16 23 15) ∧
    (∀ x' y', x' < s.enc.cols.toNat → y' < s.enc.rows.toNat → OnOutline 0 0 24 16 x' y' →
      48 ≠ y' * s.enc.colBytes.toNat + x' / 8) := by
  refine ⟨inv_showing (.inr rfl) _ (by decide) _ _, by decide, by decide, by decide, by decide, fun x' y' hx hy _ => ?_⟩
  have h1 : x' < 24 := hx
  have h2 : y' < 16 := hy
  show 48 ≠ y' * 3 + x' / 8
  omega

/-! #### The debouncer -/

/-- NUM_BUTTONS is 4 here. -/
theorem witness_DcfgMakesAFreshInstance : State.reset.params.numButtons ≤ 4 ∧ 3 < State.reset.params.numButtons ∧
    State.reset.deb[3]? = some .reset := by decide

/-- An instance that last fired at 100 with interval 300, at 400 (fires) and at 399 (drops); and a disabled one. -/
theorem witness_LineChangeFiresOrDrops :
    let d : Deb := { en := true, interval := 300, hasFired := true, last := 100, lvl := false, count := 1 }
    let s : State := { State.reset with schedule := [.lineChange 3 true], deb := State.reset.deb.set 3 d, msNow := 400 }
    s.schedule = [.lineChange 3 true] ∧ 3 < s.params.numButtons ∧ s.deb[3]? = some d ∧ d.lvl = false ∧ d.en = true ∧
    d.interval.toNat ≤ (s.msNow.toNat + 2 ^ 32 - d.last.toNat) % 2 ^ 32 ∧
    ¬d.interval.toNat ≤ ((399 : Word).toNat + 2 ^ 32 - d.last.toNat) % 2 ^ 32 ∧ State.reset.deb[3]? = some .reset ∧
    ¬(Deb.reset.en = true) := by decide

/-- L1-6's burst after the edge at 0: 100 and 250 are dropped. -/
theorem witness_BurstInsideTheIntervalIsDropped :
    let d : Deb := { en := true, interval := 300, hasFired := true, last := 0, lvl := true, count := 1 }
    let s : State := { State.reset with
      schedule := edges 0 [100, 150], deb := State.reset.deb.set 0 d, btn := [true, false, false, false] }
    s.schedule = edges 0 [100, 150] ++ [] ∧ 0 < s.params.numButtons ∧ s.deb[0]? = some d ∧ s.btn[0]? = some true ∧
    d.en = true ∧ d.hasFired = true ∧ d.lvl = true ∧ s.msNow = d.last ∧
    ([100, 150].sum < 2 ^ 32 ∧ [100, 150].sum < d.interval.toNat) := by decide

/-! #### Status -/

theorem witness_RdregReadsTheRegisterMap :
    let s := showing 16 [1, 2] none []
    Machine.Inv s ∧ 3 < s.params.numButtons ∧ s.deb[3]? = some .reset ∧ (debRegisterMap .reset 3).length = 4 :=
  ⟨inv_showing (.inr rfl) _ (by decide) _ _, by decide⟩

/-- ST-2's numbers, and the ends of each range. -/
theorem witness_RdregOfAnUnmappedNumberFails : ∀ n ∈ [0x07, 0x0F, 0x17, 0x2F, 0x33, 0x3F, 0x50, 0xFF],
    (0x07 ≤ n ∧ n ≤ 0x0F) ∨ (0x17 ≤ n ∧ n ≤ 0x2F) ∨ (0x33 ≤ n ∧ n ≤ 0x3F) ∨
      (0x40 + 4 * State.reset.params.numButtons ≤ n ∧ n ≤ 0xFF) := by decide

/-- The ends of each parameter's range, and the ends of each range of mapped numbers. -/
theorem witness_RegistersAfterReset : Params.wf ⟨1, 3, 1, 32⟩ ∧ Params.wf ⟨255, 255, 48, 65535⟩ ∧
    (∀ n ∈ [0x00, 0x06, 0x10, 0x16, 0x30, 0x32, 0x40, 0xFF],
      n ≤ 0x06 ∨ (0x10 ≤ n ∧ n ≤ 0x16) ∨ (0x30 ≤ n ∧ n ≤ 0x32) ∨ (0x40 ≤ n ∧ n < 0x40 + 4 * 48)) := by decide

/-! #### The whole machine -/

theorem witness_ResetSetsEveryStateElement :
    let s := drawing 16 [1, 2, 3, 4] 15 1 [.reset]
    s.schedule = [.reset] := rfl

theorem witness_ResetMeetsTheInvariant : Params.wf ⟨1, 3, 1, 32⟩ ∧ Params.wf ⟨255, 255, 48, 65535⟩ := by decide

theorem witness_EveryStepKeepsTheInvariant :
    let s := drawing 16 [1, 2, 3] 15 1 [.agent .drawEngine]
    Machine.Inv s ∧ step s = .next (turn (.agent .drawEngine) { s with schedule := [] }) :=
  ⟨inv_drawing (.inr rfl) _ (by decide) (by decide) (by decide) _, rfl⟩

theorem witness_AgentsTouchOnlyTheirOwnState :
    ∀ t ∈ [Turn.agent .serializer, .agent .drawEngine, .lineChange 0 true, .advanceTime 5],
      step { State.reset with schedule := [t] } = .next (turn t .reset) := by
  intro t ht
  simp only [List.mem_cons, List.not_mem_nil, or_false] at ht
  rcases ht with rfl | rfl | rfl | rfl <;> rfl

theorem witness_UnscheduledTurnGoesToSomeAgent : State.reset.schedule = [] := rfl

theorem witness_OutsideTheBlockIsRefused :
    (∀ t ∈ [Turn.foreignWrite 0 0 1, .primitive .line, .lineChange 4 true],
      ({ State.reset with schedule := [t] } : State).schedule = [t]) ∧ State.reset.params.numButtons ≤ 4 := by decide

end Sys2Proof.Tests
end

/-! SUPPORT. The invariant of the block, part by part: what each operation of the serializer, of the encoder and of the
debouncers keeps, then what each command, each agent and the environment keeps, and so the step
(10_state.md R33–R56). -/

namespace Sys2Proof.Machine

open Sys2Proof.Config (Params)

/-! ### The serializer's part -/

/-- The serializer after reset meets its invariant (R371). -/
theorem SerInv.reset (p : Params) : SerInv p .reset := by
  constructor <;> simp [Ser.reset]

/-- A word pushed on a queue with room (R40). -/
theorem SerInv.fifoPush {p : Params} {x : Ser} (h : SerInv p x) (hc : x.configured = true)
    (hf : x.fifo.length < p.fifoDepth) (w : Word) : SerInv p (fifoPush w x) :=
  { h with
    fifo_le := by rw [fifoPush_fifo, List.length_append]; exact hf
    unconfigured := fun hn => absurd (hc.symm.trans hn) nofun }

/-- Starting a configured serializer, or stopping one (R155, R156). -/
theorem SerInv.enable {p : Params} {x : Ser} (h : SerInv p x) {b : Bool} (hb : b = true → x.configured = true) :
    SerInv p { x with enabled := b } :=
  { h with enabled_configured := hb }

/-- A configuration with operands that pass SCFG's checks and fit its fields (R152, R153). -/
theorem SerInv.configure {p : Params} (hp : p.numPins ≤ 255) (x : Ser) {d s freq chain : Nat} (hd : d < p.numPins)
    (hs : s + 1 < p.numPins) (hds : d ≠ s) (hdl : d ≠ s + 1) (hf : 0 < freq) (hf' : freq < 2 ^ 32) (hc : 0 < chain)
    (hc' : chain < 2 ^ 32) (hc8 : chain % 8 = 0) (henab : x.enabled = false) :
    SerInv p (serConfigure x d s (s + 1) freq chain) := by
  have hdn : (BitVec.ofNat 8 d).toNat = d := Nat.mod_eq_of_lt (by omega)
  have hsn : (BitVec.ofNat 8 s).toNat = s := Nat.mod_eq_of_lt (by omega)
  have hln : (BitVec.ofNat 8 (s + 1)).toNat = s + 1 := Nat.mod_eq_of_lt (by omega)
  have hfn : (BitVec.ofNat 32 freq).toNat = freq := Nat.mod_eq_of_lt hf'
  have hcn : (BitVec.ofNat 32 chain).toNat = chain := Nat.mod_eq_of_lt hc'
  constructor <;> simp only [serConfigure, serReset]
  case pins => intro _; omega
  case data_pin =>
    refine fun _ => ⟨fun h => hds ?_, fun h => hdl ?_⟩
    · rw [← hdn, h, hsn]
    · rw [← hdn, h, hln]
  case freq_pos => intro _ h; rw [h] at hfn; exact hf.ne hfn
  case chain_pos => intro _; omega
  case bitCount_eq =>
    refine fun _ => ⟨fun h => ?_, nofun⟩
    rw [← h] at hcn
    exact absurd hcn hc.ne
  all_goals simp [henab]

/-- Outside LATCH_HIGH the frame is not complete (R42). -/
theorem SerInv.bitCount_ne_chain {p : Params} {x : Ser} (h : SerInv p x) (hc : x.configured = true)
    (hp : x.phase ≠ .latchHigh) : x.bitCount ≠ x.chain := fun he => hp ((h.bitCount_eq hc).1 he)

/-- The latch line is low exactly outside LATCH_LOW (R160). -/
theorem SerInv.latch_eq_false_iff {p : Params} {x : Ser} (h : SerInv p x) : x.latch = false ↔ x.phase ≠ .latchLow := by
  rw [← Bool.not_eq_true, h.latch_iff]

/-- SHIFT_LOW sends a bit, of the word under way or of the one just popped (R160). -/
theorem SerInv.shiftOut {p : Params} {x : Ser} (h : SerInv p x) (hc : x.configured = true) (hp : x.phase = .shiftLow) :
    SerInv p (shiftOut x) := by
  have hb : x.bitCount ≠ x.chain := h.bitCount_ne_chain hc (by simp [hp])
  have hl : x.latch = false := h.latch_eq_false_iff.2 (by simp [hp])
  exact
    { h with
      osrCount_le := Nat.le_trans (Nat.sub_le _ _) h.osrCount_le
      bitCount_eq := fun _ => by simp [Machine.shiftOut, hb]
      latch_iff := by simp [Machine.shiftOut, hl]
      shift_low := fun _ => rfl
      shift_high := nofun
      unconfigured := fun hn => absurd (hc.symm.trans hn) nofun }

/-- SHIFT_HIGH counts the bit, and the last bit of the frame leads to the latch (R160, R42). -/
theorem SerInv.tickShiftHigh {p : Params} {x : Ser} (h : SerInv p x) (hc : x.configured = true)
    (hp : x.phase = .shiftHigh) : SerInv p (tickShiftHigh x) := by
  have hb : x.bitCount ≠ x.chain := h.bitCount_ne_chain hc (by simp [hp])
  have hl : x.latch = false := h.latch_eq_false_iff.2 (by simp [hp])
  have hlt : (x.bitCount + 1).toNat ≤ x.chain.toNat := by
    have := h.bitCount_le
    bv_omega
  exact
    { h with
      bitCount_le := hlt
      bitCount_eq := fun _ => by simp [Machine.tickShiftHigh]
      latch_iff := by simp only [Machine.tickShiftHigh, hl]; split <;> simp
      shift_low := by simp only [Machine.tickShiftHigh]; split <;> simp
      shift_high := fun _ => rfl
      unconfigured := fun hn => absurd (hc.symm.trans hn) nofun }

/-- LATCH_HIGH starts the count of the next frame (R160). -/
theorem SerInv.tickLatchHigh {p : Params} {x : Ser} (h : SerInv p x) (hc : x.configured = true) :
    SerInv p (tickLatchHigh x) :=
  { h with
    bitCount_le := Nat.zero_le _
    bitCount_eq := fun _ => ⟨fun he => absurd (congrArg BitVec.toNat he) (h.chain_pos hc).1.ne, nofun⟩
    latch_iff := by simp [Machine.tickLatchHigh]
    shift_low := fun _ => rfl
    shift_high := nofun
    unconfigured := fun hn => absurd (hc.symm.trans hn) nofun }

/-- LATCH_LOW ends the latch (R160). -/
theorem SerInv.tickLatchLow {p : Params} {x : Ser} (h : SerInv p x) (hc : x.configured = true)
    (hp : x.phase = .latchLow) : SerInv p (tickLatchLow x) := by
  have hb : x.bitCount ≠ x.chain := h.bitCount_ne_chain hc (by simp [hp])
  exact
    { h with
      bitCount_eq := fun _ => by simp [Machine.tickLatchLow, hb]
      latch_iff := by simp [Machine.tickLatchLow]
      shift_low := by simp [Machine.tickLatchLow]
      shift_high := nofun
      unconfigured := fun hn => absurd (hc.symm.trans hn) nofun }

/-- The pop at a word boundary (R160, R161). -/
theorem SerInv.pop {p : Params} {x : Ser} (h : SerInv p x) (hc : x.configured = true) {w : Word} {ws : List Word}
    (hf : x.fifo = w :: ws) : SerInv p { x with fifo := ws, osr := w, osrCount := 32 } :=
  { h with
    fifo_le := by have := h.fifo_le; rw [hf, List.length_cons] at this; exact Nat.le_of_succ_le this
    osrCount_le := Nat.le_refl _
    unconfigured := fun hn => absurd (hc.symm.trans hn) nofun }

/-- Every tick keeps the serializer's invariant (R160). -/
theorem SerInv.tick {p : Params} {x y : Ser} (h : SerInv p x) (ht : tick x = some y) : SerInv p y := by
  obtain ⟨hc, -, ⟨w, ws, hp, -, hf, rfl⟩ | ⟨hp, -, rfl⟩ | ⟨hp, rfl⟩ | ⟨-, rfl⟩ | ⟨hp, rfl⟩⟩ := tick_cases ht
  · exact (h.pop hc hf).shiftOut hc hp
  · exact h.shiftOut hc hp
  · exact h.tickShiftHigh hc hp
  · exact h.tickLatchHigh hc
  · exact h.tickLatchLow hc hp

/-! ### The encoder's part -/

/-- A framebuffer with no listed byte shows no pixel (R51). -/
theorem pix_of_fb_nil {e : Enc} (h : e.fb = []) (x y : Nat) : pix e x y = false := by
  simp [pix, fbRead, h, Memory.read]

/-- The encoder after reset meets its invariant (R371). -/
theorem EncInv.reset (p : Params) : EncInv p .reset where
  geom := nofun
  cursor_busy := nofun
  cursor_idle := fun _ => ⟨rfl, rfl⟩
  fb_wf := nil_wf
  fb_range := nofun
  pad_clear := fun x y _ _ _ => pix_of_fb_nil rfl x y

/-- A configured row gives at least one word (R9, R217). -/
theorem GeomInv.wordsPerRow_pos {p : Params} {e : Enc} (g : GeomInv p e) : 0 < wordsPerRow e := by
  obtain ⟨hr, -⟩ := g.rows_range
  have hb := g.rowBytes_eq
  have hp := g.paddedSize_eq
  unfold wordsPerRow
  omega

/-- A row gives fewer words than the cursor can name (R9, R50). -/
theorem GeomInv.wordsPerRow_lt {p : Params} {e : Enc} (g : GeomInv p e) : wordsPerRow e < 2 ^ 16 := by
  have hr := e.rows.isLt
  have hc := e.cols.isLt
  have hrb := g.rowBytes_eq
  have hcb := g.colBytes_eq
  have hp := g.paddedSize_eq
  unfold wordsPerRow
  omega

/-- Every pixel column of a configured geometry has its byte (R9). -/
theorem GeomInv.cols_le {p : Params} {e : Enc} (g : GeomInv p e) : e.cols.toNat ≤ 8 * e.colBytes.toNat := by
  have hcb := g.colBytes_eq
  omega

/-- The geometry does not depend on the cursor and the framebuffer. -/
theorem GeomInv.update {p : Params} {e : Enc} (g : GeomInv p e) (b : Bool) (r : BitVec 8) (w : BitVec 16) (m : Memory) :
    GeomInv p { e with busy := b, curRow := r, curWord := w, fb := m } := ⟨g.1, g.2, g.3, g.4, g.5, g.6, g.7⟩

/-- The geometry that an accepted ECFG writes (R201, R202, R9). -/
theorem GeomInv.configure {p : Params} (hp : p.maxCols ≤ 65535) (e : Enc) {rows cols : Nat} {l : BitVec 6}
    (hr : 1 ≤ rows ∧ rows ≤ 32) (hc : 1 ≤ cols ∧ cols ≤ p.maxCols) (hl : layoutValid l = true) :
    GeomInv p (encConfigure e rows cols l) := by
  constructor <;> simp only [encConfigure, bytesFor, paddedFor, ceilDiv, warnFor, BitVec.toNat_ofNat]
  case layout_valid => exact hl
  case warnRows_eq => rw [Nat.mod_eq_of_lt (a := rows) (b := 2 ^ 8) (by omega)]
  all_goals omega

/-- An accepted ECFG while no draw runs (R201). -/
theorem EncInv.configure {p : Params} (hp : p.maxCols ≤ 65535) {e : Enc} (h : EncInv p e) (hb : e.busy = false)
    {rows cols : Nat} {l : BitVec 6} (hr : 1 ≤ rows ∧ rows ≤ 32) (hc : 1 ≤ cols ∧ cols ≤ p.maxCols)
    (hl : layoutValid l = true) : EncInv p (encConfigure e rows cols l) where
  geom := fun _ => .configure hp e hr hc hl
  cursor_busy := fun hb' => absurd (hb.symm.trans hb') nofun
  cursor_idle := h.cursor_idle
  fb_wf := nil_wf
  fb_range := nofun
  pad_clear := fun x y _ _ _ => pix_of_fb_nil rfl x y

/-- Moving the cursor within the frame, or back to 0 when no draw runs (R50). -/
theorem EncInv.moveCursor {p : Params} {e : Enc} (h : EncInv p e) {b : Bool} {r : BitVec 8} {w : BitVec 16}
    (hb : b = true → e.configured = true ∧ r.toNat < e.rows.toNat ∧ w.toNat < wordsPerRow e)
    (hi : b = false → r = 0 ∧ w = 0) : EncInv p { e with busy := b, curRow := r, curWord := w } where
  geom := fun hc => (h.geom hc).update b r w e.fb
  cursor_busy := hb
  cursor_idle := hi
  fb_wf := h.fb_wf
  fb_range := h.fb_range
  pad_clear := h.pad_clear

/-- The start of a draw (R219). -/
theorem EncInv.startDraw {p : Params} {e : Enc} (h : EncInv p e) (hc : e.configured = true) :
    EncInv p { e with busy := true, curRow := 0, curWord := 0 } :=
  h.moveCursor (fun _ => ⟨hc, (h.geom hc).rows_range.1, (h.geom hc).wordsPerRow_pos⟩) nofun

/-- The cursor's move after a push stays within the frame, or ends the draw (R220). -/
theorem EncInv.advanceCursor {p : Params} {e : Enc} (h : EncInv p e) (hb : e.busy = true) :
    EncInv p (advanceCursor e) := by
  obtain ⟨hc, hrow, hword⟩ := h.cursor_busy hb
  have hlt := (h.geom hc).wordsPerRow_lt
  obtain ⟨-, -, he⟩ | ⟨-, hr, he⟩ | ⟨hw, he⟩ := advanceCursor_cases e <;> rw [he]
  · exact h.moveCursor nofun fun _ => ⟨rfl, rfl⟩
  · have hnext : (e.curRow + 1).toNat < e.rows.toNat := by bv_omega
    exact hb ▸ h.moveCursor (fun _ => ⟨hc, hnext, (h.geom hc).wordsPerRow_pos⟩) nofun
  · have hnext : (e.curWord + 1).toNat < wordsPerRow e := by bv_omega
    exact hb ▸ h.moveCursor (fun _ => ⟨hc, hrow, hnext⟩) nofun

/-- Writing pixels inside the geometry (R252, R254, R255): the bytes stay those of the rows in use, the pads clear. -/
theorem EncInv.painted {p : Params} {e e' : Enc} {P : Nat → Nat → Prop} {c : Bool} (h : EncInv p e)
    (hc : e.configured = true) (hp : Painted e e' P c) (hin : ∀ x y, P x y → x < e.cols.toNat ∧ y < e.rows.toNat) :
    EncInv p e' := by
  have hcols := (h.geom hc).cols_le
  have hrange : ∀ b ∈ e'.fb, b.1 < e.rows.toNat * e.colBytes.toNat := by
    intro b hb
    by_cases hw : ∃ x y, P x y ∧ b.1 = fbIndex e y (x / 8)
    · obtain ⟨x, y, hxy, ha⟩ := hw
      obtain ⟨hx, hy⟩ := hin x y hxy
      calc b.1 = y * e.colBytes.toNat + x / 8 := ha
        _ < (y + 1) * e.colBytes.toNat := by rw [Nat.succ_mul]; omega
        _ ≤ e.rows.toNat * e.colBytes.toNat := Nat.mul_le_mul_right _ hy
    · have hold : Memory.read e.fb b.1 = b.2 := by
        rw [← hp.bytes b.1 fun x y hxy ha => hw ⟨x, y, hxy, ha⟩, read_of_mem hp.wf.1 hb]
      have hne : Memory.read e.fb b.1 ≠ 0#8 := hold ▸ hp.wf.2 b hb
      exact h.fb_range (b.1, Memory.read e.fb b.1) (mem_of_read_ne hne)
  have hpad : ∀ x y, e.cols.toNat ≤ x → x < 8 * e.colBytes.toNat → y < e.rows.toNat → pix e' x y = false := by
    intro x y hx hx' hy
    rw [hp.outside x y hx' fun hxy => absurd (hin x y hxy).1 (by omega)]
    exact h.pad_clear x y hx hx' hy
  have hwf := hp.wf
  rw [hp.eq] at hpad ⊢
  exact
    { geom := fun hc' => (h.geom hc').update e.busy e.curRow e.curWord e'.fb
      cursor_busy := h.cursor_busy, cursor_idle := h.cursor_idle, fb_wf := hwf, fb_range := hrange, pad_clear := hpad }

/-- FPIX on a pixel of the geometry (R252). -/
theorem EncInv.setpix {p : Params} {e : Enc} (h : EncInv p e) (hc : e.configured = true) {x y : Nat}
    (hin : inBounds e x y = true) (c : Bool) : EncInv p (setpix e x y c) := by
  simp only [inBounds, Bool.and_eq_true, decide_eq_true_eq] at hin
  have hcols := (h.geom hc).cols_le
  refine h.painted hc (setpix_painted h.fb_wf (by omega) y c) ?_
  rintro _ _ ⟨rfl, rfl⟩
  exact hin

/-- FFILL and FRECT on an area of the geometry (R254, R255). -/
theorem EncInv.setArea {p : Params} {e : Enc} (h : EncInv p e) (hc : e.configured = true) {xs ys : List Nat}
    (hx : ∀ x ∈ xs, x < e.cols.toNat) (hy : ∀ y ∈ ys, y < e.rows.toNat) (c : Bool) : EncInv p (setArea e xs ys c) :=
  h.painted hc (setArea_painted h.fb_wf xs ys (fun x hm => Nat.lt_of_lt_of_le (hx x hm) (h.geom hc).cols_le) c)
    fun x y hxy => ⟨hx x hxy.1, hy y hxy.2⟩

/-! ### The debouncers' part -/

/-- A debouncer after reset has not fired and holds no trigger (R371). -/
theorem DebInv.reset : DebInv .reset := fun _ => ⟨rfl, rfl⟩

/-- A freshly configured debouncer holds no trigger (R283). -/
theorem DebInv.freshDeb (d : Deb) (en : Bool) (v : Word) : DebInv (freshDeb d en v) := fun _ => ⟨rfl, rfl⟩

/-- A triggered debouncer has fired (R285). -/
theorem DebInv.triggered (d : Deb) (now : Word) : DebInv (triggered d now) := nofun

/-- Every debouncer that the block reads meets the invariant (R52). -/
theorem Inv.debAt {s : State} (h : Inv s) (i : Nat) : DebInv (debAt s i) := by
  simp only [Machine.debAt, List.getD_eq_getElem?_getD]
  rcases hd : s.deb[i]? with _ | d
  · exact DebInv.reset
  · exact h.deb d (List.mem_of_getElem? hd)

/-! ### The whole state under each operation -/

/-- The environment's clock and what the model keeps of the host and of the turns are free. -/
theorem Inv.bookkeeping {s : State} (h : Inv s) (now : Word) (ws : List Command) (ts : List Turn) (n : Nat) :
    Inv { s with msNow := now, pending := ws, schedule := ts, choices := n } := { h with }

/-- A command is taken on the port (R114). -/
theorem Inv.issue {s : State} (h : Inv s) (w : Command) (ws : List Command) :
    Inv { s with port := some w, pending := ws } := { h with wait_port := fun _ => rfl }

/-- A response frees the port once no draw holds the host (R111). -/
theorem Inv.respond {s : State} (h : Inv s) (hw : s.wait = .none) (c : BitVec 8) (v : Word) : Inv (respond c v s) :=
  { h with wait_port := fun hd => absurd (hw.symm.trans hd) nofun }

/-- The error record is free (R53). -/
theorem Inv.setErrstat {s : State} (h : Inv s) (r : ErrStat) : Inv { s with errstat := r } := { h with }

/-- A failing command (R331). -/
theorem Inv.raise {s : State} (h : Inv s) (hw : s.wait = .none) (e : Err) (o : BitVec 8) : Inv (raise e o s) :=
  (h.setErrstat ⟨e.code, o, true⟩).respond hw _ _

/-- The serializer's part is replaced. -/
theorem Inv.setSer {s : State} (h : Inv s) {x : Ser} (hx : SerInv s.params x)
    (hc : s.enc.configured = true → x.configured = true) : Inv { s with ser := x } :=
  { h with ser := hx, enc_ser := hc }

/-- The encoder's part is replaced. -/
theorem Inv.setEnc {s : State} (h : Inv s) {e : Enc} (he : EncInv s.params e)
    (hc : e.configured = true → s.ser.configured = true) (hb : e.busy = true → s.wait = .draw) :
    Inv { s with enc := e } :=
  { h with enc := he, enc_ser := hc, busy_wait := hb }

/-- One debouncer is replaced. -/
theorem Inv.setDeb {s : State} (h : Inv s) (i : Nat) {d : Deb} (hd : DebInv d) : Inv { s with deb := s.deb.set i d } :=
  { h with
    deb_length := by rw [List.length_set]; exact h.deb_length
    deb := fun d' hm => (List.mem_or_eq_of_mem_set hm).elim (h.deb d') fun he => he ▸ hd }

/-- The environment drives a line (R56). -/
theorem Inv.setBtn {s : State} (h : Inv s) (i : Nat) (v : Bool) : Inv { s with btn := s.btn.set i v } :=
  { h with btn_length := by rw [List.length_set]; exact h.btn_length }

/-- An event of an existing button (R54). -/
theorem Inv.fire {s : State} (h : Inv s) {i : Nat} (hi : i < s.params.numButtons) (now : Word) :
    Inv { s with events := s.events ++ [.fire i now] } :=
  { h with
    events := fun j t hm => by
      rcases List.mem_append.1 hm with hm | hm
      · exact h.events j t hm
      · cases List.mem_singleton.1 hm
        exact hi }

/-- Outside a draw the draw engine is idle (R219). -/
theorem Inv.not_busy {s : State} (h : Inv s) (hw : s.wait = .none) : s.enc.busy = false := by
  rcases hb : s.enc.busy with _ | _
  · rfl
  · exact absurd (hw.symm.trans (h.busy_wait hb)) nofun

/-- A queue with room (R40). -/
theorem length_lt_of_not_fifoFull {s : State} (h : fifoFull s = false) : s.ser.fifo.length < s.params.fifoDepth := by
  simpa [fifoFull] using h

/-! ### The commands -/

section Commands

variable {s t : State} (hs : Inv s) (hw : s.wait = .none)
include hs hw

/-- Writing pixels of a configured encoder, with the response. -/
theorem Inv.paint {e : Enc} (he : EncInv s.params e)
    (hfb : ∃ m, e = { s.enc with fb := m }) : Inv (respondOk { s with enc := e }) := by
  obtain ⟨m, rfl⟩ := hfb
  exact (hs.setEnc he hs.enc_ser hs.busy_wait).respond hw _ _

/-- SCFG (R152). The operands' fields bound frequency and chain length. -/
theorem Inv.execScfg {d p l f c : Nat} (hwf : (Instr.scfg d p l f c).wf = true)
    (h : execScfg d p l f c s = .next t) : Inv t := by
  obtain ⟨e, -, rfl⟩ | ⟨hok, rfl⟩ := execScfg_cases h
  · exact hs.raise hw _ _
  · simp only [Instr.wf, Bool.and_eq_true, decide_eq_true_eq] at hwf
    obtain ⟨⟨-, hf⟩, hc⟩ := hwf
    obtain ⟨hen, hd, -, hl, rfl, hdp, hdl, hc0, hc8, hf0⟩ := scfgError_none hok
    have hser := SerInv.configure hs.params.2.1.2 s.ser hd hl hdp hdl hf0 (by omega) hc0 (by omega) hc8 hen
    exact (hs.setSer hser fun _ => rfl).respond hw _ _

/-- ECFG (R201–R203). -/
theorem Inv.execEcfg {r c d p : Nat} {l : BitVec 6} (h : execEcfg r c d p l s = .next t) : Inv t := by
  obtain ⟨e, -, rfl⟩ | ⟨hok, rfl⟩ := execEcfg_cases h
  · exact hs.raise hw _ _
  · obtain ⟨hen, hr1, hr, hc1, hc, hlay, hd, hp, hdp, hdl⟩ := ecfgError_none hok
    obtain ⟨-, ⟨-, hpins⟩, -, -, hcols⟩ := hs.params
    have hchain : 0 < paddedFor (bytesFor r) (bytesFor c) ∧ paddedFor (bytesFor r) (bytesFor c) < 2 ^ 20 := by
      unfold paddedFor bytesFor ceilDiv
      omega
    have hser : SerInv s.params (ecfgSer s.ser r c d p) :=
      (SerInv.configure hpins s.ser hd hp hdp hdl (by decide) (by decide) (by omega) (by omega) (by omega) hen).enable
        fun _ => rfl
    have henc := hs.enc.configure hcols (hs.not_busy hw) ⟨hr1, hr⟩ ⟨hc1, hc⟩ hlay
    exact ((hs.setSer hser fun _ => rfl).setEnc henc (fun _ => rfl) hs.busy_wait).respond hw _ _

/-- SSTART (R155). -/
theorem Inv.execSstart (h : execSstart s = .next t) : Inv t := by
  obtain ⟨hc, rfl⟩ | ⟨-, rfl⟩ := execSstart_cases h
  · exact (hs.setSer (hs.ser.enable (b := true) fun _ => hc) fun _ => hc).respond hw _ _
  · exact hs.raise hw _ _

/-- SSTOP (R156). -/
theorem Inv.execSstop (h : execSstop s = .next t) : Inv t := by
  rw [execSstop_cases h]
  exact (hs.setSer (hs.ser.enable (b := false) nofun) hs.enc_ser).respond hw _ _

/-- SENQ (R157). -/
theorem Inv.execSenq {w : Word} (h : execSenq w s = .next t) : Inv t := by
  obtain ⟨-, -, rfl⟩ | ⟨hc, hf, rfl⟩ | ⟨-, rfl⟩ := execSenq_cases h
  · exact hs
  · exact (hs.setSer (hs.ser.fifoPush hc (length_lt_of_not_fifoFull hf) w) fun _ => hc).respond hw _ _
  · exact hs.raise hw _ _

/-- EDRAW (R219): it keeps its command on the port while the host waits. -/
theorem Inv.execEdraw (hp : s.port.isSome = true) (h : execEdraw s = .next t) : Inv t := by
  obtain ⟨hc, rfl⟩ | ⟨-, rfl⟩ := execEdraw_cases h
  · exact { hs with enc := hs.enc.startDraw hc, busy_wait := fun _ => rfl, wait_port := fun _ => hp }
  · exact hs.raise hw _ _

/-- FPIX (R252). -/
theorem Inv.execFpix {x y : Nat} {c : Bool} (h : execFpix x y c s = .next t) : Inv t := by
  obtain ⟨hc, hin, rfl⟩ | ⟨-, -, rfl⟩ | ⟨-, rfl⟩ := execFpix_cases h
  · exact hs.paint hw (hs.enc.setpix hc hin c) ⟨_, setpix_eq _ _ _ _⟩
  · exact hs.respond hw _ _
  · exact hs.raise hw _ _

/-- FPGET (R253). -/
theorem Inv.execFpget {x y : Nat} (h : execFpget x y s = .next t) : Inv t := by
  obtain ⟨-, v, rfl⟩ | ⟨-, rfl⟩ := execFpget_cases h
  · exact hs.respond hw _ _
  · exact hs.raise hw _ _

/-- FFILL (R254). -/
theorem Inv.execFfill {c : Bool} (h : execFfill c s = .next t) : Inv t := by
  obtain ⟨hc, rfl⟩ | ⟨-, rfl⟩ := execFfill_cases h
  · exact hs.paint hw (hs.enc.setArea hc (fun _ => List.mem_range.1) (fun _ => List.mem_range.1) c)
      (setArea_eq _ _ _ _)
  · exact hs.raise hw _ _

/-- FRECT (R255). -/
theorem Inv.execFrect {x y w h : Nat} {c : Bool} (he : execFrect x y w h c s = .next t) : Inv t := by
  obtain ⟨hc, rfl⟩ | ⟨-, rfl⟩ := execFrect_cases he
  · exact hs.paint hw
      (hs.enc.setArea hc (fun _ hx => (mem_span.1 hx).2.2) (fun _ hy => (mem_span.1 hy).2.2) c) (setArea_eq _ _ _ _)
  · exact hs.raise hw _ _

/-- DCFG (R283). -/
theorem Inv.execDcfg {i : Nat} {en : Bool} {v : Word} (h : execDcfg i en v s = .next t) : Inv t := by
  obtain ⟨-, rfl⟩ | ⟨-, rfl⟩ := execDcfg_cases h
  · exact hs.raise hw _ _
  · exact (hs.setDeb i (.freshDeb _ _ _)).respond hw _ _

/-- RDREG (R310). -/
theorem Inv.execRdreg {n : Nat} (h : execRdreg n s = .next t) : Inv t := by
  obtain ⟨v, -, rfl⟩ | ⟨-, rfl⟩ := execRdreg_cases h
  · exact hs.respond hw _ _
  · exact hs.raise hw _ _

/-- CLRERR (R312). -/
theorem Inv.execClrerr (h : execClrerr s = .next t) : Inv t := by
  rw [execClrerr_cases h]
  exact (hs.setErrstat ⟨0, 0, false⟩).respond hw _ _

/-- Every well-formed command on the port keeps the invariant, while no draw holds the host. -/
theorem Inv.exec (hp : s.port.isSome = true) {i : Instr} (hwf : i.wf = true) (h : exec i s = .next t) : Inv t := by
  cases i with
  | scfg => exact hs.execScfg hw hwf h
  | sstart => exact hs.execSstart hw h
  | sstop => exact hs.execSstop hw h
  | senq => exact hs.execSenq hw h
  | ecfg => exact hs.execEcfg hw h
  | edraw => exact hs.execEdraw hw hp h
  | fpix => exact hs.execFpix hw h
  | fpget => exact hs.execFpget hw h
  | ffill => exact hs.execFfill hw h
  | frect => exact hs.execFrect hw h
  | dcfg => exact hs.execDcfg hw h
  | rdreg => exact hs.execRdreg hw h
  | clrerr => exact hs.execClrerr hw h

/-- Every command word keeps the invariant, a command or not (R118). -/
theorem Inv.runCommand (hp : s.port.isSome = true) {w : Command} (h : runCommand w s = .next t) : Inv t := by
  obtain ⟨i, hd, he⟩ | ⟨e, he⟩ := runCommand_cases w s <;> rw [he] at h
  · exact hs.exec hw hp (wf_of_decode hd) h
  · injection h with h
    exact h ▸ hs.raise hw _ _

end Commands

/-! ### The turns -/

section Turns

variable {s t : State} (hs : Inv s)
include hs

/-- The completion of a draw (R221). -/
theorem Inv.completeDraw (hb : s.enc.busy = false) : Inv (completeDraw s) := by
  have hd : Inv { s with wait := .none } :=
    { hs with busy_wait := fun hb' => absurd (hb.symm.trans hb') nofun, wait_port := nofun }
  exact hd.respond rfl _ _

/-- The host's turn (R114, R221). -/
theorem Inv.hostStep (h : hostStep s = .next t) : Inv t := by
  obtain ⟨-, -, he⟩ | ⟨-, hb, he⟩ | ⟨w, hw, hp, he⟩ | ⟨w, ws, hw, -, -, he⟩ | ⟨-, -, -, he⟩ := hostStep_cases s <;>
    rw [he] at h
  · injection h with h
    exact h ▸ hs
  · injection h with h
    exact h ▸ hs.completeDraw hb
  · exact hs.runCommand hw (by rw [hp]; rfl) h
  · exact (hs.issue w ws).runCommand hw rfl h
  · injection h with h
    exact h ▸ hs

/-- The draw engine's turn (R220). -/
theorem Inv.drawStep : Inv (drawStep s) := by
  obtain ⟨hb, hf, he⟩ | ⟨-, he⟩ := drawStep_cases s <;> rw [he]
  · obtain ⟨hc, -, -⟩ := hs.enc.cursor_busy hb
    have hser := hs.ser.fifoPush (hs.enc_ser hc) (length_lt_of_not_fifoFull hf)
      (sliceWord s.enc s.enc.curRow.toNat s.enc.curWord.toNat)
    exact (hs.setSer hser hs.enc_ser).setEnc (hs.enc.advanceCursor hb) (fun _ => hs.enc_ser hc)
      fun _ => hs.busy_wait hb
  · exact hs

/-- The serializer's turn (R160). -/
theorem Inv.serializerStep : Inv (serializerStep s) := by
  obtain ⟨y, ht, he⟩ | ⟨-, he⟩ := serializerStep_cases s <;> rw [he]
  · exact hs.setSer (hs.ser.tick ht) fun hc => (tick_config ht).1.trans (hs.enc_ser hc)
  · exact hs

/-- A line change with the debouncer's response (R284, R285). -/
theorem Inv.lineChange {i : Nat} {v : Bool} (h : lineChange i v s = .next t) : Inv t := by
  obtain ⟨hi, ⟨-, -, -, -, rfl⟩ | rfl⟩ := lineChange_cases h
  · exact ((hs.setBtn i v).setDeb i (.triggered _ _)).fire hi _
  · exact (hs.setBtn i v).setDeb i (hs.debAt i)

/-- RESET (R371). -/
theorem Inv.applyReset : Inv (applyReset s) where
  params := hs.params
  ser := .reset _
  enc := .reset _
  enc_ser := nofun
  busy_wait := nofun
  wait_port := nofun
  deb_length := List.length_replicate
  btn_length := hs.btn_length
  deb := fun _ hm => List.eq_of_mem_replicate hm ▸ DebInv.reset
  events := fun _ _ hm => absurd hm List.not_mem_nil

/-- Every turn that the block gives a meaning to keeps the invariant. -/
theorem Inv.runTurn {u : Turn} (h : runTurn u s = .next t) : Inv t := by
  cases u with
  | agent a =>
    cases a with
    | host => exact hs.hostStep h
    | drawEngine => injection h with h; exact h ▸ hs.drawStep
    | serializer => injection h with h; exact h ▸ hs.serializerStep
  | advanceTime ms => injection h with h; exact h ▸ hs.bookkeeping _ _ _ _
  | lineChange i v => exact hs.lineChange h
  | reset => injection h with h; exact h ▸ hs.applyReset
  | foreignWrite y k b => cases h
  | primitive p => cases h

/-- Every step keeps the invariant. -/
theorem Inv.step (h : step s = .next t) : Inv t := by
  cases hq : s.schedule with
  | nil => exact (hs.bookkeeping _ _ _ _).runTurn (step_nil hq ▸ h)
  | cons u rest => exact (hs.bookkeeping _ _ _ _).runTurn (step_cons hq ▸ h)

end Turns

/-- Settles O52: the turn is done from the state with the turn taken off the schedule, and each turn keeps each part of
the invariant. -/
theorem everyStepKeepsTheInvariant : Obligations.EveryStepKeepsTheInvariant :=
  fun _ _ hs h => hs.step h

end Sys2Proof.Machine

/-! SUPPORT. What commands, agents and the environment leave alone (10_state.md R33–R57), and when the serializer is
idle (R44). -/

namespace Sys2Proof.Machine

open Sys2Proof.Claims

/-! ### The frame of a command -/

/-- What a command of row o may change from s to t, part by part: the frame that 10_state.md gives each command. -/
structure CommandFrame (o : Op) (s t : State) : Prop where
  inputs : t.params = s.params ∧ t.events = s.events ∧ t.msNow = s.msNow ∧ t.btn = s.btn ∧ t.pending = s.pending ∧
    t.schedule = s.schedule ∧ t.choices = s.choices ∧ t.ser.latchCount = s.ser.latchCount
  ser : o ≠ .scfg → o ≠ .ecfg → { t.ser with enabled := s.ser.enabled, fifo := s.ser.fifo } = s.ser
  fifo : o ≠ .scfg → o ≠ .ecfg → o ≠ .senq → t.ser.fifo = s.ser.fifo
  enabled : o ≠ .ecfg → o ≠ .sstart → o ≠ .sstop → t.ser.enabled = s.ser.enabled
  enc : o ≠ .ecfg →
    { t.enc with busy := s.enc.busy, curRow := s.enc.curRow, curWord := s.enc.curWord, fb := s.enc.fb } = s.enc
  cursor : o ≠ .edraw → t.enc.busy = s.enc.busy ∧ t.enc.curRow = s.enc.curRow ∧ t.enc.curWord = s.enc.curWord ∧
    t.wait = s.wait
  fb : o ≠ .ecfg → o ≠ .fpix → o ≠ .ffill → o ≠ .frect → t.enc.fb = s.enc.fb
  deb : o ≠ .dcfg → t.deb = s.deb

section CommandFrame

variable {o : Op} {s t : State}

/-- A command that changes nothing, such as a SENQ that holds. -/
theorem CommandFrame.refl (o : Op) (s : State) : CommandFrame o s s := by
  constructor <;> simp

/-- The response that ends a command is not part of its frame (R111). -/
theorem CommandFrame.respond (h : CommandFrame o s t) (c : BitVec 8) (v : Word) : CommandFrame o s (respond c v t) :=
  { h with }

/-- A failing command changes the error record and the response only (R331). -/
theorem CommandFrame.raise (o : Op) (s : State) (e : Err) (c : BitVec 8) : CommandFrame o s (raise e c s) := by
  constructor <;> simp

/-- The framebuffer is written by ECFG and the drawing commands only (R51, R57). -/
theorem CommandFrame.paint (ho : o = .fpix ∨ o = .ffill ∨ o = .frect) (s : State) {e : Enc}
    (he : ∃ m, e = { s.enc with fb := m }) : CommandFrame o s (respondOk { s with enc := e }) := by
  obtain ⟨m, rfl⟩ := he
  rcases ho with rfl | rfl | rfl <;> constructor <;> simp

/-- The frame of every command. -/
theorem CommandFrame.exec {i : Instr} (h : exec i s = .next t) : CommandFrame i.op s t := by
  cases i with
  | scfg =>
    obtain ⟨e, -, rfl⟩ | ⟨-, rfl⟩ := execScfg_cases h
    · exact .raise _ _ _ _
    · constructor <;> simp [Instr.op, serConfigure, serReset]
  | sstart =>
    obtain ⟨-, rfl⟩ | ⟨-, rfl⟩ := execSstart_cases h
    · constructor <;> simp [Instr.op]
    · exact .raise _ _ _ _
  | sstop =>
    rw [execSstop_cases h]
    constructor <;> simp [Instr.op]
  | senq =>
    obtain ⟨-, -, rfl⟩ | ⟨-, -, rfl⟩ | ⟨-, rfl⟩ := execSenq_cases h
    · exact .refl _ _
    · constructor <;> simp [Instr.op, fifoPush]
    · exact .raise _ _ _ _
  | ecfg =>
    obtain ⟨e, -, rfl⟩ | ⟨-, rfl⟩ := execEcfg_cases h
    · exact .raise _ _ _ _
    · constructor <;> simp [Instr.op, ecfgSer, serConfigure, serReset, encConfigure]
  | edraw =>
    obtain ⟨-, rfl⟩ | ⟨-, rfl⟩ := execEdraw_cases h
    · constructor <;> simp [Instr.op]
    · exact .raise _ _ _ _
  | fpix =>
    obtain ⟨-, -, rfl⟩ | ⟨-, -, rfl⟩ | ⟨-, rfl⟩ := execFpix_cases h
    · exact .paint (.inl rfl) s ⟨_, setpix_eq _ _ _ _⟩
    · exact (CommandFrame.refl _ s).respond _ _
    · exact .raise _ _ _ _
  | fpget =>
    obtain ⟨-, v, rfl⟩ | ⟨-, rfl⟩ := execFpget_cases h
    · exact (CommandFrame.refl _ s).respond _ _
    · exact .raise _ _ _ _
  | ffill =>
    obtain ⟨-, rfl⟩ | ⟨-, rfl⟩ := execFfill_cases h
    · exact .paint (.inr (.inl rfl)) s (setArea_eq _ _ _ _)
    · exact .raise _ _ _ _
  | frect =>
    obtain ⟨-, rfl⟩ | ⟨-, rfl⟩ := execFrect_cases h
    · exact .paint (.inr (.inr rfl)) s (setArea_eq _ _ _ _)
    · exact .raise _ _ _ _
  | dcfg =>
    obtain ⟨-, rfl⟩ | ⟨-, rfl⟩ := execDcfg_cases h
    · exact .raise _ _ _ _
    · constructor <;> simp [Instr.op]
  | rdreg =>
    obtain ⟨v, -, rfl⟩ | ⟨-, rfl⟩ := execRdreg_cases h
    · exact (CommandFrame.refl _ s).respond _ _
    · exact .raise _ _ _ _
  | clrerr =>
    rw [execClrerr_cases h]
    constructor <;> simp [Instr.op]

end CommandFrame

/-- Settles O9: the frame of every command, part by part. -/
theorem commandsWriteOnlyTheirState : Obligations.CommandsWriteOnlyTheirState := by
  intro i s t h
  obtain ⟨hin, hser, hfifo, hen, henc, hcur, hfb, hdeb⟩ := CommandFrame.exec h
  exact ⟨hin, hser, hfifo, hen, henc, hcur, hfb, hdeb⟩

/-! ### When the serializer is idle -/

/-- Every accepted bit has been sent exactly when the queue is empty and the word under way is used up (R40, R41). -/
theorem outBits_eq_nil_iff (x : Ser) : outBits x = [] ↔ x.fifo = [] ∧ x.osrCount = 0 := by
  have htake : (wordBits x.osr).take x.osrCount = [] ↔ x.osrCount = 0 := by
    rw [List.take_eq_nil_iff, or_iff_left (List.ne_nil_of_length_pos (by simp))]
  have hfifo : x.fifo.flatMap wordBits = [] ↔ x.fifo = [] := by
    cases x.fifo with
    | nil => simp
    | cons w ws =>
      have : wordBits w ≠ [] := List.ne_nil_of_length_pos (by simp)
      simp [this]
  rw [outBits, List.append_eq_nil_iff, htake, hfifo, and_comm]

/-- `SER.idle` in terms of its three fields (R44). -/
theorem idle_iff (x : Ser) : idle x = true ↔ x.fifo = [] ∧ x.osrCount = 0 ∧ x.phase = .shiftLow := by
  simp [idle, and_assoc]

/-- The engine waits for a bit exactly when no edge, no latch and no end of a latch is due (R39, R42, R160). -/
theorem SerInv.phase_shiftLow_iff {p : Config.Params} {x : Ser} (h : SerInv p x) : x.phase = .shiftLow ↔
    x.phase ≠ .shiftHigh ∧ (x.configured = true → x.bitCount ≠ x.chain) ∧ x.latch = false := by
  rcases hc : x.configured with _ | _
  · simp [h.latch_eq_false_iff, (h.unconfigured hc).2.2]
  · rw [h.latch_eq_false_iff, Ne, Ne, h.bitCount_eq hc]
    cases x.phase <;> simp

/-- Settles O21: both sides say that nothing is queued, no bit is left of the word under way, and no edge or latch is
due. -/
theorem idleMeansNothingLeftToSend : Obligations.IdleMeansNothingLeftToSend := by
  intro p x h
  rw [idle_iff, outBits_eq_nil_iff, ← h.phase_shiftLow_iff, and_assoc]

/-! ### The frame of an agent's turn -/

/-- A tick writes the lines and the engine's registers only, and pops at most one word (R160). -/
theorem tick_frame {x y : Ser} (h : tick x = some y) :
    { y with data := x.data, shift := x.shift, latch := x.latch, phase := x.phase, fifo := x.fifo, osr := x.osr,
             osrCount := x.osrCount, bitCount := x.bitCount, latchCount := x.latchCount } = x ∧
    (y.fifo = x.fifo ∨ y.fifo = x.fifo.tail) := by
  obtain ⟨-, -, ⟨w, ws, -, -, hf, rfl⟩ | ⟨-, -, rfl⟩ | ⟨-, rfl⟩ | ⟨-, rfl⟩ | ⟨-, rfl⟩⟩ := tick_cases h
  · exact ⟨rfl, .inr (by rw [hf]; rfl)⟩
  all_goals exact ⟨rfl, .inl rfl⟩

/-- The cursor's move writes the cursor and the end of the draw only (R220). -/
theorem advanceCursor_frame (e : Enc) :
    { advanceCursor e with busy := e.busy, curRow := e.curRow, curWord := e.curWord } = e := by
  obtain ⟨-, -, he⟩ | ⟨-, -, he⟩ | ⟨-, he⟩ := advanceCursor_cases e <;> rw [he]

/-- The serializer's turn touches the serializer only (R38, R43). -/
theorem serializerStep_frame (s : State) : serializerStep s = { s with ser := (serializerStep s).ser } ∧
    { (serializerStep s).ser with
        data := s.ser.data, shift := s.ser.shift, latch := s.ser.latch, phase := s.ser.phase, fifo := s.ser.fifo,
        osr := s.ser.osr, osrCount := s.ser.osrCount, bitCount := s.ser.bitCount,
        latchCount := s.ser.latchCount } = s.ser ∧
    ((serializerStep s).ser.fifo = s.ser.fifo ∨ (serializerStep s).ser.fifo = s.ser.fifo.tail) := by
  obtain ⟨y, ht, he⟩ | ⟨-, he⟩ := serializerStep_cases s <;> rw [he]
  · exact ⟨rfl, tick_frame ht⟩
  · exact ⟨rfl, rfl, .inl rfl⟩

/-- The draw engine's turn appends to the queue and moves the cursor, and touches nothing else (R95). -/
theorem drawStep_frame (s : State) : drawStep s = { s with ser := (drawStep s).ser, enc := (drawStep s).enc } ∧
    { (drawStep s).ser with fifo := s.ser.fifo } = s.ser ∧ s.ser.fifo <+: (drawStep s).ser.fifo ∧
    { (drawStep s).enc with busy := s.enc.busy, curRow := s.enc.curRow, curWord := s.enc.curWord } = s.enc := by
  obtain ⟨-, -, he⟩ | ⟨-, he⟩ := drawStep_cases s <;> rw [he]
  · exact ⟨rfl, rfl, List.prefix_append _ _, advanceCursor_frame _⟩
  · exact ⟨rfl, rfl, List.prefix_refl _, rfl⟩

/-- A line change touches its own line, its own debouncer and the events' tail only (R289). -/
theorem lineChange_frame {i : Nat} {v : Bool} {s t : State} (h : lineChange i v s = .next t) :
    t = { s with btn := t.btn, deb := t.deb, events := t.events } ∧
    (∀ j, j ≠ i → t.deb[j]? = s.deb[j]? ∧ t.btn[j]? = s.btn[j]?) ∧ s.events <+: t.events := by
  obtain ⟨-, ⟨-, -, -, -, rfl⟩ | rfl⟩ := lineChange_cases h
  · exact ⟨rfl, fun j hj => ⟨List.getElem?_set_ne hj.symm, List.getElem?_set_ne hj.symm⟩, List.prefix_append _ _⟩
  · exact ⟨rfl, fun j hj => ⟨List.getElem?_set_ne hj.symm, List.getElem?_set_ne hj.symm⟩, List.prefix_refl _⟩

/-- Settles O53: each turn's frame, from the state with the turn taken off the schedule. -/
theorem agentsTouchOnlyTheirOwnState : Obligations.AgentsTouchOnlyTheirOwnState := by
  intro s t rest h
  refine ⟨fun hq => ?_, fun hq => ?_, fun i v hq => ?_, fun ms hq => ?_⟩ <;> rw [step_cons hq] at h
  · injection h with h
    exact h ▸ serializerStep_frame { s with schedule := rest }
  · injection h with h
    exact h ▸ drawStep_frame { s with schedule := rest }
  · exact lineChange_frame h
  · injection h with h
    rw [← h]
    exact ⟨rfl, by simp [advanceTime]⟩

end Sys2Proof.Machine

/-! SUPPORT. What RDREG answers: the number each packed register stands for, the register map of R58 and its gaps
(10_state.md R58, R59, 44_status.md R310, R311). -/

namespace Sys2Proof.Machine

open Sys2Proof.Claims
open Sys2Proof.Config (Params)

/-! ### The packed registers as numbers -/

@[simp] theorem toNat_code (ph : Phase) : ph.code.toNat = phaseNumber ph := by cases ph <;> rfl

/-- `SER.idle` as the register map of R58 spells it. -/
theorem idle_eq_decide (x : Ser) :
    idle x = decide (x.fifo.length = 0 ∧ x.osrCount = 0 ∧ x.phase = .shiftLow) := by
  rw [Bool.eq_iff_iff, idle_iff, decide_eq_true_eq, List.length_eq_zero_iff]

theorem serStatus_toNat {x : Ser} (ho : x.osrCount ≤ 32) (hf : x.fifo.length ≤ 255) : (serStatus x).toNat =
    x.configured.toNat + 2 * x.enabled.toNat +
      4 * (decide (x.fifo.length = 0 ∧ x.osrCount = 0 ∧ x.phase = .shiftLow)).toNat + 16 * phaseNumber x.phase +
      256 * x.fifo.length + 65536 * x.osrCount := by
  simp only [serStatus, toNat_concat, toNat_bit, toNat_code, ← idle_eq_decide, BitVec.toNat_ofNat]
  omega

theorem serPins_toNat (x : Ser) : (serPins x).toNat =
    x.dataPin.toNat + 256 * x.shiftPin.toNat + 65536 * x.latchPin.toNat + 2 ^ 24 * x.data.toNat +
      2 ^ 25 * x.shift.toNat + 2 ^ 26 * x.latch.toNat := by
  simp only [serPins, toNat_concat, toNat_bit, BitVec.toNat_ofNat]
  omega

theorem encStatus_toNat (e : Enc) :
    (encStatus e).toNat = e.configured.toNat + 2 * e.busy.toNat + 4 * e.warnRows.toNat := by
  simp only [encStatus, toNat_concat, toNat_bit, BitVec.toNat_ofNat]
  omega

theorem encGeom_toNat (e : Enc) : (encGeom e).toNat = e.rows.toNat + 256 * e.cols.toNat := by
  simp only [encGeom, toNat_concat, BitVec.toNat_ofNat]
  omega

theorem encLayout_toNat (e : Enc) : (encLayout e).toNat = e.layout.toNat := by
  simp only [encLayout, toNat_concat, BitVec.toNat_ofNat]
  omega

theorem encCursor_toNat (e : Enc) : (encCursor e).toNat = e.curRow.toNat + 256 * e.curWord.toNat := by
  simp only [encCursor, toNat_concat, BitVec.toNat_ofNat]
  omega

theorem errWord_toNat (r : ErrStat) :
    (errWord r).toNat = r.code.toNat + 256 * r.opcode.toNat + 65536 * r.valid.toNat := by
  simp only [errWord, toNat_concat, toNat_bit, BitVec.toNat_ofNat]
  omega

theorem params0_toNat {p : Params} (hp : p.wf) :
    (params0 p).toNat = p.fifoDepth + 256 * p.numPins + 65536 * p.numButtons := by
  simp only [params0, toNat_concat, BitVec.toNat_ofNat]
  omega

theorem params1_toNat {p : Params} (hp : p.wf) : (params1 p).toNat = p.maxCols := by
  simp only [params1, toNat_concat, BitVec.toNat_ofNat]
  omega

theorem params0_eq {p : Params} (hp : p.wf) :
    params0 p = BitVec.ofNat 32 (p.fifoDepth + 256 * p.numPins + 65536 * p.numButtons) := by
  rw [← params0_toNat hp, BitVec.ofNat_toNat, BitVec.setWidth_eq]

theorem params1_eq {p : Params} (hp : p.wf) : params1 p = BitVec.ofNat 32 p.maxCols := by
  rw [← params1_toNat hp, BitVec.ofNat_toNat, BitVec.setWidth_eq]

theorem debStatus_toNat (d : Deb) : (debStatus d).toNat = d.en.toNat + 2 * d.hasFired.toNat + 4 * d.lvl.toNat := by
  simp only [debStatus, toNat_concat, toNat_bit, BitVec.toNat_ofNat]
  omega

/-! ### RDREG -/

/-- RDREG of a mapped number (R310). -/
theorem exec_rdreg_of_register {s : State} {n : Nat} {v : Word} (h : register s n = some v) :
    exec (.rdreg n) s = .next (done s 0x00 v) := by
  simp only [exec, execRdreg, h]
  rfl

/-- RDREG of a mapped number, in the numbers of R58. -/
theorem exec_rdreg_of_toNat {s : State} {n m : Nat} {v : Word} (h : register s n = some v) (hv : v.toNat = m) :
    exec (.rdreg n) s = .next (done s 0x00 (BitVec.ofNat 32 m)) ∧ m < 2 ^ 32 := by
  subst hv
  rw [BitVec.ofNat_toNat, BitVec.setWidth_eq]
  exact ⟨exec_rdreg_of_register h, v.isLt⟩

/-- RDREG of an unmapped number (R310). -/
theorem exec_rdreg_of_register_none {s : State} {n : Nat} (h : register s n = none) :
    exec (.rdreg n) s = .next (failed s 0x22 0x40) := by
  simp only [exec, execRdreg, h]
  rfl

/-- The numbers below 0x40 that R58 does not map, and those past the last debouncer's registers. -/
theorem register_eq_none {s : State} {n : Nat}
    (h : (0x07 ≤ n ∧ n ≤ 0x0F) ∨ (0x17 ≤ n ∧ n ≤ 0x2F) ∨ (0x33 ≤ n ∧ n ≤ 0x3F) ∨
      0x40 + 4 * s.params.numButtons ≤ n) : register s n = none := by
  unfold register
  iterate 18 rw [if_neg (by omega)]

/-- The registers of a debouncer (R58). -/
theorem register_deb {s : State} {n : Nat} (h : 0x40 ≤ n) (h' : n < 0x40 + 4 * s.params.numButtons) :
    register s n = some (debReg (debAt s ((n - 0x40) / 4)) ((n - 0x40) % 4)) := by
  unfold register
  iterate 17 rw [if_neg (by omega)]
  rw [if_pos ⟨h, h'⟩]

/-- Register k of debouncer i (R58). -/
theorem register_deb_at {s : State} {i k : Nat} {d : Deb} (hi : i < s.params.numButtons) (hd : s.deb[i]? = some d)
    (hk : k < 4) : register s (0x40 + k + 4 * i) = some (debReg d k) := by
  have hdiv : (0x40 + k + 4 * i - 0x40) / 4 = i := by omega
  have hmod : (0x40 + k + 4 * i - 0x40) % 4 = k := by omega
  rw [register_deb (by omega) (by omega), hdiv, hmod, debAt, List.getD_eq_getElem?_getD, hd, Option.getD_some]

/-- Settles O46: each number of the map holds its packed register, which stands for the map's value. -/
theorem rdregReadsTheRegisterMap : Obligations.RdregReadsTheRegisterMap := by
  intro s hs
  constructor
  · have hfifo : s.ser.fifo.length ≤ 255 := Nat.le_trans hs.ser.fifo_le hs.params.1.2
    simp only [registerMap, List.forall_mem_cons]
    exact ⟨exec_rdreg_of_toNat rfl (serStatus_toNat hs.ser.osrCount_le hfifo),
      exec_rdreg_of_toNat rfl (serPins_toNat _), exec_rdreg_of_toNat rfl rfl, exec_rdreg_of_toNat rfl rfl,
      exec_rdreg_of_toNat rfl rfl, exec_rdreg_of_toNat rfl rfl, exec_rdreg_of_toNat rfl rfl,
      exec_rdreg_of_toNat rfl (encStatus_toNat _), exec_rdreg_of_toNat rfl (encGeom_toNat _),
      exec_rdreg_of_toNat rfl (encLayout_toNat _), exec_rdreg_of_toNat rfl rfl, exec_rdreg_of_toNat rfl rfl,
      exec_rdreg_of_toNat rfl rfl, exec_rdreg_of_toNat rfl (encCursor_toNat _),
      exec_rdreg_of_toNat rfl (errWord_toNat _), exec_rdreg_of_toNat rfl (params0_toNat hs.params),
      exec_rdreg_of_toNat rfl (params1_toNat hs.params), nofun⟩
  · intro i d hi hd
    simp only [debRegisterMap, List.forall_mem_cons]
    exact ⟨exec_rdreg_of_toNat (register_deb_at hi hd (k := 0) (by decide)) rfl,
      exec_rdreg_of_toNat (register_deb_at hi hd (k := 1) (by decide)) (debStatus_toNat d),
      exec_rdreg_of_toNat (register_deb_at hi hd (k := 2) (by decide)) rfl,
      exec_rdreg_of_toNat (register_deb_at hi hd (k := 3) (by decide)) rfl, nofun⟩

/-- Settles O47: the number falls in one of the gaps of R58. -/
theorem rdregOfAnUnmappedNumberFails : Obligations.RdregOfAnUnmappedNumberFails :=
  fun _ _ h => exec_rdreg_of_register_none (register_eq_none (h.imp_right (.imp_right (.imp_right And.left))))

/-! ### The registers after reset -/

/-- Every debouncer is a reset one (R371). -/
theorem debAt_resetWith (p : Params) (i : Nat) : debAt (State.resetWith p) i = .reset := by
  simp only [debAt, State.resetWith, List.getD_eq_getElem?_getD, List.getElem?_replicate]
  split <;> rfl

/-- A reset debouncer shows its default interval and zeros (R59). -/
theorem debReg_reset (k : Nat) : debReg .reset k = if k = 0 then 0x0000012C else 0 := by
  unfold debReg
  split_ifs <;> rfl

/-- The registers of a debouncer after reset (R59). -/
theorem register_resetWith_deb {p : Params} {n : Nat} (h : 0x40 ≤ n) (h' : n < 0x40 + 4 * p.numButtons) :
    register (State.resetWith p) n = some (if (n - 0x40) % 4 = 0 then 0x0000012C else 0) := by
  rw [register_deb h h', debAt_resetWith, debReg_reset]

theorem serStatus_reset : serStatus .reset = 0x00000004 := by decide

theorem serPins_reset : serPins .reset = 0 := by decide

theorem encStatus_reset : encStatus .reset = 0 := by decide

theorem encGeom_reset : encGeom .reset = 0 := by decide

theorem encLayout_reset : encLayout .reset = 0x00000015 := by decide

theorem encCursor_reset : encCursor .reset = 0 := by decide

theorem errWord_reset : errWord .reset = 0 := by decide

/-- The registers below 0x40 after reset (R59): the idle serializer, the default layout, the parameters, and zeros. -/
theorem register_resetWith_low {p : Params} (hp : p.wf) {n : Nat}
    (h : n ≤ 0x06 ∨ (0x10 ≤ n ∧ n ≤ 0x16) ∨ (0x30 ≤ n ∧ n ≤ 0x32)) :
    register (State.resetWith p) n = some
      (if n = 0x00 then 0x00000004
       else if n = 0x12 then 0x00000015
       else if n = 0x31 then BitVec.ofNat 32 (p.fifoDepth + 256 * p.numPins + 65536 * p.numButtons)
       else if n = 0x32 then BitVec.ofNat 32 p.maxCols
       else 0x00000000) := by
  rcases h with h | ⟨h, h'⟩ | ⟨h, h'⟩
  · interval_cases n
    exacts [congrArg some serStatus_reset, congrArg some serPins_reset, rfl, rfl, rfl, rfl, rfl]
  · interval_cases n
    exacts [congrArg some encStatus_reset, congrArg some encGeom_reset, congrArg some encLayout_reset, rfl, rfl, rfl,
      congrArg some encCursor_reset]
  · interval_cases n
    exacts [congrArg some errWord_reset, congrArg some (params0_eq hp), congrArg some (params1_eq hp)]

/-- Settles O49: one value for each number below 0x40, and the debouncers' registers. -/
theorem registersAfterReset : Obligations.RegistersAfterReset := by
  intro p hp n h
  rcases Nat.lt_or_ge n 0x40 with hlt | hge
  · have hreg := register_resetWith_low hp (n := n) (by omega)
    rw [if_neg (by omega : ¬(0x40 ≤ n ∧ (n - 0x40) % 4 = 0))]
    exact exec_rdreg_of_register hreg
  · have hreg := register_resetWith_deb hge (p := p) (by omega)
    rw [if_neg (by omega), if_neg (by omega), if_neg (by omega), if_neg (by omega)]
    simpa [hge] using exec_rdreg_of_register hreg

end Sys2Proof.Machine

/-! SUPPORT. The order of the bits that leave (20_memory.md R91), what a step can do while the host waits for its draw
(R94), and the words that a draw puts in the queue, held or not (R92, 41_encoder.md R220). -/

namespace Sys2Proof.Machine

open Sys2Proof.Claims

/-! ### The bits to be sent -/

/-- Sending one bit takes the first of those still to be sent (R160). -/
theorem outBits_shiftOut {x : Ser} (hpos : 0 < x.osrCount) (hle : x.osrCount ≤ 32) :
    outBits x = (shiftOut x).data :: outBits (shiftOut x) := by
  obtain ⟨n, hn⟩ := Nat.exists_eq_add_of_lt hpos
  rw [Nat.zero_add] at hn
  simp only [outBits, shiftOut, hn, Nat.add_sub_cancel]
  rw [take_wordBits_succ _ (by omega), List.cons_append]

/-- A pop at a word boundary leaves the bits to be sent as they are (R160). -/
theorem outBits_pop {x : Ser} (h0 : x.osrCount = 0) {w : Word} {ws : List Word} (hf : x.fifo = w :: ws) :
    outBits { x with fifo := ws, osr := w, osrCount := 32 } = outBits x := by
  simp only [outBits, h0, hf, wordBits_eq_take, List.take_zero, List.nil_append, List.flatMap_cons]

/-- A word pushed on the queue is sent after all that is there (R40). -/
theorem outBits_fifoPush (w : Word) (x : Ser) : outBits (fifoPush w x) = outBits x ++ wordBits w := by
  simp [outBits]

/-- Settles O16: a tick in SHIFT_LOW is a send, after a pop at a word boundary, the other ticks touch neither word nor
queue, and a SENQ that changes the queue is a push. -/
theorem bitsLeaveInTheOrderTheyCame : Obligations.BitsLeaveInTheOrderTheyCame := by
  refine ⟨fun x y hle ht => ?_, fun w s t he hne => ?_, fun w k hk => ?_⟩
  · obtain ⟨-, -, ⟨w, ws, hp, h0, hf, rfl⟩ | ⟨hp, hpos, rfl⟩ | ⟨hp, rfl⟩ | ⟨hp, rfl⟩ | ⟨hp, rfl⟩⟩ := tick_cases ht
    · exact ⟨fun _ => (outBits_pop h0 hf).symm.trans (outBits_shiftOut (by simp) (Nat.le_refl _)),
        fun hn => absurd hp hn⟩
    · exact ⟨fun _ => outBits_shiftOut hpos hle, fun hn => absurd hp hn⟩
    all_goals exact ⟨fun hlow => by simp [hp] at hlow, fun _ => rfl⟩
  · obtain ⟨-, -, rfl⟩ | ⟨-, -, rfl⟩ | ⟨-, rfl⟩ := execSenq_cases he
    · exact absurd rfl hne
    · exact outBits_fifoPush w s.ser
    · exact absurd rfl hne
  · rw [getElem?_wordBits, if_pos hk]

/-! ### A step while the host waits for its draw -/

/-- A step is what the next turn does, with the turn taken. -/
theorem step_eq_runTurn_nextTurn (s : State) :
    ∃ rest n, step s = runTurn (nextTurn s) { s with schedule := rest, choices := n } := by
  unfold nextTurn
  cases hq : s.schedule with
  | nil => exact ⟨s.schedule, _, step_nil hq⟩
  | cons u rest => exact ⟨_, _, step_cons hq⟩

/-- A queue without room (R40). -/
theorem le_length_of_fifoFull {s : State} (h : fifoFull s = true) : s.params.fifoDepth ≤ s.ser.fifo.length :=
  of_decide_eq_true h

/-- The turn u puts a word of the draw in the queue: the draw engine's, in a draw, with room in the queue (R220). -/
abbrev PushTurn (u : Turn) (s : State) : Prop :=
  u = .agent .drawEngine ∧ s.enc.busy = true ∧ s.ser.fifo.length < s.params.fifoDepth

/-- What becomes of queue and encoder in a turn u that leads from s to t while the host waits for its draw: the draw
engine pushes the word at its cursor, or the encoder stays and the queue loses at most the word that the serializer
pops (R94, R220). -/
def DrawTurn (u : Turn) (s t : State) : Prop :=
  (PushTurn u s ∧ t.ser.fifo = s.ser.fifo ++ [sliceWord s.enc s.enc.curRow.toNat s.enc.curWord.toNat] ∧
    t.enc = advanceCursor s.enc) ∨
  (¬PushTurn u s ∧ t.enc = s.enc ∧
    (t.ser.fifo = s.ser.fifo ∨ (u = .agent .serializer ∧ t.ser.fifo = s.ser.fifo.tail)))

/-- The host stays held by the draw that is in progress, without a response (R219). -/
def KeepsHostHeld (s t : State) : Prop :=
  s.enc.busy = true → t.wait = .draw ∧ t.port = s.port ∧ t.responses = s.responses

section WaitingHost

variable {u : Turn} {s t : State} (hw : s.wait = .draw)
include hw

/-- The host's turn holds, or ends its wait once the draw is over (R221). -/
theorem hostStep_drawTurn (h : hostStep s = .next t) : DrawTurn (.agent .host) s t ∧ KeepsHostHeld s t := by
  obtain ⟨-, -, he⟩ | ⟨-, hb, he⟩ | ⟨_, hn, -, -⟩ | ⟨_, _, hn, -, -, -⟩ | ⟨hn, -, -, -⟩ := hostStep_cases s
  · rw [he] at h
    cases h
    exact ⟨.inr ⟨nofun, rfl, .inl rfl⟩, fun _ => ⟨hw, rfl, rfl⟩⟩
  · rw [he] at h
    cases h
    exact ⟨.inr ⟨nofun, rfl, .inl rfl⟩, fun hb' => absurd (hb.symm.trans hb') nofun⟩
  all_goals exact absurd (hw.symm.trans hn) nofun

/-- The draw engine's turn pushes, or holds without changing anything (R220). -/
theorem drawStep_drawTurn : DrawTurn (.agent .drawEngine) s (drawStep s) ∧ KeepsHostHeld s (drawStep s) := by
  obtain ⟨hb, hf, he⟩ | ⟨hhold, he⟩ := drawStep_cases s <;> rw [he]
  · exact ⟨.inl ⟨⟨rfl, hb, length_lt_of_not_fifoFull hf⟩, rfl, rfl⟩, fun _ => ⟨hw, rfl, rfl⟩⟩
  · have hno : ¬PushTurn (.agent .drawEngine) s := by
      rintro ⟨-, hb, hroom⟩
      rcases hhold with hn | hf
      · exact absurd (hb.symm.trans hn) nofun
      · exact absurd hroom (Nat.not_lt.2 (le_length_of_fifoFull hf))
    exact ⟨.inr ⟨hno, rfl, .inl rfl⟩, fun _ => ⟨hw, rfl, rfl⟩⟩

/-- The serializer's turn pops at most one word (R160). -/
theorem serializerStep_drawTurn :
    DrawTurn (.agent .serializer) s (serializerStep s) ∧ KeepsHostHeld s (serializerStep s) := by
  obtain ⟨hs, -, hf⟩ := serializerStep_frame s
  rw [hs]
  exact ⟨.inr ⟨nofun, rfl, hf.imp_right fun h => ⟨rfl, h⟩⟩, fun _ => ⟨hw, rfl, rfl⟩⟩

/-- Every turn but RESET, while the host waits for its draw. -/
theorem runTurn_drawTurn (hu : u ≠ .reset) (h : runTurn u s = .next t) : DrawTurn u s t ∧ KeepsHostHeld s t := by
  cases u with
  | agent a =>
    cases a with
    | host => exact hostStep_drawTurn hw h
    | drawEngine => cases h; exact drawStep_drawTurn hw
    | serializer => cases h; exact serializerStep_drawTurn hw
  | advanceTime ms => cases h; exact ⟨.inr ⟨nofun, rfl, .inl rfl⟩, fun _ => ⟨hw, rfl, rfl⟩⟩
  | lineChange i v =>
    rw [(lineChange_frame h).1]
    exact ⟨.inr ⟨nofun, rfl, .inl rfl⟩, fun _ => ⟨hw, rfl, rfl⟩⟩
  | reset => exact absurd rfl hu
  | foreignWrite y k b => cases h
  | primitive p => cases h

/-- Every step but RESET, while the host waits for its draw. -/
theorem step_drawTurn (hu : nextTurn s ≠ .reset) (h : step s = .next t) :
    DrawTurn (nextTurn s) s t ∧ KeepsHostHeld s t := by
  obtain ⟨rest, n, he⟩ := step_eq_runTurn_nextTurn s
  exact runTurn_drawTurn (s := { s with schedule := rest, choices := n }) hw hu (he ▸ h)

end WaitingHost

/-- Such a turn moves at most the cursor and ends at most the draw (R94). -/
theorem DrawTurn.enc_frame {u : Turn} {s t : State} (h : DrawTurn u s t) :
    { t.enc with busy := s.enc.busy, curRow := s.enc.curRow, curWord := s.enc.curWord } = s.enc := by
  obtain ⟨-, -, he⟩ | ⟨-, he, -⟩ := h <;> rw [he]
  exact advanceCursor_frame s.enc

/-- Settles O36: while the host waits, only the draw engine touches the encoder, and it moves its cursor. -/
theorem framebufferIsStableDuringADraw : Obligations.FramebufferIsStableDuringADraw := by
  intro s t hw hu h
  obtain ⟨hturn, hheld⟩ := step_drawTurn hw hu h
  exact ⟨hturn.enc_frame, hheld⟩

/-! ### The words of a draw -/

/-- Such a turn leaves the words of the draw as they are (R94). -/
theorem DrawTurn.drawWords_eq {u : Turn} {s t : State} (h : DrawTurn u s t) : drawWords t.enc = drawWords s.enc :=
  (drawWords_cursor t.enc _ _ _).symm.trans (congrArg drawWords h.enc_frame)

/-- Between draws there are no words to come. -/
theorem wordsToCome_of_not_busy {e : Enc} (hb : e.busy = false) : wordsToCome e = [] := by simp [wordsToCome, hb]

/-- The word at the cursor is the next of those to come (R220). -/
theorem Inv.wordsToCome_cons {s : State} (hs : Inv s) (hb : s.enc.busy = true) :
    wordsToCome s.enc =
      sliceWord s.enc s.enc.curRow.toNat s.enc.curWord.toNat :: wordsToCome (advanceCursor s.enc) := by
  obtain ⟨hc, hrow, hword⟩ := hs.enc.cursor_busy hb
  exact wordsToCome_push hb hrow hword (hs.enc.geom hc).wordsPerRow_lt

/-- Such a turn puts the next of the words to come at the tail of the queue, or none (R92, R220). -/
theorem DrawTurn.pushes_next {u : Turn} {s t : State} (hs : Inv s) (h : DrawTurn u s t) :
    ∃ pushed, wordsToCome s.enc = pushed ++ wordsToCome t.enc ∧
      pushed.length = (if PushTurn u s then 1 else 0) ∧
      (t.ser.fifo = s.ser.fifo ++ pushed ∨
        (u = .agent .serializer ∧ t.ser.fifo = s.ser.fifo.tail ∧ pushed = [])) := by
  obtain ⟨hpush, hf, he⟩ | ⟨hno, he, hf⟩ := h
  · refine ⟨_, ?_, (if_pos hpush).symm, .inl hf⟩
    rw [he, hs.wordsToCome_cons hpush.2.1]
    rfl
  · refine ⟨[], by rw [he, List.nil_append], (if_neg hno).symm, ?_⟩
    rw [List.append_nil]
    exact hf.imp_right fun ⟨hu, htail⟩ => ⟨hu, htail, rfl⟩

/-- Settles O57: the word pushed moves from the words to come to those pushed so far. -/
theorem drawStepsKeepTheWordsInOrder : Obligations.DrawStepsKeepTheWordsInOrder := by
  intro s t sofar hs hw hu h hwords
  obtain ⟨hturn, -⟩ := step_drawTurn hw hu h
  obtain ⟨pushed, hcome, hlen, hfifo⟩ := hturn.pushes_next hs
  refine ⟨hturn.drawWords_eq, pushed, ?_, hlen, hfifo⟩
  rw [hturn.drawWords_eq, List.append_assoc, ← hcome, hwords]

/-- The words that such a turn adds at the tail of the queue, then those to come after it, are those to come before it
(R92). -/
theorem DrawTurn.drop_append_wordsToCome {u : Turn} {s t : State} (hs : Inv s) (h : DrawTurn u s t) :
    t.ser.fifo.drop s.ser.fifo.length ++ wordsToCome t.enc = wordsToCome s.enc := by
  obtain ⟨pushed, hcome, -, hf | ⟨-, hf, rfl⟩⟩ := h.pushes_next hs
  · rw [hf, List.drop_left, hcome]
  · rw [hf, List.drop_eq_nil_of_le (by rw [List.length_tail]; exact Nat.sub_le _ _), hcome]

/-- A first step, and the draw lasts for the rest. -/
theorem drawLasts_of_step {n : Nat} {s t : State} (h : step s = .next t) (hl : DrawLasts (n + 1) s) : DrawLasts n t :=
  fun k v hk hv => hl (k + 1) v (Nat.succ_lt_succ hk) ((run_succ k h).trans hv)

/-- A run of at least one step has a first step and a rest. -/
theorem exists_step_of_run_succ {n : Nat} {s t : State} (h : run (n + 1) s = .next t) :
    ∃ u, step s = .next u ∧ run n u = .next t := by
  cases hstep : step s with
  | next u => exact ⟨u, rfl, (run_succ n hstep).symm.trans h⟩
  | fault f => simp [run, hstep] at h
  | refused r => simp [run, hstep] at h

/-- In any run of a draw, from any point of it: the words pushed in the run, then those to come, are those to come at its
start (R92). -/
theorem pushedBy_append_wordsToCome {n : Nat} {s t : State} (hs : Inv s) (hl : DrawLasts n s)
    (hr : run n s = .next t) : pushedBy n s ++ wordsToCome t.enc = wordsToCome s.enc := by
  induction n generalizing s with
  | zero =>
    cases hr
    rfl
  | succ n ih =>
    obtain ⟨u, hstep, hrest⟩ := exists_step_of_run_succ hr
    obtain ⟨hw, hu⟩ := hl 0 s (Nat.succ_pos n) rfl
    obtain ⟨hturn, -⟩ := step_drawTurn hw hu hstep
    calc pushedBy (n + 1) s ++ wordsToCome t.enc
        = u.ser.fifo.drop s.ser.fifo.length ++ (pushedBy n u ++ wordsToCome t.enc) := by
          simp only [pushedBy, hstep, List.append_assoc]
      _ = u.ser.fifo.drop s.ser.fifo.length ++ wordsToCome u.enc := by
          rw [ih (hs.step hstep) (drawLasts_of_step hstep hl) hrest]
      _ = wordsToCome s.enc := hturn.drop_append_wordsToCome hs

/-- Settles O58: a draw that has just started has all of its words to come. -/
theorem drawUnderBackpressurePushesItsWordsInOrder : Obligations.DrawUnderBackpressurePushesItsWordsInOrder := by
  rintro s t n hs ⟨-, hb, hrow, hword⟩ hl hr
  rw [pushedBy_append_wordsToCome hs hl hr, wordsToCome_start hb hrow hword]

/-! ### A draw that fits in the queue -/

/-- The draw engine's turn in a draw, with room in the queue (R220). -/
theorem step_push {s : State} {rest : List Turn} (hq : s.schedule = .agent .drawEngine :: rest)
    (hb : s.enc.busy = true) (hroom : s.ser.fifo.length < s.params.fifoDepth) :
    step s = .next { s with
      schedule := rest, ser := fifoPush (sliceWord s.enc s.enc.curRow.toNat s.enc.curWord.toNat) s.ser,
      enc := advanceCursor s.enc } := by
  rw [step_cons hq]
  obtain ⟨-, -, he⟩ | ⟨hn | hf, -⟩ := drawStep_cases { s with schedule := rest }
  · exact congrArg _ he
  · exact absurd (hb.symm.trans hn) nofun
  · exact absurd hroom (Nat.not_lt.2 (le_length_of_fifoFull hf))

/-- The encoder after its draw, the cursor back at 0 (R220). -/
def drawEnded (e : Enc) : Enc := { e with busy := false, curRow := 0, curWord := 0 }

/-- The cursor's move does not show once the draw has ended. -/
theorem drawEnded_advanceCursor (e : Enc) : drawEnded (advanceCursor e) = drawEnded e :=
  (congrArg drawEnded (advanceCursor_frame e) :)

/-- With no words to come the draw has ended (R50, R220). -/
theorem Inv.drawEnded_of_wordsToCome_nil {s : State} (hs : Inv s) (h : wordsToCome s.enc = []) :
    s.enc.busy = false ∧ drawEnded s.enc = s.enc := by
  rcases hb : s.enc.busy with _ | _
  · obtain ⟨hrow, hword⟩ := hs.enc.cursor_idle hb
    refine ⟨rfl, ?_⟩
    rw [drawEnded, ← hrow, ← hword, ← hb]
  · rw [hs.wordsToCome_cons hb] at h
    cases h

/-- From any point of a draw, with room for the words to come: as many turns of the draw engine push them all, in order,
and end the draw (R220). -/
theorem run_wordsToCome {s : State} {n : Nat} {rest : List Turn} (hs : Inv s) (hn : (wordsToCome s.enc).length = n)
    (hroom : s.ser.fifo.length + n ≤ s.params.fifoDepth)
    (hq : s.schedule = List.replicate n (.agent .drawEngine) ++ rest) :
    run n s = .next { s with
      schedule := rest, ser := { s.ser with fifo := s.ser.fifo ++ wordsToCome s.enc }, enc := drawEnded s.enc } := by
  induction n generalizing s with
  | zero =>
    have hnil := List.eq_nil_of_length_eq_zero hn
    have hrest : s.schedule = rest := hq
    rw [(hs.drawEnded_of_wordsToCome_nil hnil).2, hnil, List.append_nil, ← hrest]
    rfl
  | succ n ih =>
    have hb : s.enc.busy = true := by
      rcases hb : s.enc.busy with _ | _
      · rw [wordsToCome_of_not_busy hb] at hn
        cases hn
      · rfl
    rw [List.replicate_succ, List.cons_append] at hq
    have hstep := step_push hq hb (by omega)
    have hcons := hs.wordsToCome_cons hb
    rw [hcons, List.length_cons] at hn
    rw [run_succ n hstep, ih (hs.step hstep) (by simpa using hn) (by simp; omega) rfl]
    simp only [fifoPush, drawEnded_advanceCursor, hcons, List.append_assoc, List.singleton_append]

/-- The words of a draw in terms of the padded size (R9, R217). -/
theorem GeomInv.rows_mul_paddedSize_div {p : Config.Params} {e : Enc} (g : GeomInv p e) :
    e.rows.toNat * e.paddedSize.toNat / 4 = e.rows.toNat * wordsPerRow e :=
  Nat.mul_div_assoc _ (g.paddedSize_eq ▸ Nat.dvd_mul_right 4 _)

/-- Settles O35: the draw that starts has all of its words to come, and the queue has room for them. -/
theorem drawPushesEveryRowInOrder : Obligations.DrawPushesEveryRowInOrder := by
  intro s n rest hs hb hrow hword hn hroom hq
  obtain ⟨hc, -, -⟩ := hs.enc.cursor_busy hb
  have hlen : (drawWords s.enc).length = n := by
    rw [length_drawWords, hn, (hs.enc.geom hc).rows_mul_paddedSize_div]
  have hcome := wordsToCome_start hb hrow hword
  refine ⟨hlen, ?_⟩
  rw [run_wordsToCome hs (hcome ▸ hlen) hroom hq, hcome, drawEnded, ← hrow, ← hword]

end Sys2Proof.Machine

/-! SUPPORT. Encoding and decoding are inverse (30_encoding.md R112, R115): the fields of a packed word are the operands
it was packed from, and a legal word is its opcode and its fields put together again. -/

namespace Sys2Proof

/-! ### From a command to its word and back -/

/-- The word of every well-formed command has its row's opcode, and every reserved bit clear. -/
theorem encodesItsRow (i : Instr) : Laws.EncodesItsRow.Statement i := by
  cases i with
  | scfg => exact Laws.EncodesItsRow.scfg _ _ _ _ _
  | sstart => exact Laws.EncodesItsRow.sstart
  | sstop => exact Laws.EncodesItsRow.sstop
  | senq => exact Laws.EncodesItsRow.senq _
  | ecfg => exact Laws.EncodesItsRow.ecfg _ _ _ _ _
  | edraw => exact Laws.EncodesItsRow.edraw
  | fpix => exact Laws.EncodesItsRow.fpix _ _ _
  | fpget => exact Laws.EncodesItsRow.fpget _ _
  | ffill => exact Laws.EncodesItsRow.ffill _
  | frect => exact Laws.EncodesItsRow.frect _ _ _ _ _
  | dcfg => exact Laws.EncodesItsRow.dcfg _ _ _
  | rdreg => exact Laws.EncodesItsRow.rdreg _
  | clrerr => exact Laws.EncodesItsRow.clrerr

/-- A field of a packed word holds the number that stands there among the operand bits. -/
theorem fieldOf_pack_eq {o : Op} {low lo len n : Nat} (h : low < 2 ^ 56) (hl : lo + len ≤ 56)
    (hn : low / 2 ^ lo % 2 ^ len = n) : fieldOf (pack o low) lo len = n :=
  (fieldOf_pack o low lo len h hl).trans hn

/-- The bit string of a bit string's number. -/
theorem ofNat_eq_of_eq_toNat {n k : Nat} {v : BitVec n} (h : k = v.toNat) : BitVec.ofNat n k = v := by
  rw [h, BitVec.ofNat_toNat, BitVec.setWidth_eq]

/-- A one-bit field holding a Boolean reads as it. -/
theorem flagOf_eq {w : Command} {lo : Nat} {b : Bool} (h : fieldOf w lo 1 = b.toNat) : flagOf w lo = b := by
  rw [flagOf, h]
  cases b <;> rfl

/-- A 32-bit field holding a word reads as it. -/
theorem wordOf_eq {w : Command} {lo : Nat} {v : Word} (h : fieldOf w lo 32 = v.toNat) : wordOf w lo = v :=
  ofNat_eq_of_eq_toNat h

/-- The fields of a command's word are its operands (R112, R115). -/
theorem operandsOf_encode {i : Instr} (h : i.wf = true) : operandsOf i.op (encode i) = i := by
  cases i with
  | scfg d s l f c =>
    simp only [Instr.wf, Bool.and_eq_true, decide_eq_true_eq] at h
    refine Instr.scfg.injEq .. ▸ ⟨?_, ?_, ?_, ?_, ?_⟩ <;> exact fieldOf_pack_eq (by omega) (by omega) (by omega)
  | senq v =>
    have := v.isLt
    exact congrArg Instr.senq (wordOf_eq (fieldOf_pack_eq (by omega) (by omega) (by omega)))
  | ecfg r c d s lay =>
    simp only [Instr.wf, Bool.and_eq_true, decide_eq_true_eq] at h
    have := lay.isLt
    refine Instr.ecfg.injEq .. ▸ ⟨?_, ?_, ?_, ?_, ofNat_eq_of_eq_toNat ?_⟩ <;>
      exact fieldOf_pack_eq (by omega) (by omega) (by omega)
  | fpix x y c =>
    simp only [Instr.wf, Bool.and_eq_true, decide_eq_true_eq] at h
    have := Bool.toNat_lt c
    refine Instr.fpix.injEq .. ▸ ⟨?_, ?_, flagOf_eq ?_⟩ <;> exact fieldOf_pack_eq (by omega) (by omega) (by omega)
  | fpget x y =>
    simp only [Instr.wf, Bool.and_eq_true, decide_eq_true_eq] at h
    refine Instr.fpget.injEq .. ▸ ⟨?_, ?_⟩ <;> exact fieldOf_pack_eq (by omega) (by omega) (by omega)
  | ffill c =>
    have := Bool.toNat_lt c
    exact congrArg Instr.ffill (flagOf_eq (fieldOf_pack_eq (by omega) (by omega) (by omega)))
  | frect x y w h' c =>
    simp only [Instr.wf, Bool.and_eq_true, decide_eq_true_eq] at h
    have := Bool.toNat_lt c
    refine Instr.frect.injEq .. ▸ ⟨?_, ?_, ?_, ?_, flagOf_eq ?_⟩ <;>
      exact fieldOf_pack_eq (by omega) (by omega) (by omega)
  | dcfg n en v =>
    simp only [Instr.wf, decide_eq_true_eq] at h
    have := Bool.toNat_lt en
    have := v.isLt
    refine Instr.dcfg.injEq .. ▸ ⟨?_, flagOf_eq ?_, wordOf_eq ?_⟩ <;>
      exact fieldOf_pack_eq (by omega) (by omega) (by omega)
  | rdreg n =>
    simp only [Instr.wf, decide_eq_true_eq] at h
    exact congrArg Instr.rdreg (fieldOf_pack_eq (by omega) (by omega) (by omega))
  | sstart | sstop | edraw | clrerr => rfl

/-- Settles O1: the word has its row's opcode and no reserved bit, so the decoder reads its fields, the operands. -/
theorem decodeOfEncodeIsTheCommand : Obligations.DecodeOfEncodeIsTheCommand := by
  intro i hwf
  obtain ⟨hop, hres⟩ := encodesItsRow i hwf
  exact decode_ok_iff.2 ⟨i.op, hop, hres, operandsOf_encode hwf⟩

/-! ### From a legal word to its command and back -/

/-- A word is the packing of its opcode and its low 56 bits. -/
theorem pack_eq_of_opcodeOf {w : Command} {o : Op} {low : Nat} (ho : opcodeOf w = o.code)
    (hl : low = w.toNat % 2 ^ 56) : pack o low = w := by
  have := w.isLt
  apply BitVec.eq_of_toNat_eq
  rw [pack_toNat o low (by omega), ← ho, opcodeOf, BitVec.toNat_ofNat]
  omega

/-- A one-bit field as a number. -/
theorem toNat_flagOf (w : Command) (lo : Nat) : (flagOf w lo).toNat = fieldOf w lo 1 := by
  have hlt := fieldOf_lt w lo 1
  obtain h | h : fieldOf w lo 1 = 0 ∨ fieldOf w lo 1 = 1 := by omega
  all_goals rw [flagOf, h]; rfl

/-- A 32-bit field as a number. -/
theorem toNat_wordOf (w : Command) (lo : Nat) : (wordOf w lo).toNat = fieldOf w lo 32 := by
  rw [wordOf, BitVec.toNat_ofNat, Nat.mod_eq_of_lt (fieldOf_lt w lo 32)]

/-- The fields of a legal word, put together again, give the word: they and the reserved bits, which are 0, are all of
its low 56 bits (R113, R115). -/
theorem encode_operandsOf {w : Command} {o : Op} (ho : opcodeOf w = o.code) (hr : reservedClear o w = true) :
    encode (operandsOf o w) = w := by
  cases o
  all_goals
    simp only [reservedClear, Op.reserved, List.all_cons, List.all_nil, Bool.and_true, beq_iff_eq, fieldOf] at hr
    simp only [operandsOf, encode, toNat_flagOf, toNat_wordOf, BitVec.toNat_ofNat, fieldOf]
    exact pack_eq_of_opcodeOf ho (by omega)

/-- Settles O2: a legal word has its row's opcode and no reserved bit, so its fields make it up. -/
theorem encodeOfDecodeIsTheWord : Obligations.EncodeOfDecodeIsTheWord := by
  intro w i h
  refine ⟨wf_of_decode h, ?_⟩
  obtain ⟨o, ho, hr, rfl⟩ := decode_ok_iff.1 h
  exact encode_operandsOf ho hr

end Sys2Proof

/-! SUPPORT. The decoder's tests as masks (30_encoding.md R113, R116): a field is the word under a mask, so the opcode
and the reserved bits of a row are two masks, which together are the row's mask. -/

namespace Sys2Proof

/-! ### The opcode -/

/-- The opcode as a number. -/
theorem toNat_opcodeOf (w : Command) : (opcodeOf w).toNat = w.toNat / 2 ^ 56 := by
  have := w.isLt
  rw [opcodeOf, BitVec.toNat_ofNat]
  omega

/-- The opcode as a slice of the word (R110). -/
theorem extractLsb'_eq_opcodeOf (w : Command) : w.extractLsb' 56 8 = opcodeOf w := by
  apply BitVec.eq_of_toNat_eq
  rw [BitVec.extractLsb'_toNat, opcodeOf, BitVec.toNat_ofNat, Nat.shiftRight_eq_div_pow]

/-- An opcode is in no row when it is no row's (R117). -/
theorem ofCode_eq_none {c : BitVec 8} (h : ∀ o : Op, o.code ≠ c) : Op.ofCode c = none := by
  cases hc : Op.ofCode c with
  | none => rfl
  | some o => exact absurd (code_of_ofCode hc) (h o)

/-! ### Fields as masks -/

/-- The mask of `cmd[lo+len-1:lo]`: len ones, the lowest at bit lo. -/
def fieldMask (lo len : Nat) : Command := BitVec.ofNat 64 ((2 ^ len - 1) <<< lo)

/-- The mask of the reserved bits of a format (R113, R115). -/
def Op.reservedMask (o : Op) : Command := o.reserved.foldr (fun r m => fieldMask r.1 r.2 ||| m) 0#64

/-- A word under a field's mask is the field at its place. -/
theorem toNat_and_fieldMask (w : Command) {lo len : Nat} (h : lo + len ≤ 64) :
    (w &&& fieldMask lo len).toNat = fieldOf w lo len <<< lo := by
  apply Nat.eq_of_testBit_eq
  intro k
  simp only [fieldMask, fieldOf, BitVec.toNat_and, BitVec.toNat_ofNat, Nat.testBit_and, Nat.testBit_mod_two_pow,
    Nat.testBit_shiftLeft, Nat.testBit_two_pow_sub_one, Nat.testBit_div_two_pow]
  by_cases hin : lo ≤ k ∧ k - lo < len
  · have hk : k < 64 := by omega
    simp [hin, hk]
  · rw [not_and'] at hin
    by_cases hlen : k - lo < len
    · simp [hin hlen]
    · simp [hlen]

/-- A field is 0 exactly when the word has no bit under its mask. -/
theorem and_fieldMask_eq_zero_iff (w : Command) {lo len : Nat} (h : lo + len ≤ 64) :
    w &&& fieldMask lo len = 0#64 ↔ fieldOf w lo len = 0 := by
  rw [← BitVec.toNat_inj, toNat_and_fieldMask w h]
  exact Nat.shiftLeft_eq_zero_iff

/-- The reserved bits of a format are clear exactly when the word has no bit under their mask. -/
theorem reservedClear_iff (o : Op) (w : Command) : reservedClear o w = true ↔ w &&& o.reservedMask = 0#64 := by
  have hin : ∀ r ∈ o.reserved, r.1 + r.2 ≤ 64 := by cases o <;> decide
  unfold reservedClear Op.reservedMask
  generalize o.reserved = rs at hin
  induction rs with
  | nil => simp
  | cons r rs ih =>
    obtain ⟨hr, hrs⟩ := List.forall_mem_cons.1 hin
    rw [List.all_cons, Bool.and_eq_true, beq_iff_eq, ← and_fieldMask_eq_zero_iff w hr, List.foldr_cons,
      BitVec.and_or_distrib_left, BitVec.or_eq_zero_iff]
    exact and_congr_right fun _ => ih hrs

/-- The opcode is a row's exactly when the word matches under the opcode's mask. -/
theorem and_opcodeMask_eq_pattern_iff (o : Op) (w : Command) :
    w &&& fieldMask 56 8 = o.pattern ↔ opcodeOf w = o.code := by
  have hpat : o.pattern.toNat = o.code.toNat <<< 56 := by cases o <;> rfl
  have hfield : fieldOf w 56 8 = (opcodeOf w).toNat := by rw [opcodeOf, BitVec.toNat_ofNat, fieldOf]
  rw [← BitVec.toNat_inj, toNat_and_fieldMask w (by omega), hpat, hfield, ← BitVec.toNat_inj]
  exact ⟨fun h => by simpa [Nat.shiftLeft_eq] using h, fun h => by rw [h]⟩

/-! ### The columns of the opcode map -/

/-- A row's mask is the opcode and the reserved bits (R116). -/
theorem mask_eq (o : Op) : o.mask = fieldMask 56 8 ||| o.reservedMask := by cases o <;> decide

/-- A row's pattern has bits of the opcode only (R116). -/
theorem pattern_and_opcodeMask (o : Op) : o.pattern &&& fieldMask 56 8 = o.pattern := by cases o <;> decide

/-- No reserved bit is a bit of the opcode. -/
theorem opcodeMask_and_reservedMask (o : Op) : fieldMask 56 8 &&& o.reservedMask = 0#64 := by cases o <;> decide

/-- Under two masks without a common bit, a word matches a pattern of the first when it matches it there and is 0 under
the second. -/
theorem and_or_eq_iff {n : Nat} {w a b p : BitVec n} (hp : p &&& a = p) (hab : a &&& b = 0#n) :
    w &&& (a ||| b) = p ↔ w &&& a = p ∧ w &&& b = 0#n := by
  have hpb : p &&& b = 0#n := by rw [← hp, BitVec.and_assoc, hab, BitVec.and_zero]
  have ha : (a ||| b) &&& a = a := by ext k; simpa using Or.inl
  have hb : (a ||| b) &&& b = b := by ext k; simpa using Or.inr
  constructor
  · intro h
    exact ⟨by rw [← ha, ← BitVec.and_assoc, h, hp], by rw [← hb, ← BitVec.and_assoc, h, hpb]⟩
  · rintro ⟨ha, hb⟩
    rw [BitVec.and_or_distrib_left, ha, hb, BitVec.or_zero]

/-- A word is a legal encoding of a row exactly when its opcode is the row's and the reserved bits are clear. -/
theorem exists_decode_iff (o : Op) (w : Command) :
    (∃ i : Instr, i.op = o ∧ decode w = .ok i) ↔ opcodeOf w = o.code ∧ reservedClear o w = true := by
  constructor
  · rintro ⟨i, rfl, hd⟩
    obtain ⟨o, ho, hr, rfl⟩ := decode_ok_iff.1 hd
    rw [op_operandsOf]
    exact ⟨ho, hr⟩
  · rintro ⟨ho, hr⟩
    exact ⟨operandsOf o w, op_operandsOf o w, decode_ok_iff.2 ⟨o, ho, hr, rfl⟩⟩

/-- The columns "mask" and "match" of the opcode map say what the decoder does (R116). -/
theorem and_mask_eq_pattern_iff (o : Op) (w : Command) :
    w &&& o.mask = o.pattern ↔ ∃ i : Instr, i.op = o ∧ decode w = .ok i := by
  rw [exists_decode_iff, mask_eq, and_or_eq_iff (pattern_and_opcodeMask o) (opcodeMask_and_reservedMask o),
    and_opcodeMask_eq_pattern_iff, reservedClear_iff]

/-- Settles O3: the rows listed are those of the opcode map. -/
theorem legalEncodingIsMaskMatch : Obligations.LegalEncodingIsMaskMatch := by
  intro row hrow w
  have hcols : row.2.1 = row.1.pattern ∧ row.2.2 = row.1.mask := by
    revert row
    decide
  rw [hcols.1, hcols.2]
  exact and_mask_eq_pattern_iff row.1 w

/-- Settles O4, by running the decoder. -/
theorem writtenOutWordsDecode : Obligations.WrittenOutWordsDecode := by
  unfold Obligations.WrittenOutWordsDecode
  decide

end Sys2Proof

/-! SUPPORT. The host's step on a command word: what runs, and what a word that decodes to no command does
(30_encoding.md R113, R114, R117, R118). -/

namespace Sys2Proof.Machine

open Sys2Proof.Claims

/-! ### The host port -/

/-- On the host's turn the step runs the word presented, on the port or newly issued (R114). -/
theorem step_of_presents {s u : State} {w : Command} (h : Presents s w u) : step s = runCommand w u := by
  obtain ⟨rest, hq, hw, ⟨hp, rfl⟩ | ⟨hp, ws, hws, rfl⟩⟩ := h <;> rw [step_cons hq]
  · simp only [runTurn, hostStep, hw, hp]
  · simp only [runTurn, hostStep, hw, hp, hws]

/-- A word that decodes to a command runs it (R118). -/
theorem runCommand_ok {w : Command} {i : Instr} (h : decode w = .ok i) (s : State) : runCommand w s = exec i s := by
  rw [runCommand, h]

/-- Settles O5: in both cases the host presents the word. -/
theorem stepRunsTheDecodedCommand : Obligations.StepRunsTheDecodedCommand := by
  intro s w i rest hd hq hw
  refine ⟨fun hp => ?_, fun ws hp hws => ?_⟩ <;> rw [← runCommand_ok hd]
  · exact step_of_presents ⟨rest, hq, hw, .inl ⟨hp, rfl⟩⟩
  · exact step_of_presents ⟨rest, hq, hw, .inr ⟨hp, ws, hws, rfl⟩⟩

/-- Settles O6: no row has an opcode of these ranges. -/
theorem illegalOpcodeFails : Obligations.IllegalOpcodeFails := by
  rintro s u w _ rfl hpres hop
  have hno : ∀ o : Op, o.code ≠ opcodeOf w := by
    intro o ho
    have hcode : o.code.toNat = w.toNat / 2 ^ 56 := by rw [ho, toNat_opcodeOf]
    rw [← hcode] at hop
    cases o <;> exact absurd hop (by decide)
  rw [step_of_presents hpres, runCommand, decode_illegal (ofCode_eq_none hno)]
  rfl

/-- Settles O7: the rows listed are opcodes with the reserved bits of their formats. -/
theorem reservedBitFails : Obligations.ReservedBitFails := by
  intro row hrow
  obtain ⟨o, hcode, hmask⟩ : ∃ o : Op, row.1 = o.code ∧ row.2 = o.reservedMask := by
    revert row
    simp only [List.forall_mem_cons]
    exact ⟨⟨.sstart, rfl, rfl⟩, ⟨.sstop, rfl, rfl⟩, ⟨.senq, rfl, rfl⟩, ⟨.ecfg, rfl, rfl⟩, ⟨.edraw, rfl, rfl⟩,
      ⟨.fpix, rfl, rfl⟩, ⟨.fpget, rfl, rfl⟩, ⟨.ffill, rfl, rfl⟩, ⟨.frect, rfl, rfl⟩, ⟨.dcfg, rfl, rfl⟩,
      ⟨.rdreg, rfl, rfl⟩, ⟨.clrerr, rfl, rfl⟩, nofun⟩
  intro s u w hpres hop hres
  rw [extractLsb'_eq_opcodeOf, hcode] at hop
  have hset : reservedClear o w = false := by
    rw [← Bool.not_eq_true, reservedClear_iff, ← hmask]
    exact hres
  rw [step_of_presents hpres, runCommand, decode_reserved hop hset, hcode, ← hop]
  rfl

end Sys2Proof.Machine

/-! SUPPORT. The outline that FRECTO draws (30_encoding.md R128): the four commands it stands for, and what FRECT paints
after other painting (42_framebuffer.md R255). -/

namespace Sys2Proof.Machine

open Sys2Proof.Claims

/-! ### The commands of FRECTO -/

/-- A bit as an operand number. -/
@[simp] theorem bitOperand_toNat (c : Bool) : bitOperand c.toNat = some c := by cases c <;> rfl

/-- FRECT with operands that fit their fields (R115, R125). -/
theorem frectLine_toNat {x y w h : Nat} (c : Bool) (hx : x < 2 ^ 16) (hy : y < 2 ^ 8) (hw : w < 2 ^ 16)
    (hh : h < 2 ^ 8) : frectLine x y w h c.toNat = some [.frect x y w h c] := by
  rw [frectLine, bitOperand_toNat, Option.bind_some, fits, if_pos]
  simp only [Instr.wf, Bool.and_eq_true, decide_eq_true_eq]
  exact ⟨⟨⟨hx, hy⟩, hw⟩, hh⟩

/-- FRECTO is its top row, bottom row, left column and right column (R128). -/
theorem commandsOf_frecto {x y w h : Nat} (c : Bool) (hw1 : 1 ≤ w) (hh1 : 1 ≤ h) (hw : w < 2 ^ 16) (hh : h < 2 ^ 8)
    (hy : y + h - 1 < 2 ^ 8) (hx : x + w - 1 < 2 ^ 16) :
    commandsOf (.frecto x y w h c.toNat) = some
      [.frect x y w 1 c, .frect x (y + h - 1) w 1 c, .frect x y 1 h c, .frect (x + w - 1) y 1 h c] := by
  have hx0 : x < 2 ^ 16 := by omega
  have hy0 : y < 2 ^ 8 := by omega
  rw [commandsOf, outline, if_neg (by omega), frectLine_toNat c hx0 hy0 hw (by omega),
    frectLine_toNat c hx0 hy hw (by omega), frectLine_toNat c hx0 hy0 (by omega) hh,
    frectLine_toNat c hx hy0 (by omega) hh]
  rfl

/-! ### Painting -/

/-- Pixel (x', y') lies in the part of the rectangle that lies in the geometry (R255). -/
def InClipped (e : Enc) (x y w h x' y' : Nat) : Prop :=
  (x ≤ x' ∧ x' < x + w ∧ x' < e.cols.toNat) ∧ (y ≤ y' ∧ y' < y + h ∧ y' < e.rows.toNat)

/-- Four rectangles, each one pixel wide or high, make the part of the outline that lies in the geometry (R128). -/
theorem inClipped_sides_iff {e : Enc} {x y w h : Nat} (hw : 1 ≤ w) (hh : 1 ≤ h) (x' y' : Nat) :
    ((InClipped e x y w 1 x' y' ∨ InClipped e x (y + h - 1) w 1 x' y') ∨ InClipped e x y 1 h x' y') ∨
      InClipped e (x + w - 1) y 1 h x' y' ↔
    x' < e.cols.toNat ∧ y' < e.rows.toNat ∧ OnOutline x y w h x' y' := by
  simp only [InClipped, OnOutline]
  omega

/-- What n drawing commands lead to from s when each of them responds OK: the pixels of P have the colour, and of the
rest of the state only the responses are new (R250, R255). -/
structure Drawn (s : State) (n : Nat) (P : Nat → Nat → Prop) (c : Bool) (t : State) : Prop where
  frame : t = { s with enc := t.enc, port := t.port, responses := s.responses ++ List.replicate n ⟨0x00, 0⟩ }
  painted : Painted s.enc t.enc P c

/-- Before the first command. -/
theorem Drawn.refl {s : State} (h : Memory.wf s.enc.fb) (c : Bool) : Drawn s 0 (fun _ _ => False) c s :=
  ⟨by simp, .refl h c⟩

/-- One FRECT more: its clipped rectangle has the colour too (R255). -/
theorem Drawn.frect {s t : State} {n : Nat} {P : Nat → Nat → Prop} {c : Bool} (h : Drawn s n P c t)
    (hc : s.enc.configured = true) (hcols : s.enc.cols.toNat ≤ 8 * s.enc.colBytes.toNat) (x y w h' : Nat) :
    ∃ u, exec (.frect x y w h' c) t = .next u ∧ u.port = none ∧
      Drawn s (n + 1) (fun x' y' => P x' y' ∨ InClipped s.enc x y w h' x' y') c u := by
  have hpainted := h.painted
  have hconf : t.enc.configured = true := by rw [hpainted.eq]; exact hc
  have hgeom : t.enc.cols = s.enc.cols ∧ t.enc.rows = s.enc.rows := by rw [hpainted.eq]; exact ⟨rfl, rfl⟩
  have hin : ∀ x' ∈ span x w s.enc.cols.toNat, x' < 8 * s.enc.colBytes.toNat := fun x' hx' =>
    Nat.lt_of_lt_of_le (mem_span.1 hx').2.2 hcols
  refine ⟨respondOk { t with enc := setArea t.enc (span x w s.enc.cols.toNat) (span y h' s.enc.rows.toNat) c },
    ?_, rfl, ?_, ?_⟩
  · rw [exec, execFrect, if_pos hconf, hgeom.1, hgeom.2]
  · rw [h.frame]
    simp [respond, List.replicate_succ']
  · exact (Painted.setArea _ hin _ hpainted).congr fun x' y' => by simp only [mem_span, InClipped]

/-- Settles O42: the four commands paint the four sides, one after the other. -/
theorem outlinePaintsTheBorder : Obligations.OutlinePaintsTheBorder := by
  intro s x y w h c hs hc hw1 hh1 hx hy hw hh hyh hxw
  have hcols := (hs.enc.geom hc).cols_le
  obtain ⟨t1, h1, -, d1⟩ := (Drawn.refl hs.enc.fb_wf c).frect hc hcols x y w 1
  obtain ⟨t2, h2, -, d2⟩ := d1.frect hc hcols x (y + h - 1) w 1
  obtain ⟨t3, h3, -, d3⟩ := d2.frect hc hcols x y 1 h
  obtain ⟨t4, h4, hport, hframe, hsides⟩ := d3.frect hc hcols (x + w - 1) y 1 h
  have hborder : Painted s.enc t4.enc
      (fun x' y' => x' < s.enc.cols.toNat ∧ y' < s.enc.rows.toNat ∧ OnOutline x y w h x' y') c :=
    hsides.congr fun x' y' => by rw [false_or, inClipped_sides_iff hw1 hh1]
  refine ⟨_, _, _, _, t1, t2, t3, t4, commandsOf_frecto c hw1 hh1 hw hh (by omega) (by omega), h1, h2, h3, h4,
    ?_, fun x' y' hx' hy' => ?_, fun a ha => ?_⟩
  · rwa [← hborder.eq, ← hport]
  · split
    next hin => exact hborder.inside x' y' hx' ⟨hin.1, hy', hin.2⟩
    next hout => exact hborder.outside x' y' hx' fun hin => hout ⟨hin.1, hin.2.2⟩
  · exact hborder.bytes a fun x' y' hin => ha x' y' hin.1 hin.2.1 hin.2.2

end Sys2Proof.Machine

/-! SUPPORT. The serializer's commands (40_serializer.md R152–R157), the tick phase by phase (R160, R161), and the
contract of the three lines (R151). -/

namespace Sys2Proof.Machine

open Sys2Proof.Config (Params Agent)
open Sys2Proof.Claims

/-! ### The end of a command, in the statements' words -/

/-- A command that ends without an error (R11, R111). -/
theorem respondOk_eq_done (s : State) : respondOk s = done s 0x00 0 := rfl

/-- A command that fails (R331). -/
theorem raise_eq_failed (e : Err) (o : BitVec 8) (s : State) : raise e o s = failed s e.code o := rfl

/-! ### SCFG -/

section Scfg

variable {dpin spin lpin freq chain : Nat} {s : State}

/-- SCFG responds with its first failing check (R152, R331). -/
theorem exec_scfg_of_error {e : Err} (h : scfgError s dpin spin lpin freq chain = some e) :
    exec (.scfg dpin spin lpin freq chain) s = .next (failed s e.code 0x01) := by
  rw [exec, execScfg, h]
  rfl

/-- SCFG with no failing check configures the serializer (R152). -/
theorem exec_scfg_of_accepted (h : scfgError s dpin spin lpin freq chain = none) :
    exec (.scfg dpin spin lpin freq chain) s =
      .next (done { s with ser := serConfigure s.ser dpin spin lpin freq chain } 0x00 0) := by
  rw [exec, execScfg, h]
  rfl

/-- Operands that pass every check of SCFG (R152): the converse of `scfgError_none`. -/
theorem scfgError_eq_none (hen : s.ser.enabled = false) (hd : dpin < s.params.numPins) (hl : lpin < s.params.numPins)
    (hadj : lpin = spin + 1) (hds : dpin ≠ spin) (hdl : dpin ≠ lpin) (hc : 0 < chain) (hc8 : chain % 8 = 0)
    (hf : 0 < freq) : scfgError s dpin spin lpin freq chain = none := by
  rw [scfgError, if_neg (by simp [hen]), if_neg (by omega), if_neg (by omega), if_neg (by omega), if_neg (by omega),
    if_neg (by omega)]

end Scfg

/-- Settles O10: no check fails, and the configuration with SerReset is every field but the latch count. -/
theorem scfgConfiguresTheSerializer : Obligations.ScfgConfiguresTheSerializer := by
  intro dpin spin lpin freq chain s hen hd _ hl hadj hds hdl hc hc8 hf
  rw [exec_scfg_of_accepted (scfgError_eq_none hen hd hl hadj hds hdl hc hc8 hf), serConfigure, serReset, hen]

/-- Settles O11: in each clause the checks before the failing one pass. -/
theorem scfgReportsItsFirstError : Obligations.ScfgReportsItsFirstError := by
  intro dpin spin lpin freq chain s
  refine ⟨fun hen => exec_scfg_of_error (e := .busy) (if_pos hen), fun hen => ?_⟩
  have hidle : ¬s.ser.enabled = true := by simp [hen]
  refine ⟨fun hrange => exec_scfg_of_error (e := .cfgPinRange) ?_, fun hd hs hl =>
    ⟨fun hadj => exec_scfg_of_error (e := .cfgPinAdj) ?_, fun hadj =>
      ⟨fun hconf => exec_scfg_of_error (e := .cfgPinConflict) ?_, fun hds hdl =>
        ⟨fun hchain => exec_scfg_of_error (e := .cfgChain) ?_, fun hc hc8 hfreq =>
          exec_scfg_of_error (e := .cfgFreq) ?_⟩⟩⟩⟩ <;> rw [scfgError, if_neg hidle]
  · rw [if_pos hrange]
  · rw [if_neg (by omega), if_pos hadj]
  · rw [if_neg (by omega), if_neg (by omega), if_pos hconf]
  · rw [if_neg (by omega), if_neg (by omega), if_neg (by omega), if_pos hchain]
  · rw [if_neg (by omega), if_neg (by omega), if_neg (by omega), if_neg (by omega), if_pos hfreq]

/-! ### SSTART and SENQ -/

/-- SSTART on a configured serializer (R155). -/
theorem exec_sstart_of_configured {s : State} (hc : s.ser.configured = true) :
    exec .sstart s = .next (done { s with ser := { s.ser with enabled := true } } 0x00 0) := by
  rw [exec, execSstart, if_pos hc, respondOk_eq_done]

/-- Settles O12: SSTART's one check. -/
theorem sstartEnablesAConfiguredSerializer : Obligations.SstartEnablesAConfiguredSerializer := by
  refine fun s => ⟨exec_sstart_of_configured, fun hc => ?_⟩
  rw [exec, execSstart, if_neg (by simp [hc]), raise_eq_failed]
  rfl

/-- Whether the queue is full is a matter of its length (R40). -/
theorem fifoFull_iff (s : State) : fifoFull s = true ↔ s.params.fifoDepth ≤ s.ser.fifo.length := decide_eq_true_iff

/-- Settles O14: SENQ's check, and then the room in the queue. -/
theorem senqQueuesOrHolds : Obligations.SenqQueuesOrHolds := by
  intro w s
  refine ⟨fun hc => ?_, fun hc hfull => ?_, fun hc hroom => ?_⟩ <;> rw [exec, execSenq]
  · rw [if_neg (by simp [hc]), raise_eq_failed]
    rfl
  · rw [if_pos hc, if_pos ((fifoFull_iff s).2 hfull.ge)]
  · rw [if_pos hc, if_neg (by rw [fifoFull_iff]; omega), respondOk_eq_done, fifoPush]

/-! ### The serializer's turn, phase by phase -/

/-- A serializer that is not configured or stopped has no step (R160). -/
theorem tick_of_stopped {x : Ser} (h : x.configured = false ∨ x.enabled = false) : tick x = none := by
  rcases h with h | h <;> simp [tick, h]

section Running

variable {x : Ser} (hc : x.configured = true) (he : x.enabled = true)
include hc he

/-- At a word boundary with an empty queue a running serializer stalls (R161). -/
theorem tick_of_stalled (hp : x.phase = .shiftLow) (h0 : x.osrCount = 0) (hf : x.fifo = []) : tick x = none := by
  simp [tick, tickShiftLow, hc, he, hp, h0, hf]

/-- At a word boundary the next word is popped and its first bit sent. -/
theorem tick_of_popping (hp : x.phase = .shiftLow) (h0 : x.osrCount = 0) {w : Word} {ws : List Word}
    (hf : x.fifo = w :: ws) : tick x = some (shiftOut { x with fifo := ws, osr := w, osrCount := 32 }) := by
  simp [tick, tickShiftLow, hc, he, hp, h0, hf]

/-- Inside a word the next bit is sent. -/
theorem tick_of_sending (hp : x.phase = .shiftLow) (h0 : 0 < x.osrCount) : tick x = some (shiftOut x) := by
  simp [tick, tickShiftLow, hc, he, hp, h0.ne']

theorem tick_of_shiftHigh (hp : x.phase = .shiftHigh) : tick x = some (tickShiftHigh x) := by simp [tick, hc, he, hp]

theorem tick_of_latchHigh (hp : x.phase = .latchHigh) : tick x = some (tickLatchHigh x) := by simp [tick, hc, he, hp]

theorem tick_of_latchLow (hp : x.phase = .latchLow) : tick x = some (tickLatchLow x) := by simp [tick, hc, he, hp]

end Running

section SerializerTurn

variable {s : State} {rest : List Turn}

/-- The serializer's turn when it has a step (R160). -/
theorem step_of_tick (hq : s.schedule = .agent .serializer :: rest) {y : Ser} (h : tick s.ser = some y) :
    step s = .next { s with schedule := rest, ser := y } := by
  rw [step_cons hq, runTurn, serializerStep, h]

/-- The serializer's turn when it holds (R11, R161). -/
theorem step_of_hold (hq : s.schedule = .agent .serializer :: rest) (h : tick s.ser = none) :
    step s = .next { s with schedule := rest } := by
  rw [step_cons hq, runTurn, serializerStep, h]

/-- While it holds, the serializer's turns change nothing but the schedule (R161, R166). -/
theorem run_of_hold (h : tick s.ser = none) {n : Nat}
    (hq : s.schedule = List.replicate n (.agent .serializer) ++ rest) : run n s = .next { s with schedule := rest } := by
  induction n generalizing s with
  | zero =>
    have hrest : s.schedule = rest := hq
    rw [run, ← hrest]
  | succ n ih =>
    rw [List.replicate_succ, List.cons_append] at hq
    exact (run_succ n (step_of_hold hq h)).trans (ih h rfl)

end SerializerTurn

/-- Settles O15: the serializer's turn with each phase's tick. -/
theorem tickFollowsItsPhases : Obligations.TickFollowsItsPhases := by
  intro s rest hq
  refine ⟨fun hstop => step_of_hold hq (tick_of_stopped hstop), fun hc he =>
    ⟨fun hp h0 hf => step_of_hold hq (tick_of_stalled hc he hp h0 hf),
     fun w ws hp h0 hf => step_of_tick hq (tick_of_popping hc he hp h0 hf),
     fun hp h0 => step_of_tick hq (tick_of_sending hc he hp h0),
     fun hp => step_of_tick hq (tick_of_shiftHigh hc he hp),
     fun hp => step_of_tick hq (tick_of_latchHigh hc he hp),
     fun hp => step_of_tick hq (tick_of_latchLow hc he hp)⟩⟩

/-- Settles O13: a stopped serializer holds in every turn, and SSTART sets again the one field that SSTOP cleared. -/
theorem sstopPausesUntilSstart : Obligations.SstopPausesUntilSstart := by
  intro s n rest hq
  have hstop : tick { s.ser with enabled := false } = none := tick_of_stopped (.inr rfl)
  obtain ⟨v, hv⟩ := exec_next .sstart { done { s with ser := { s.ser with enabled := false } } 0x00 0 with
    schedule := rest }
  refine ⟨_, _, v, rfl, rfl, run_of_hold hstop hq, rfl, fun hc he => ⟨hv, ?_⟩⟩
  obtain rfl := Host.Outcome.next.inj (hv.symm.trans (exec_sstart_of_configured hc))
  exact ⟨by rw [← he]; rfl, by simp [done]⟩

/-! ### The contract of the lines -/

/-- Settles O17: only SHIFT_LOW writes DATA, only SHIFT_HIGH raises SHIFT, and LATCH is high from LATCH_HIGH to
LATCH_LOW. -/
theorem linesKeepTheirContract : Obligations.LinesKeepTheirContract := by
  intro p x y hx ht
  have hlatch : x.phase ≠ .latchLow → x.latch = false := hx.latch_eq_false_iff.2
  obtain ⟨hc, -, ⟨w, ws, hp, -, -, rfl⟩ | ⟨hp, -, rfl⟩ | ⟨hp, rfl⟩ | ⟨hp, rfl⟩ | ⟨hp, rfl⟩⟩ := tick_cases ht
  · have hlow := hlatch (by simp [hp])
    simp [shiftOut, hlow]
  · have hlow := hlatch (by simp [hp])
    simp [shiftOut, hlow]
  · have hlow := hlatch (by simp [hp])
    simp [tickShiftHigh, hlow]
  · have hlow := hlatch (by simp [hp])
    have hfull : x.bitCount = x.chain := (hx.bitCount_eq hc).2 hp
    simp [tickLatchHigh, hlow, hfull]
  · have hlow := hx.shift_low (.inr hp)
    simp [tickLatchLow, hlow]

end Sys2Proof.Machine

/-! SUPPORT. One frame of the serializer (40_serializer.md R164): the ticks that send it, the lines they drive, and what
the reference observer makes of the lines (R170, R171). -/

namespace Sys2Proof.Machine

open Sys2Proof.Config (Params Agent)
open Sys2Proof.Claims

/-! ### Ticks in a row -/

/-- Ticks without a hold that lead from x to y and drive the levels ls on the lines, tick by tick (R160). -/
inductive Ticks : Ser → List Lines → Ser → Prop
  | refl (x : Ser) : Ticks x [] x
  | tick {x y z : Ser} {ls : List Lines} (h : tick x = some y) (hs : Ticks y ls z) : Ticks x (linesOf y :: ls) z

theorem Ticks.append {x y z : Ser} {ls ms : List Lines} (h : Ticks x ls y) (h' : Ticks y ms z) :
    Ticks x (ls ++ ms) z := by
  induction h with
  | refl x => exact h'
  | tick ht _ ih => exact .tick ht (ih h')

/-- What the machine does when the serializer has as many turns (R32, R164). -/
theorem Ticks.run {s : State} {y : Ser} {ls : List Lines} {rest : List Turn} (h : Ticks s.ser ls y)
    (hq : s.schedule = List.replicate ls.length (.agent .serializer) ++ rest) :
    lineTrace ls.length s = ls ∧ run ls.length s = .next { s with schedule := rest, ser := y } := by
  generalize hx : s.ser = x at h
  induction h generalizing s with
  | refl x =>
    subst hx
    have hrest : s.schedule = rest := hq
    exact ⟨rfl, by rw [← hrest]; rfl⟩
  | @tick x y z ls ht hs ih =>
    subst hx
    rw [List.length_cons, List.replicate_succ, List.cons_append] at hq
    have hstep := step_of_tick hq ht
    obtain ⟨htrace, hrun⟩ := ih (s := { s with
      schedule := List.replicate ls.length (.agent .serializer) ++ rest, ser := y }) rfl rfl
    refine ⟨?_, (run_succ _ hstep).trans hrun⟩
    simp only [List.length_cons, lineTrace, hstep, htrace]

/-! ### A frame on its way -/

/-- The serializer between two bits of a frame: bs is what the frame still has to send, and more is accepted behind it.
After the last bit the latch is due (R42, R160). -/
structure InFrame (x : Ser) (bs more : List Bool) : Prop where
  configured : x.configured = true
  enabled : x.enabled = true
  latch : x.latch = false
  osrCount_le : x.osrCount ≤ 32
  outBits_eq : outBits x = bs ++ more
  bitCount_add : x.bitCount.toNat + bs.length = x.chain.toNat
  phase_eq : x.phase = if bs = [] then .latchHigh else .shiftLow

/-- A running serializer with a bit to send sends it: the queue is not empty at a word boundary, so it does not stall
(R160, R161). -/
theorem exists_tick_of_outBits {x : Ser} (hc : x.configured = true) (he : x.enabled = true) (hp : x.phase = .shiftLow)
    (hle : x.osrCount ≤ 32) {b : Bool} {bs : List Bool} (hb : outBits x = b :: bs) :
    ∃ y, tick x = some y ∧ y.data = b ∧ outBits y = bs := by
  cases ht : tick x with
  | none =>
    obtain hn | hn | ⟨-, h0, hf⟩ := tick_none ht
    · exact absurd (hc.symm.trans hn) nofun
    · exact absurd (he.symm.trans hn) nofun
    · exact absurd (hb.symm.trans ((outBits_eq_nil_iff x).2 ⟨hf, h0⟩)) nofun
  | some y =>
    have hsend := (bitsLeaveInTheOrderTheyCame.1 x y hle ht).1 hp
    rw [hb] at hsend
    injection hsend with hdata hrest
    exact ⟨y, rfl, hdata.symm, hrest.symm⟩

/-- What the tick of SHIFT_LOW leaves besides DATA and the bits to be sent (R160). -/
theorem tick_shiftLow_frame {x y : Ser} (hp : x.phase = .shiftLow) (hle : x.osrCount ≤ 32) (ht : tick x = some y) :
    y.shift = false ∧ y.latch = x.latch ∧ y.phase = .shiftHigh ∧ y.osrCount ≤ 32 ∧ y.bitCount = x.bitCount ∧
    y.latchCount = x.latchCount := by
  obtain ⟨-, -, ⟨w, ws, -, -, -, rfl⟩ | ⟨-, -, rfl⟩ | ⟨hn, -⟩ | ⟨hn, -⟩ | ⟨hn, -⟩⟩ := tick_cases ht
  · exact ⟨rfl, rfl, rfl, by simp [shiftOut], rfl, rfl⟩
  · exact ⟨rfl, rfl, rfl, Nat.le_trans (Nat.sub_le _ _) hle, rfl, rfl⟩
  all_goals exact absurd (hp.symm.trans hn) nofun

/-- The lines of one bit: DATA set with SHIFT low, then the rising edge (R164). -/
def bitLines (b : Bool) : List Lines := [⟨b, false, false⟩, ⟨b, true, false⟩]

/-- The lines of the latch after a frame whose last bit is b (R164). -/
def latchLines (b : Bool) : List Lines := [⟨b, false, true⟩, ⟨b, false, false⟩]

theorem frameLines_eq (bs : List Bool) : frameLines bs = bs.flatMap bitLines ++ latchLines (bs.getLastD false) := rfl

theorem length_frameLines (bs : List Bool) : (frameLines bs).length = 2 * bs.length + 2 := by
  have hbits : (bs.flatMap bitLines).length = 2 * bs.length := by
    induction bs with
    | nil => rfl
    | cons b bs ih => simp [bitLines, ih]; omega
  rw [frameLines_eq, List.length_append, hbits]
  rfl

/-- One bit of a frame takes two ticks (R164). -/
theorem InFrame.bit {x : Ser} {b : Bool} {bs more : List Bool} (h : InFrame x (b :: bs) more) :
    ∃ y, Ticks x (bitLines b) y ∧ InFrame y bs more ∧ y.data = b ∧ y.latchCount = x.latchCount := by
  have hp : x.phase = .shiftLow := h.phase_eq
  obtain ⟨y, hfall, hdata, hout⟩ := exists_tick_of_outBits h.configured h.enabled hp h.osrCount_le h.outBits_eq
  obtain ⟨hshift, hlatch, hphase, hle, hcount, hlatches⟩ := tick_shiftLow_frame hp h.osrCount_le hfall
  obtain ⟨hc, he, -, -, -, -, hchain⟩ := tick_config hfall
  rw [h.latch] at hlatch
  rw [h.configured] at hc
  rw [h.enabled] at he
  have hadd : (y.bitCount + 1).toNat + bs.length = y.chain.toNat := by
    have := h.bitCount_add
    rw [List.length_cons, ← hcount, ← hchain] at this
    bv_omega
  have hlast : y.bitCount + 1 = y.chain ↔ bs = [] := by
    rw [← BitVec.toNat_inj, ← List.length_eq_zero_iff]
    omega
  have hfallLines : linesOf y = ⟨b, false, false⟩ := by rw [linesOf, hdata, hshift, hlatch]
  have hriseLines : linesOf (tickShiftHigh y) = ⟨b, true, false⟩ := by rw [linesOf, tickShiftHigh, hdata, hlatch]
  refine ⟨tickShiftHigh y, ?_, ⟨hc, he, hlatch, hle, hout, hadd, if_congr hlast rfl rfl⟩, hdata, hlatches⟩
  rw [bitLines, ← hfallLines, ← hriseLines]
  exact .tick hfall (.tick (tick_of_shiftHigh hc he hphase) (.refl _))

/-- The bits of a frame take two ticks each, and DATA keeps the last of them (R164). -/
theorem InFrame.bits {x : Ser} {bs more : List Bool} (h : InFrame x bs more) :
    ∃ y, Ticks x (bs.flatMap bitLines) y ∧ InFrame y [] more ∧ y.data = bs.getLastD x.data ∧
      y.latchCount = x.latchCount := by
  induction bs generalizing x with
  | nil => exact ⟨x, .refl x, h, rfl, rfl⟩
  | cons b bs ih =>
    obtain ⟨y, hbit, hy, hdata, hlatches⟩ := h.bit
    obtain ⟨z, hbits, hz, hdata', hlatches'⟩ := ih hy
    refine ⟨z, hbit.append hbits, hz, ?_, hlatches'.trans hlatches⟩
    rw [hdata', hdata, List.getLastD_cons]

/-- Where a latched frame leaves the engine, with the bits of `more` still to be sent and n latches given (R164). -/
structure FrameEnded (y : Ser) (more : List Bool) (n : Word) : Prop where
  outBits_eq : outBits y = more
  phase_eq : y.phase = .shiftLow
  bitCount_eq : y.bitCount = 0
  latch : y.latch = false
  shift : y.shift = false
  latchCount_eq : y.latchCount = n

/-- After the last bit of a frame, two ticks latch it (R164). -/
theorem InFrame.latched {x : Ser} {more : List Bool} (h : InFrame x [] more) :
    ∃ y, Ticks x (latchLines x.data) y ∧ FrameEnded y more (x.latchCount + 1) :=
  ⟨tickLatchLow (tickLatchHigh x),
    .tick (tick_of_latchHigh h.configured h.enabled h.phase_eq)
      (.tick (tick_of_latchLow (x := tickLatchHigh x) h.configured h.enabled rfl) (.refl _)),
    h.outBits_eq, rfl, rfl, rfl, rfl, rfl⟩

/-- A frame of at least one bit: its line sequence, and where it leaves the engine (R164). -/
theorem InFrame.frame {x : Ser} {bs more : List Bool} (h : InFrame x bs more) (hbs : bs ≠ []) :
    ∃ y, Ticks x (frameLines bs) y ∧ FrameEnded y more (x.latchCount + 1) := by
  obtain ⟨y, hbits, hy, hdata, hlatches⟩ := h.bits
  obtain ⟨z, hlatch, hz⟩ := hy.latched
  have hlast : bs.getLastD x.data = bs.getLastD false := by
    rw [List.getLastD_eq_getLast?, List.getLastD_eq_getLast?, List.getLast?_eq_some_getLast hbs]
    rfl
  rw [hdata, hlast] at hlatch
  exact ⟨z, hbits.append hlatch, hlatches ▸ hz⟩

/-- Settles O18: the machine runs the ticks of the frame. -/
theorem frameDrivesItsLineSequence : Obligations.FrameDrivesItsLineSequence := by
  intro s bits more rest hc he hp hl hle hcount hpos hlen hout hq
  have hne : bits ≠ [] := List.ne_nil_of_length_pos hpos
  have hstart : InFrame s.ser bits more :=
    ⟨hc, he, hl, hle, hout, by rw [hcount, ← hlen]; exact Nat.zero_add _, by rw [if_neg hne, hp]⟩
  obtain ⟨y, hticks, hy⟩ := hstart.frame hne
  rw [← length_frameLines] at hq ⊢
  obtain ⟨htrace, hrun⟩ := hticks.run hq
  exact ⟨htrace, _, hrun, hy.outBits_eq, hy.phase_eq, hy.bitCount_eq, hy.latch, hy.shift, hy.latchCount_eq, rfl⟩

/-! ### What the observer makes of the lines -/

/-- A serializer that drives the given levels. The observer sees no more of it (R170). -/
def driving (l : Lines) : Ser := { Ser.reset with data := l.data, shift := l.shift, latch := l.latch }

/-- The observer on a sequence of line levels that starts from l (R170). -/
def Observer.watchLines (o : Observer) : Lines → List Lines → Observer
  | _, [] => o
  | l, m :: ms => (o.watch (driving l) (driving m)).watchLines m ms

/-- The observer sees the lines of the block and nothing else (R170). -/
theorem watchRun_eq_watchLines (o : Observer) (n : Nat) (s : State) :
    o.watchRun n s = o.watchLines (linesOf s.ser) (lineTrace n s) := by
  induction n generalizing o s with
  | zero => rfl
  | succ n ih =>
    simp only [Observer.watchRun, lineTrace]
    cases step s with
    | next t => exact ih (o.watch s.ser t.ser) t
    | fault f => rfl
    | refused r => rfl

/-- What the chain holds after one more bit (R170). -/
def Observer.shiftIn (o : Observer) (b : Bool) : Observer := { o with ch := (2 * o.ch + b.toNat) % 2 ^ o.physBits }

/-- The lines of a bit shift it in, once, and give no latch (R170). -/
theorem watchLines_bitLines (o : Observer) (l : Lines) (b : Bool) (ms : List Lines) :
    o.watchLines l (bitLines b ++ ms) = (o.shiftIn b).watchLines ⟨b, true, false⟩ ms := by
  simp [bitLines, Observer.watchLines, Observer.watch, Observer.onShift, Observer.onLatch, driving, Observer.shiftIn]

/-- A latch shows on OUT what the chain holds (R170). -/
theorem out_watchLines_latchLines (o : Observer) {l : Lines} (hl : l.latch = false) (b : Bool) :
    (o.watchLines l (latchLines b)).out = o.ch := by
  simp [latchLines, Observer.watchLines, Observer.watch, Observer.onShift, Observer.onLatch, driving, hl]

/-- After a frame OUT shows what the chain holds once all of its bits are shifted in (R171). -/
theorem out_watchLines_frame (o : Observer) {l : Lines} (hl : l.latch = false) (bs : List Bool) (b : Bool) :
    (o.watchLines l (bs.flatMap bitLines ++ latchLines b)).out = (bs.foldl Observer.shiftIn o).ch := by
  induction bs generalizing o l with
  | nil => exact out_watchLines_latchLines o hl b
  | cons c cs ih => rw [List.flatMap_cons, List.append_assoc, watchLines_bitLines, ih _ rfl, List.foldl_cons]

/-- Bits shifted into a chain: what it held moves up, and the chain's length is the modulus (R171). -/
theorem ch_foldl_shiftIn (o : Observer) (b : Bool) (bs : List Bool) :
    ((b :: bs).foldl Observer.shiftIn o).ch =
      (o.ch * 2 ^ (b :: bs).length + bitsValue (b :: bs)) % 2 ^ o.physBits := by
  induction bs generalizing o b with
  | nil => simp [Observer.shiftIn, bitsValue, Nat.mul_comm]
  | cons c cs ih =>
    rw [List.foldl_cons, ih, show b :: c :: cs = [b] ++ c :: cs from rfl, bitsValue_append]
    show ((2 * o.ch + b.toNat) % 2 ^ o.physBits * 2 ^ (c :: cs).length + bitsValue (c :: cs)) % 2 ^ o.physBits = _
    rw [Nat.add_mod, Nat.mod_mul_mod, ← Nat.add_mod]
    congr 1
    simp [bitsValue, pow_succ]
    ring

/-- Settles O19: the observer sees the line sequence of the frame, and what CH held is moved out of a chain that is no
longer than the frame. -/
theorem observerLatchesTheFrame : Obligations.ObserverLatchesTheFrame := by
  intro s bits more rest o hc he hp hl hle hcount hpos hlen hout hphys hq
  obtain ⟨htrace, -⟩ := frameDrivesItsLineSequence s bits more rest hc he hp hl hle hcount hpos hlen hout hq
  rw [watchRun_eq_watchLines, htrace, frameLines_eq, out_watchLines_frame o hl]
  obtain ⟨b, bs, rfl⟩ := List.exists_cons_of_length_pos hpos
  have hmoved : 2 ^ o.physBits ∣ o.ch * 2 ^ (b :: bs).length := Dvd.dvd.mul_left (pow_dvd_pow 2 hphys) _
  rw [ch_foldl_shiftIn, Nat.add_mod, Nat.mod_eq_zero_of_dvd hmoved, Nat.zero_add, Nat.mod_mod]

end Sys2Proof.Machine

/-! SUPPORT. The scan slice (41_encoder.md R210–R218): the flags of the Layout Descriptor as its bits, the row-select and
the column-data field as big-endian integers, the slice's length, and the words it is cut into. -/

namespace Sys2Proof.Machine

open Sys2Proof.Config (Params)
open Sys2Proof.Claims

/-! ### The flags of the Layout Descriptor (R121) -/

theorem rowFirst_eq (l : BitVec 6) : rowFirst l = !l.getLsbD 5 := rfl

/-- Each flag of the row half as a bit of the layout. -/
theorem getLsbD_rowDesc (l : BitVec 6) {k : Nat} (hk : k < 3) :
    (rowDesc l).getLsbD k = l.getLsbD (if l.getLsbD 5 then k else 3 + k) := by
  rw [rowDesc, rowFirst]
  cases l.getLsbD 5 <;> simp [hk]

/-- Each flag of the column half as a bit of the layout. -/
theorem getLsbD_colDesc (l : BitVec 6) {k : Nat} (hk : k < 3) :
    (colDesc l).getLsbD k = l.getLsbD (if l.getLsbD 5 then 3 + k else k) := by
  rw [colDesc, rowFirst]
  cases l.getLsbD 5 <;> simp [hk]

theorem rowLow_eq (e : Enc) : rowLow e.layout = rowActiveLow e := getLsbD_rowDesc e.layout (by decide)

theorem rowH2A_eq (l : BitVec 6) : rowH2A l = l.getLsbD (if l.getLsbD 5 then 0 else 3) :=
  getLsbD_rowDesc l (by decide)

theorem colLow_eq (e : Enc) : colLow e.layout = colActiveLow e := getLsbD_colDesc e.layout (by decide)

theorem colH2A_eq (e : Enc) : colH2A e.layout = colDescending e := getLsbD_colDesc e.layout (by decide)

/-! ### Polarity (R210, R212, R218) -/

/-- Changing the flag complements every byte; leaving it changes nothing. -/
theorem polarity_xor (low flip : Bool) (bs : List Byte) :
    polarity (low ^^ flip) bs = polarity flip (polarity low bs) := by
  cases low <;> cases flip <;> simp [polarity, Function.comp_def]

/-- Active-low complements the value within the field's width. -/
theorem beValue_polarity (low : Bool) (bs : List Byte) :
    beValue (polarity low bs) = if low then 256 ^ bs.length - 1 - beValue bs else beValue bs := by
  cases low with
  | false => rfl
  | true =>
    have := beValue_map_not bs
    simp only [polarity, if_true]
    omega

/-- Active-low complements every bit of the field. -/
theorem testBit_beValue_polarity (low : Bool) (bs : List Byte) {j : Nat} (hj : j < 8 * bs.length) :
    (beValue (polarity low bs)).testBit j = ((beValue bs).testBit j != low) := by
  cases low with
  | false => rw [Bool.bne_false]; rfl
  | true =>
    have hi : bs.length - 1 - j / 8 < bs.length := by omega
    have hk : j % 8 < 8 := Nat.mod_lt _ (by decide)
    rw [testBit_beValue _ j (by simpa using hj), testBit_beValue bs j hj, length_polarity]
    simp [polarity, List.getD, hi, hk]

/-! ### The row-select field (R210) -/

@[simp] theorem length_rowField (e : Enc) (i : Nat) : (rowField e i).length = e.rowBytes.toNat := by simp [rowField]

/-- The row-select field in the words of the statements: one set bit at the row's position. -/
theorem rowField_eq (e : Enc) (i : Nat) :
    rowField e i = polarity (rowActiveLow e) (beBytes e.rowBytes.toNat (2 ^ rowPos e i)) := by
  rw [rowField, rowLow_eq, rowH2A_eq]
  rfl

/-- The set bit of a row lies in the frame (R210). -/
theorem rowPos_lt {e : Enc} {i : Nat} (hi : i < e.rows.toNat) : rowPos e i < e.rows.toNat := by
  unfold rowPos
  split_ifs <;> omega

/-- Settles O27: the set bit lies in the field, whose complement is taken within its width. -/
theorem rowFieldSelectsOneRow : Obligations.RowFieldSelectsOneRow := by
  intro p e i g hi
  have hpos := rowPos_lt hi
  have hwidth : 256 ^ e.rowBytes.toNat = 2 ^ (8 * e.rowBytes.toNat) := (pow_mul 2 8 _).symm
  have hfits : 2 ^ rowPos e i < 256 ^ e.rowBytes.toNat := by
    have hrb := g.rowBytes_eq
    rw [hwidth]
    exact Nat.pow_lt_pow_right (by decide) (by omega)
  refine ⟨length_rowField e i, hpos, ?_⟩
  rw [rowField_eq, beValue_polarity, beValue_beBytes, Nat.mod_eq_of_lt hfits, length_beBytes, hwidth]

/-! ### The column-data field (R212, R213) -/

@[simp] theorem length_rowBytesOf (e : Enc) (i : Nat) : (rowBytesOf e i).length = e.colBytes.toNat := by
  simp [rowBytesOf]

/-- Column byte k of a row. -/
theorem getD_rowBytesOf (e : Enc) (i : Nat) {k : Nat} (hk : k < e.colBytes.toNat) :
    (rowBytesOf e i).getD k 0 = fbRead e i k := by
  simp [rowBytesOf, hk]

/-- Bit k of a reversed byte (R12). -/
theorem getLsbD_rev8 (b : Byte) {k : Nat} (hk : k < 8) : (rev8 b).getLsbD k = b.getLsbD (7 - k) := by
  rw [rev8, BitVec.getLsbD_reverse, BitVec.getMsbD]
  simp [hk]

/-- The byte that stands k bytes from the end once the bytes and the bits of each are reversed (R12, R212). -/
theorem getD_reverse_map_rev8 {bs : List Byte} {k : Nat} (hk : k < bs.length) :
    (bs.reverse.map rev8).getD (bs.length - 1 - k) 0 = rev8 (bs.getD k 0) := by
  rw [List.getD, List.getD, List.getElem?_map, List.getElem?_reverse (by omega),
    show bs.length - 1 - (bs.length - 1 - k) = k by omega, List.getElem?_eq_getElem hk]
  rfl

/-- The column bytes of row i in the field's order, before polarity: under H2A the bytes and the bits of each are
reversed. -/
def orderedBytes (e : Enc) (i : Nat) : List Byte :=
  if colDescending e then (rowBytesOf e i).reverse.map rev8 else rowBytesOf e i

/-- The column-data field in the words of the statements. -/
theorem colField_eq (e : Enc) (i : Nat) : colField e i = polarity (colActiveLow e) (orderedBytes e i) := by
  rw [colField, colLow_eq, colH2A_eq]
  rfl

@[simp] theorem length_orderedBytes (e : Enc) (i : Nat) : (orderedBytes e i).length = e.colBytes.toNat := by
  unfold orderedBytes
  split <;> simp

@[simp] theorem length_colField (e : Enc) (i : Nat) : (colField e i).length = e.colBytes.toNat := by simp [colField_eq]

/-- The bit of the column-data field that pixel (x, i) stands at (R213). -/
def colPos (e : Enc) (x : Nat) : Nat := if colDescending e then x else 8 * e.colBytes.toNat - 1 - x

theorem colPos_lt {e : Enc} {x : Nat} (hx : x < 8 * e.colBytes.toNat) : colPos e x < 8 * e.colBytes.toNat := by
  unfold colPos
  split <;> omega

/-- Where each pixel stands before polarity: reversing the bytes and the bits of each reverses the whole row (R213). -/
theorem testBit_orderedBytes (e : Enc) (i : Nat) {x : Nat} (hx : x < 8 * e.colBytes.toNat) :
    (beValue (orderedBytes e i)).testBit (colPos e x) = pix e x i := by
  have hbyte : x / 8 < e.colBytes.toNat := by omega
  have hget := getD_rowBytesOf e i hbyte
  rw [testBit_beValue _ _ (by rw [length_orderedBytes]; exact colPos_lt hx), length_orderedBytes, pix]
  cases ho : colDescending e with
  | false =>
    simp only [orderedBytes, colPos, ho, Bool.false_eq_true, if_false]
    rw [show e.colBytes.toNat - 1 - (8 * e.colBytes.toNat - 1 - x) / 8 = x / 8 by omega, hget,
      show (8 * e.colBytes.toNat - 1 - x) % 8 = 7 - x % 8 by omega]
  | true =>
    simp only [orderedBytes, colPos, ho, if_true]
    rw [← length_rowBytesOf e i] at hbyte ⊢
    rw [getD_reverse_map_rev8 hbyte, hget, getLsbD_rev8 _ (Nat.mod_lt _ (by decide))]

/-- Settles O28: each pixel's place before polarity, and the complement of every bit when active-low. -/
theorem columnFieldHoldsEachPixel : Obligations.ColumnFieldHoldsEachPixel := by
  intro p e i x _ _ hx
  refine ⟨length_colField e i, ?_⟩
  rw [colField_eq, ← testBit_orderedBytes e i hx]
  exact testBit_beValue_polarity _ _ (by rw [length_orderedBytes]; exact colPos_lt hx)

/-! ### One half's polarity (R218) -/

/-- Changing flags that are neither the row half's ORD nor its place in the slice: the row-select field is complemented
exactly when its POL flag is among them. -/
theorem rowField_xor_layout (e : Enc) (i : Nat) {m : BitVec 6} (hplace : m.getLsbD 5 = false)
    (hord : m.getLsbD (if e.layout.getLsbD 5 then 0 else 3) = false) :
    rowField { e with layout := e.layout ^^^ m } i =
      polarity (m.getLsbD (if e.layout.getLsbD 5 then 1 else 4)) (rowField e i) := by
  rw [rowField_eq, rowField_eq e, ← polarity_xor]
  simp only [rowActiveLow, rowPos, BitVec.getLsbD_xor, hplace, hord, Bool.xor_false]

/-- The column-data field likewise. -/
theorem colField_xor_layout (e : Enc) (i : Nat) {m : BitVec 6} (hplace : m.getLsbD 5 = false)
    (hord : m.getLsbD (if e.layout.getLsbD 5 then 3 else 0) = false) :
    colField { e with layout := e.layout ^^^ m } i =
      polarity (m.getLsbD (if e.layout.getLsbD 5 then 4 else 1)) (colField e i) := by
  rw [colField_eq, colField_eq e, ← polarity_xor]
  simp only [colActiveLow, orderedBytes, colDescending, BitVec.getLsbD_xor, hplace, hord, Bool.xor_false]
  rfl

/-- Settles O31: under either field order the changed bit is the one half's POL flag and none of the other flags. -/
theorem polarityComplementsOneHalf : Obligations.PolarityComplementsOneHalf := by
  intro e e' i _ _
  refine ⟨?_, ?_⟩ <;> rintro rfl <;>
    rw [rowField_xor_layout e i (by split <;> rfl) (by split <;> rfl),
      colField_xor_layout e i (by split <;> rfl) (by split <;> rfl)]
  · split <;> exact ⟨rfl, rfl⟩
  · split <;> exact ⟨rfl, rfl⟩

/-! ### The slice (R214, R215) -/

/-- Padding fills a slice up to its padded size (R9). -/
theorem GeomInv.dataSize_le {p : Params} {e : Enc} (g : GeomInv p e) :
    e.rowBytes.toNat + e.colBytes.toNat ≤ e.paddedSize.toNat := by
  have hp := g.paddedSize_eq
  omega

@[simp] theorem length_body (e : Enc) (i : Nat) : (body e i).length = e.rowBytes.toNat + e.colBytes.toNat := by
  unfold body
  split <;> simp [Nat.add_comm]

theorem GeomInv.length_slice {p : Params} {e : Enc} (g : GeomInv p e) (i : Nat) :
    (slice e i).length = e.paddedSize.toNat := by
  have hle := g.dataSize_le
  rw [slice, List.length_append, List.length_replicate, length_body, padLen]
  omega

/-- The padding does not count in the slice's value (R215). -/
theorem beValue_slice (e : Enc) (i : Nat) : beValue (slice e i) = beValue (body e i) := by
  have hzero : ∀ n, beValue (List.replicate n 0) = 0 := by
    intro n
    induction n with
    | zero => rfl
    | succ n ih => exact ih
  rw [slice, beValue_append, hzero, Nat.zero_mul, Nat.zero_add]

/-- Settles O29: the field of descriptor 0 comes first, which is the row half when LAYOUT[5] is 0. -/
theorem sliceIsPaddingThenFields : Obligations.SliceIsPaddingThenFields := by
  intro p e i g _
  refine ⟨g.length_slice i, ?_⟩
  rw [slice, padLen, body, rowFirst_eq]
  cases e.layout.getLsbD 5 <;> rfl

/-! ### The words of a slice (R216) -/

/-- A word of the slice is the big-endian value of its piece. -/
theorem toNat_sliceWord (e : Enc) (i k : Nat) :
    (sliceWord e i k).toNat = beValue (((slice e i).drop (4 * k)).take 4) := by
  rw [sliceWord, BitVec.toNat_ofNat]
  refine Nat.mod_eq_of_lt ((beValue_lt _).trans_le ?_)
  exact Nat.pow_le_pow_right (by decide) (List.length_take_le 4 _)

/-- Settles O30: the piece lies in the slice, so it has four bytes. -/
theorem wordsAreBigEndianPiecesOfTheSlice : Obligations.WordsAreBigEndianPiecesOfTheSlice := by
  intro p e i k g _ hk
  have hlen := g.length_slice i
  refine ⟨_, _, _, _, List.getElem?_eq_getElem (by omega), List.getElem?_eq_getElem (by omega),
    List.getElem?_eq_getElem (by omega), List.getElem?_eq_getElem (by omega), ?_⟩
  rw [toNat_sliceWord, List.drop_eq_getElem_cons (by omega), List.drop_eq_getElem_cons (by omega),
    List.drop_eq_getElem_cons (by omega), List.drop_eq_getElem_cons (by omega)]
  simp only [List.take_succ_cons, List.take_zero, beValue, List.foldl_cons, List.foldl_nil]
  ring

/-! ### The words of a row as one frame (R222) -/

/-- The leading bits of a word are its most significant ones (R165). -/
theorem bitsValue_take_wordBits (w : Word) {n : Nat} (hn : n ≤ 32) :
    bitsValue ((wordBits w).take n) = w.toNat / 2 ^ (32 - n) := by
  induction n with
  | zero => exact (Nat.div_eq_of_lt w.isLt).symm
  | succ n ih =>
    have hbit : (wordBits w)[n]? = some (w.getLsbD (31 - n)) := by rw [getElem?_wordBits, if_pos (by omega)]
    have hhalf : w.toNat / 2 ^ (32 - n) = w.toNat / 2 ^ (31 - n) / 2 := by
      rw [show 32 - n = 31 - n + 1 by omega, pow_succ, Nat.div_div_eq_div_mul]
    rw [List.take_add_one, hbit, bitsValue_append, ih (by omega), hhalf, show 32 - (n + 1) = 31 - n by omega]
    have hlast : bitsValue [w.getLsbD (31 - n)] = w.toNat / 2 ^ (31 - n) % 2 := by
      rw [← Nat.toNat_testBit]
      exact Nat.zero_add _
    show _ * 2 ^ 1 + bitsValue [w.getLsbD (31 - n)] = _
    omega

/-- The bits of a word in sending order are its value (R165, R171). -/
@[simp] theorem bitsValue_wordBits (w : Word) : bitsValue (wordBits w) = w.toNat := by
  rw [← wordBits_eq_take, bitsValue_take_wordBits w (Nat.le_refl _), Nat.sub_self, pow_zero, Nat.div_one]

@[simp] theorem length_flatMap_wordBits (ws : List Word) : (ws.flatMap wordBits).length = 32 * ws.length := by
  induction ws with
  | nil => rfl
  | cons w ws ih => simp [ih]; omega

/-- The bits of the first n words of a row have the value of the first 4n bytes of its slice (R216). -/
theorem bitsValue_sliceWords (e : Enc) (i : Nat) {n : Nat} (hn : 4 * n ≤ (slice e i).length) :
    bitsValue (((List.range n).map (fun k => sliceWord e i k)).flatMap wordBits) =
      beValue ((slice e i).take (4 * n)) := by
  induction n with
  | zero => rfl
  | succ n ih =>
    have hpiece : (((slice e i).drop (4 * n)).take 4).length = 4 := by simp; omega
    rw [List.range_succ, List.map_append, List.flatMap_append, bitsValue_append, ih (by omega), Nat.mul_succ,
      List.take_add, beValue_append, hpiece]
    simp [toNat_sliceWord]

/-- The bits of row i's words in sending order (R165, R216). -/
def rowBits (e : Enc) (i : Nat) : List Bool :=
  ((List.range (wordsPerRow e)).map (fun k => sliceWord e i k)).flatMap wordBits

section RowBits

variable {p : Params} {e : Enc} (g : GeomInv p e)
include g

/-- A configured row is cut into whole words (R9, R217). -/
theorem GeomInv.four_mul_wordsPerRow : 4 * wordsPerRow e = e.paddedSize.toNat := by
  have hp := g.paddedSize_eq
  unfold wordsPerRow
  omega

theorem GeomInv.length_rowBits (i : Nat) : (rowBits e i).length = 8 * e.paddedSize.toNat := by
  have hwords := g.four_mul_wordsPerRow
  rw [rowBits, length_flatMap_wordBits, List.length_map, List.length_range]
  omega

/-- A row's bits have the value of its body, since the padding is zero (R215). -/
theorem GeomInv.bitsValue_rowBits (i : Nat) : bitsValue (rowBits e i) = beValue (body e i) := by
  have hlen : (slice e i).length = 4 * wordsPerRow e := (g.length_slice i).trans g.four_mul_wordsPerRow.symm
  rw [rowBits, bitsValue_sliceWords e i hlen.ge, ← hlen, List.take_length, beValue_slice]

end RowBits

/-- A body fits a chain of one bit for each bit of its fields. -/
theorem beValue_body_lt (e : Enc) (i : Nat) :
    beValue (body e i) < 2 ^ (8 * (e.rowBytes.toNat + e.colBytes.toNat)) := by
  have hlt := beValue_lt (body e i)
  rwa [length_body, show (256 : Nat) = 2 ^ 8 from rfl, ← pow_mul] at hlt

/-- Settles O20: the bits of the row's words are a frame, and a chain of the data's length keeps the whole body. -/
theorem eachRowIsLatchedAsOneFrame : Obligations.EachRowIsLatchedAsOneFrame := by
  intro s i more rest o g hi hc he hp hl hcount h0 hchain hphys hfifo hq
  have hlen : (rowBits s.enc i).length = s.ser.chain.toNat := (g.length_rowBits i).trans hchain.symm
  have hpos : 0 < (rowBits s.enc i).length := by
    have hrow := g.wordsPerRow_pos
    have hwords := g.four_mul_wordsPerRow
    omega
  have hout : outBits s.ser = rowBits s.enc i ++ more.flatMap wordBits := by
    rw [outBits, h0, List.take_zero, List.nil_append, hfifo, List.flatMap_append, rowBits, wordsPerRow]
  have hphys_le : o.physBits ≤ (rowBits s.enc i).length := by
    have hdata := g.dataSize_le
    omega
  have hle : s.ser.osrCount ≤ 32 := h0 ▸ Nat.zero_le _
  rw [← hlen] at hq ⊢
  obtain ⟨-, t, hrun, hrest, hphase, hzero, -, -, hlatches, -⟩ :=
    frameDrivesItsLineSequence s _ _ rest hc he hp hl hle hcount hpos hlen hout hq
  refine ⟨?_, t, hrun, hlatches, hphase, hzero, hrest⟩
  rw [observerLatchesTheFrame s _ _ rest o hc he hp hl hle hcount hpos hlen hout hphys_le hq, g.bitsValue_rowBits,
    hphys, Nat.mod_eq_of_lt (beValue_body_lt s.enc i)]

end Sys2Proof.Machine

/-! SUPPORT. The encoder's commands (41_encoder.md R201–R203, R219, R221) and the draw engine's step (R220). -/

namespace Sys2Proof.Machine

open Sys2Proof.Claims

/-! ### ECFG -/

section Ecfg

variable {rows cols dpin spin : Nat} {layout : BitVec 6} {s : State}

/-- ECFG responds with its first failing check (R201, R331). -/
theorem exec_ecfg_of_error {e : Err} (h : ecfgError s rows cols dpin spin layout = some e) :
    exec (.ecfg rows cols dpin spin layout) s = .next (failed s e.code 0x10) := by
  rw [exec, execEcfg, h]
  rfl

/-- ECFG with no failing check configures both halves (R201). -/
theorem exec_ecfg_of_accepted (h : ecfgError s rows cols dpin spin layout = none) :
    exec (.ecfg rows cols dpin spin layout) s =
      .next (done { s with enc := encConfigure s.enc rows cols layout,
                           ser := ecfgSer s.ser rows cols dpin spin } 0x00 0) := by
  rw [exec, execEcfg, h]
  rfl

/-- A layout names one row half and one column half exactly when its two kind bits differ (R121). -/
theorem layoutValid_iff (l : BitVec 6) : layoutValid l = true ↔ l.getLsbD 5 ≠ l.getLsbD 2 := bne_iff_ne

theorem layoutValid_eq_false_iff (l : BitVec 6) : layoutValid l = false ↔ l.getLsbD 5 = l.getLsbD 2 :=
  bne_eq_false_iff_eq

/-- Operands that pass every check of ECFG (R201): the converse of `ecfgError_none`. -/
theorem ecfgError_eq_none (hen : s.ser.enabled = false) (hr : 1 ≤ rows) (hr' : rows ≤ 32) (hc : 1 ≤ cols)
    (hc' : cols ≤ s.params.maxCols) (hl : layoutValid layout = true) (hd : dpin < s.params.numPins)
    (hs : spin + 1 < s.params.numPins) (hds : dpin ≠ spin) (hdl : dpin ≠ spin + 1) :
    ecfgError s rows cols dpin spin layout = none := by
  rw [ecfgError, Config.maxRows, if_neg (by simp [hen]), if_neg (by omega), if_neg (by omega), if_neg (by omega),
    if_neg (by simp [hl]), if_neg (by omega), if_neg (by omega)]

end Ecfg

/-- Settles O25: no check fails, and the two halves of the configuration are every field but the draw's and the latch
count. -/
theorem ecfgConstructsTheDisplay : Obligations.EcfgConstructsTheDisplay := by
  intro rows cols dpin spin layout s hen hr hr' hc hc' hl hd hs hds hdl
  refine ⟨_, _, _, rfl, rfl, rfl, ?_⟩
  rw [exec_ecfg_of_accepted (ecfgError_eq_none hen hr hr' hc hc' ((layoutValid_iff layout).2 hl) hd hs hds hdl)]
  rfl

/-- Settles O26: in each clause the checks before the failing one pass. -/
theorem ecfgReportsItsFirstError : Obligations.EcfgReportsItsFirstError := by
  intro rows cols dpin spin layout s
  refine ⟨fun hen => exec_ecfg_of_error (e := .busy) (if_pos hen), fun hen => ?_⟩
  have hidle : ¬s.ser.enabled = true := by simp [hen]
  refine ⟨fun hzero => exec_ecfg_of_error (e := .cfgGeomZero) ?_, fun hr hc =>
    ⟨fun hrows => exec_ecfg_of_error (e := .cfgRows) ?_, fun hrows =>
      ⟨fun hcols => exec_ecfg_of_error (e := .cfgColsMax) ?_, fun hcols =>
        ⟨fun hlayout => exec_ecfg_of_error (e := .cfgLayout) ?_, fun hlayout =>
          ⟨fun hrange => exec_ecfg_of_error (e := .cfgPinRange) ?_, fun hd hs hconf =>
            exec_ecfg_of_error (e := .cfgPinConflict) ?_⟩⟩⟩⟩⟩ <;>
    rw [ecfgError, Config.maxRows, if_neg hidle]
  · rw [if_pos hzero]
  · rw [if_neg (by omega), if_pos hrows]
  · rw [if_neg (by omega), if_neg (by omega), if_pos hcols]
  · rw [if_neg (by omega), if_neg (by omega), if_neg (by omega), if_pos ((layoutValid_eq_false_iff layout).2 hlayout)]
  all_goals have hvalid : ¬layoutValid layout = false := mt (layoutValid_eq_false_iff layout).1 hlayout
  · rw [if_neg (by omega), if_neg (by omega), if_neg (by omega), if_neg hvalid, if_pos hrange]
  · rw [if_neg (by omega), if_neg (by omega), if_neg (by omega), if_neg hvalid, if_neg (by omega), if_pos hconf]

/-! ### EDRAW -/

/-- Settles O32: EDRAW's one check. -/
theorem edrawStartsTheDraw : Obligations.EdrawStartsTheDraw := by
  refine fun s => ⟨fun hc => ?_, fun hc => ?_⟩ <;> rw [exec, execEdraw]
  · rw [if_pos hc]
  · rw [if_neg (by simp [hc]), raise_eq_failed]
    rfl

/-- The host's turn while it waits for its draw (R219, R221). -/
theorem hostStep_of_draw {s : State} (hw : s.wait = .draw) :
    hostStep s = .next (if s.enc.busy then s else completeDraw s) := by
  rw [hostStep, hw]
  exact (apply_ite _ _ _ _).symm

/-- Settles O34: the host's turn while it waits, and, once the draw is over, no words to come after those pushed. -/
theorem edrawCompletesWhenAllWordsAreQueued : Obligations.EdrawCompletesWhenAllWordsAreQueued := by
  refine ⟨fun s rest hq hw => ?_, fun s t n hs hstart hlast hrun hb => ?_⟩
  · rw [step_cons hq, runTurn, hostStep_of_draw (s := { s with schedule := rest }) hw]
    exact ⟨fun hb => by rw [if_pos hb], fun hb => by rw [if_neg (by simp [hb])]; rfl⟩
  · rw [← drawUnderBackpressurePushesItsWordsInOrder s t n hs hstart hlast hrun, wordsToCome_of_not_busy hb,
      List.append_nil]

/-! ### The draw engine's step -/

/-- The draw engine's turn between draws, or on a full queue (R11, R220). -/
theorem step_drawEngine_of_hold {s : State} {rest : List Turn} (hq : s.schedule = .agent .drawEngine :: rest)
    (h : s.enc.busy = false ∨ fifoFull s = true) : step s = .next { s with schedule := rest } := by
  rw [step_cons hq]
  obtain ⟨hb, hf, -⟩ | ⟨-, he⟩ := drawStep_cases { s with schedule := rest }
  · rcases h with h | h
    · exact absurd (hb.symm.trans h) nofun
    · exact absurd (h.symm.trans hf) nofun
  · exact congrArg _ he

section Cursor

variable {p : Config.Params} {e : Enc} (g : GeomInv p e)
include g

/-- Inside a row the cursor moves to the next word (R220). -/
theorem GeomInv.advanceCursor_word (h : e.curWord.toNat + 1 < wordsPerRow e) :
    advanceCursor e = { e with curWord := e.curWord + 1 } := by
  have hlt := g.wordsPerRow_lt
  rw [advanceCursor, if_neg (by bv_omega)]

/-- After the last word of a row the cursor moves to the next row (R220). -/
theorem GeomInv.advanceCursor_row (h : e.curWord.toNat + 1 = wordsPerRow e) (hr : e.curRow.toNat + 1 < e.rows.toNat) :
    advanceCursor e = { e with curWord := 0, curRow := e.curRow + 1 } := by
  have hlt := g.wordsPerRow_lt
  rw [advanceCursor, if_pos (by bv_omega), if_neg (by bv_omega)]

/-- After the last word of the last row the draw ends (R220). -/
theorem GeomInv.advanceCursor_end (h : e.curWord.toNat + 1 = wordsPerRow e) (hr : e.curRow.toNat + 1 = e.rows.toNat) :
    advanceCursor e = { e with curWord := 0, curRow := 0, busy := false } := by
  have hlt := g.wordsPerRow_lt
  rw [advanceCursor, if_pos (by bv_omega), if_pos (by bv_omega)]

end Cursor

/-- Settles O33: the draw engine's turn is a hold, or a push with one of the cursor's three moves. -/
theorem drawStepPushesOneWord : Obligations.DrawStepPushesOneWord := by
  intro s rest hs hq
  refine ⟨fun hb => step_drawEngine_of_hold hq (.inl hb),
    fun _ hfull => step_drawEngine_of_hold hq (.inr ((fifoFull_iff s).2 hfull.ge)), fun hb hroom => ?_⟩
  have g : GeomInv s.params s.enc := hs.enc.geom (hs.enc.cursor_busy hb).1
  exact ⟨_, step_push hq hb hroom, g.advanceCursor_word,
    fun hlast => ⟨g.advanceCursor_row hlast, g.advanceCursor_end hlast⟩⟩

end Sys2Proof.Machine

/-! SUPPORT. The framebuffer commands (42_framebuffer.md R250–R255): what each answers outside the geometry and inside it,
and the bytes it writes. -/

namespace Sys2Proof.Machine

open Sys2Proof.Config (Params)
open Sys2Proof.Claims

/-! ### Bounds -/

/-- A pixel lies in the geometry (R250). -/
theorem inBounds_iff {e : Enc} {x y : Nat} : inBounds e x y = true ↔ x < e.cols.toNat ∧ y < e.rows.toNat := by
  simp only [inBounds, Bool.and_eq_true, decide_eq_true_eq]

/-- A byte of the rows in use has an index below their end (R81). -/
theorem fbIndex_lt {e : Enc} {y k : Nat} (hy : y < e.rows.toNat) (hk : k < e.colBytes.toNat) :
    fbIndex e y k < e.rows.toNat * e.colBytes.toNat := by
  calc fbIndex e y k < (y + 1) * e.colBytes.toNat := by rw [fbIndex, Nat.succ_mul]; omega
    _ ≤ e.rows.toNat * e.colBytes.toNat := Nat.mul_le_mul_right _ hy

/-- Setting an area writes the framebuffer and no other element of the encoder. -/
theorem setArea_eq_fb (e : Enc) (xs ys : List Nat) (c : Bool) :
    setArea e xs ys c = { e with fb := (setArea e xs ys c).fb } := by
  obtain ⟨fb, h⟩ := setArea_eq xs ys c e
  rw [h]

/-! ### The commands with a geometry -/

section Configured

variable {s : State} (hc : s.enc.configured = true)
include hc

/-- FPIX on a pixel of the geometry (R252). -/
theorem exec_fpix_inside {x y : Nat} (hx : x < s.enc.cols.toNat) (hy : y < s.enc.rows.toNat) (c : Bool) :
    exec (.fpix x y c) s =
      .next (done { s with enc := { s.enc with fb := (setpix s.enc x y c).fb } } 0x00 0) := by
  rw [exec, execFpix, if_pos hc, if_pos (inBounds_iff.2 ⟨hx, hy⟩), setpix_eq, respondOk_eq_done]

/-- FPIX outside the geometry (R252). -/
theorem exec_fpix_outside {x y : Nat} (hxy : ¬(x < s.enc.cols.toNat ∧ y < s.enc.rows.toNat)) (c : Bool) :
    exec (.fpix x y c) s = .next (done s 0x00 0) := by
  rw [exec, execFpix, if_pos hc, if_neg (mt inBounds_iff.1 hxy), respondOk_eq_done]

/-- FPGET on a pixel of the geometry (R253). -/
theorem exec_fpget_inside {x y : Nat} (hx : x < s.enc.cols.toNat) (hy : y < s.enc.rows.toNat) :
    exec (.fpget x y) s = .next (done s 0x00 (if pix s.enc x y then 1 else 0)) := by
  rw [exec, execFpget, if_pos hc, if_pos (inBounds_iff.2 ⟨hx, hy⟩)]
  cases pix s.enc x y <;> rfl

/-- FPGET outside the geometry (R253). -/
theorem exec_fpget_outside {x y : Nat} (hxy : ¬(x < s.enc.cols.toNat ∧ y < s.enc.rows.toNat)) :
    exec (.fpget x y) s = .next (done s 0x00 0) := by
  rw [exec, execFpget, if_pos hc, if_neg (mt inBounds_iff.1 hxy)]
  rfl

/-- FFILL sets the area of the whole geometry (R254). -/
theorem exec_ffill_of_configured (c : Bool) :
    exec (.ffill c) s = .next (done { s with enc := { s.enc with fb :=
      (setArea s.enc (List.range s.enc.cols.toNat) (List.range s.enc.rows.toNat) c).fb } } 0x00 0) := by
  rw [exec, execFfill, if_pos hc, setArea_eq_fb, respondOk_eq_done]

/-- FRECT sets the area of the clipped spans (R255). -/
theorem exec_frect_of_configured (x y w h : Nat) (c : Bool) :
    exec (.frect x y w h c) s = .next (done { s with enc := { s.enc with fb :=
      (setArea s.enc (span x w s.enc.cols.toNat) (span y h s.enc.rows.toNat) c).fb } } 0x00 0) := by
  rw [exec, execFrect, if_pos hc, setArea_eq_fb, respondOk_eq_done]

end Configured

/-! ### The areas they paint -/

/-- FFILL paints exactly the pixels of the geometry (R254). -/
theorem setArea_range_painted {p : Params} {e : Enc} (h : EncInv p e) (hc : e.configured = true) (c : Bool) :
    Painted e (setArea e (List.range e.cols.toNat) (List.range e.rows.toNat) c)
      (fun x y => x < e.cols.toNat ∧ y < e.rows.toNat) c :=
  (setArea_painted h.fb_wf _ _
    (fun _ hx => Nat.lt_of_lt_of_le (List.mem_range.1 hx) (h.geom hc).cols_le) c).congr
    fun x y => by rw [List.mem_range, List.mem_range]

/-- FRECT paints exactly the pixels of the clipped rectangle (R255). -/
theorem setArea_span_painted {p : Params} {e : Enc} (h : EncInv p e) (hc : e.configured = true) (x y w l : Nat)
    (c : Bool) :
    Painted e (setArea e (span x w e.cols.toNat) (span y l e.rows.toNat) c) (InClipped e x y w l) c :=
  (setArea_painted h.fb_wf _ _
    (fun _ hx => Nat.lt_of_lt_of_le (mem_span.1 hx).2.2 (h.geom hc).cols_le) c).congr
    fun x' y' => by rw [mem_span, mem_span, InClipped]

/-! ### The statements -/

/-- Settles O37: each of the four commands is a choice on the geometry first. -/
theorem framebufferCommandsNeedAGeometry : Obligations.FramebufferCommandsNeedAGeometry := by
  intro s x y w h c hc
  have hn : ¬s.enc.configured = true := by simp [hc]
  exact ⟨if_neg hn, if_neg hn, if_neg hn, if_neg hn⟩

/-- Settles O38: inside the geometry one bit of the pixel's byte is replaced, and no other index is written. -/
theorem fpixWritesOnePixel : Obligations.FpixWritesOnePixel := by
  intro s x y c hs hc
  refine ⟨fun hout => exec_fpix_outside hc hout c, fun hx hy => ⟨_, exec_fpix_inside hc hx hy c, ?_⟩⟩
  have hbyte : Memory.read (setpix s.enc x y c).fb (fbIndex s.enc y (x / 8)) =
      setBit (fbRead s.enc y (x / 8)) (7 - x % 8) c := by rw [read_setpix hs.enc.fb_wf, if_pos rfl, fbRead]
  rw [← fbIndex, hbyte]
  refine ⟨?_, fun j hj hne => ?_, fun a ha => ?_⟩
  · rw [getLsbD_setBit _ _ _ _ (by omega), if_pos rfl]
  · rw [getLsbD_setBit _ _ _ _ hj, if_neg hne, fbRead]
  · rw [read_setpix hs.enc.fb_wf, if_neg ha]

/-- Settles O39: the bit that the statement names is the pixel. -/
theorem fpgetReadsThePixel : Obligations.FpgetReadsThePixel := fun _ _ _ hc =>
  ⟨fun hx hy => exec_fpget_inside hc hx hy, fun hout => exec_fpget_outside hc hout⟩

/-- Settles O40: the painted pixels are those of the geometry, so the pads keep their 0 and the bytes past the rows in
use hold no painted pixel. -/
theorem ffillSetsEveryPixel : Obligations.FfillSetsEveryPixel := by
  intro s c hs hc
  have hcols := (hs.enc.geom hc).cols_le
  have hp := setArea_range_painted hs.enc hc c
  refine ⟨_, exec_ffill_of_configured hc c, ?_⟩
  rw [← hp.eq]
  refine ⟨fun x y hx hy => hp.inside x y (by omega) ⟨hx, hy⟩, (hs.enc.painted hc hp fun _ _ hxy => hxy).pad_clear,
    fun a ha => hp.bytes a ?_⟩
  rintro x y ⟨hx, hy⟩
  exact (Nat.lt_of_lt_of_le (fbIndex_lt hy (by omega)) ha).ne'

/-- Settles O41: the painted pixels are those of the clipped rectangle. -/
theorem frectFillsTheClippedRectangle : Obligations.FrectFillsTheClippedRectangle := by
  intro s x y w h c hs hc
  have hp := setArea_span_painted hs.enc hc x y w h c
  refine ⟨_, exec_frect_of_configured hc x y w h c, ?_⟩
  rw [← hp.eq]
  refine ⟨fun x' y' hx' hy' => ?_, fun a ha => hp.bytes a ?_⟩
  · split
    next hin => exact hp.inside x' y' hx' (by unfold InClipped; omega)
    next hout => exact hp.outside x' y' hx' (by unfold InClipped; omega)
  · rintro x' y' ⟨⟨hlx, hux, hx⟩, hly, huy, hy⟩
    exact ha x' y' hlx hux hx hly huy hy

end Sys2Proof.Machine

/-! SUPPORT. The debouncer (43_debounce.md R283–R287): what DCFG and a line change do to an instance, and a burst of
edges inside the interval. -/

namespace Sys2Proof.Machine

open Sys2Proof.Claims

/-- The instance that the block reads (R52). -/
theorem debAt_of_getElem? {s : State} {i : Nat} {d : Deb} (hd : s.deb[i]? = some d) : debAt s i = d := by
  rw [debAt, List.getD_eq_getElem?_getD, hd, Option.getD_some]

/-! ### DCFG -/

/-- Settles O43: DCFG's one check. -/
theorem dcfgMakesAFreshInstance : Obligations.DcfgMakesAFreshInstance := by
  refine fun s i en interval => ⟨fun hi => ?_, fun d hi hd => ?_⟩ <;> rw [exec, execDcfg]
  · rw [if_pos hi, raise_eq_failed]
    rfl
  · rw [if_neg (by omega), debAt_of_getElem? hd, respondOk_eq_done, freshDeb]

/-! ### The line change -/

section LineChange

variable {s : State} {i : Nat} {v : Bool} {d : Deb} {rest : List Turn} (hq : s.schedule = .lineChange i v :: rest)
  (hi : i < s.params.numButtons) (hd : s.deb[i]? = some d)
include hq hi hd

/-- The turn of a line that exists, as the edge rule's one choice (R284, R285). -/
theorem step_lineChange : step s = .next
    (if d.lvl = false ∧ v = true ∧ d.en = true ∧ accepts d s.msNow = true then
      { s with schedule := rest, btn := s.btn.set i v, events := s.events ++ [.fire i s.msNow],
               deb := s.deb.set i (triggered { d with lvl := v } s.msNow) }
    else { s with schedule := rest, btn := s.btn.set i v, deb := s.deb.set i { d with lvl := v } }) := by
  have hdeb : debAt { s with schedule := rest } i = d := debAt_of_getElem? hd
  have hrule : (!d.lvl && v && d.en && accepts { d with lvl := v } s.msNow) = true ↔
      d.lvl = false ∧ v = true ∧ d.en = true ∧ accepts d s.msNow = true := by
    simp only [Bool.and_eq_true, Bool.not_eq_true', and_assoc]
    rfl
  rw [step_cons hq, runTurn, lineChange, if_pos hi, hdeb, apply_ite Host.Outcome.next]
  exact if_congr hrule rfl rfl

/-- An edge that is not accepted, and any fall, set the line and the instance's view of it alone (R284, R285). -/
theorem step_lineChange_of_not_accepted (h : v = true → accepts d s.msNow = false) : step s =
    .next { s with schedule := rest, btn := s.btn.set i v, deb := s.deb.set i { d with lvl := v } } := by
  rw [step_lineChange hq hi hd, if_neg]
  rintro ⟨-, hv, -, ha⟩
  exact absurd (ha.symm.trans (h hv)) nofun

end LineChange

/-- Settles O44: the edge rule's one choice, with `accepts` in numbers. -/
theorem lineChangeFiresOrDrops : Obligations.LineChangeFiresOrDrops := by
  intro s i v d rest hq hi hd
  rw [← accepts_iff, step_lineChange hq hi hd]
  refine ⟨fun h => ?_, fun h => by rw [if_neg h]⟩
  rw [if_pos h, h.2.1, triggered]

/-! ### A burst inside the interval -/

/-- Inside the interval an instance that has fired accepts no edge (R285). -/
theorem accepts_eq_false {d : Deb} {e : Nat} (hf : d.hasFired = true) (hint : e < d.interval.toNat) :
    accepts d (d.last + BitVec.ofNat 32 e) = false := by
  have helapsed : d.last + BitVec.ofNat 32 e - d.last = BitVec.ofNat 32 e := by
    rw [BitVec.add_comm, BitVec.add_sub_cancel]
  have hlt : BitVec.ofNat 32 e < d.interval := by
    rwa [BitVec.lt_def, BitVec.toNat_ofNat, Nat.mod_eq_of_lt (hint.trans d.interval.isLt)]
  simp [accepts, hf, helapsed, hlt]

/-- The clock's turn (R281). -/
theorem step_advanceTime {s : State} {g : Nat} {rest : List Turn} (hq : s.schedule = .advanceTime g :: rest) :
    step s = .next { s with schedule := rest, msNow := s.msNow + BitVec.ofNat 32 g } := by
  rw [step_cons hq, runTurn, advanceTime]

/-- The turns of a burst are those of its first edge and then the rest. -/
theorem edges_cons (i g : Nat) (gaps : List Nat) : edges i (g :: gaps) =
    .lineChange i false :: .advanceTime g :: .lineChange i true :: edges i gaps := rfl

/-- Writing back what is there changes nothing, whatever was written between. -/
theorem set_set_of_getElem? {α : Type} {l : List α} {i : Nat} {a : α} (h : l[i]? = some a) (b : α) :
    (l.set i b).set i a = l := by
  obtain ⟨hi, rfl⟩ := List.getElem?_eq_some_iff.1 h
  rw [List.set_set, List.set_getElem_self]

/-- A fall, some milliseconds and a rise that is not accepted leave the line and the instance as they were (R286,
R287). -/
theorem run_dropped_edge {s : State} {i g : Nat} {d : Deb} {rest : List Turn}
    (hq : s.schedule = .lineChange i false :: .advanceTime g :: .lineChange i true :: rest)
    (hi : i < s.params.numButtons) (hd : s.deb[i]? = some d) (hb : s.btn[i]? = some true) (hl : d.lvl = true)
    (ha : accepts d (s.msNow + BitVec.ofNat 32 g) = false) (n : Nat) :
    run (n + 3) s = run n { s with schedule := rest, msNow := s.msNow + BitVec.ofNat 32 g } := by
  have hlow : (s.deb.set i { d with lvl := false })[i]? = some { d with lvl := false } :=
    List.getElem?_set_self (List.getElem?_eq_some_iff.1 hd).1
  have hback : { d with lvl := true } = d := by rw [← hl]
  have hrise : step { s with
      schedule := .lineChange i true :: rest, msNow := s.msNow + BitVec.ofNat 32 g, btn := s.btn.set i false,
      deb := s.deb.set i { d with lvl := false } } =
        .next { s with schedule := rest, msNow := s.msNow + BitVec.ofNat 32 g } := by
    refine Eq.trans (step_lineChange_of_not_accepted rfl hi hlow fun _ => ha) ?_
    simp only [hback, set_set_of_getElem? hd, set_set_of_getElem? hb]
  rw [run_succ _ (step_lineChange_of_not_accepted hq hi hd nofun), run_succ _ (step_advanceTime rfl)]
  exact run_succ _ hrise

/-- e milliseconds after the last accepted trigger, a burst that ends inside the interval only moves the clock (R286,
R287). -/
theorem run_edges_inside_interval {i e : Nat} {d : Deb} {gaps : List Nat} {rest : List Turn} {s : State}
    (hq : s.schedule = edges i gaps ++ rest) (hi : i < s.params.numButtons) (hd : s.deb[i]? = some d)
    (hb : s.btn[i]? = some true) (hf : d.hasFired = true) (hl : d.lvl = true)
    (hnow : s.msNow = d.last + BitVec.ofNat 32 e) (hint : e + gaps.sum < d.interval.toNat) :
    run (3 * gaps.length) s = .next { s with schedule := rest, msNow := s.msNow + BitVec.ofNat 32 gaps.sum } := by
  induction gaps generalizing s e with
  | nil =>
    have hrest : s.schedule = rest := hq
    rw [← hrest]
    simp [run]
  | cons g gaps ih =>
    rw [List.sum_cons] at hint ⊢
    have hnow' : s.msNow + BitVec.ofNat 32 g = d.last + BitVec.ofNat 32 (e + g) := by
      rw [hnow, BitVec.add_assoc, BitVec.ofNat_add]
    have ha : accepts d (s.msNow + BitVec.ofNat 32 g) = false := by
      rw [hnow']
      exact accepts_eq_false hf (by omega)
    rw [edges_cons] at hq
    rw [List.length_cons, Nat.mul_succ, run_dropped_edge hq hi hd hb hl ha, BitVec.ofNat_add, ← BitVec.add_assoc]
    exact ih rfl hi hd hb hnow' (by omega)

/-- Settles O45: the burst begins at the accepted trigger itself. The interval is a 32-bit number, so time that stays
inside it does not wrap. -/
theorem burstInsideTheIntervalIsDropped : Obligations.BurstInsideTheIntervalIsDropped := by
  rintro s i d gaps rest hq hi hd hb - hf hl hnow ⟨-, hint⟩
  exact run_edges_inside_interval (e := 0) hq hi hd hb hf hl (by simp [hnow]) (by omega)

end Sys2Proof.Machine

/-! SUPPORT. The error record (44_status.md R312): CLRERR's one effect. -/

namespace Sys2Proof.Machine

open Sys2Proof.Claims

/-- Settles O48: CLRERR is the cleared record and an OK response. -/
theorem clrerrClearsTheRecord : Obligations.ClrerrClearsTheRecord := by
  intro s
  rw [exec, execClrerr, respondOk_eq_done, clearErr]

end Sys2Proof.Machine

/-! SUPPORT. How a command ends: with OK, with an error, held on the port, or as a draw under way (60_exceptions.md R331,
R334, 30_encoding.md R111, 41_encoder.md R219). -/

namespace Sys2Proof.Machine

open Sys2Proof.Claims

/-- The states in which command i, run in s, can leave the block. In `ok` the state u is s with the command's writes. -/
inductive CommandEnd (i : Instr) (s : State) : State → Prop
  | ok (u : State) (v : Word) (hresp : u.responses = s.responses) (herr : i ≠ .clrerr → u.errstat = s.errstat) :
      CommandEnd i s (respond okCode v u)
  | fail (e : Err) : CommandEnd i s (raise e i.op.code s)
  | hold (w : Word) (hi : i = .senq w) (hc : s.ser.configured = true) (hfull : fifoFull s = true) : CommandEnd i s s
  | draw (hi : i = .edraw) :
      CommandEnd i s { s with enc := { s.enc with busy := true, curRow := 0, curWord := 0 }, wait := .draw }

/-- Every command ends in one of these ways. -/
theorem CommandEnd.exec {i : Instr} {s t : State} (h : exec i s = .next t) : CommandEnd i s t := by
  cases i with
  | scfg =>
    obtain ⟨e, -, rfl⟩ | ⟨-, rfl⟩ := execScfg_cases h
    · exact .fail e
    · exact .ok _ _ rfl fun _ => rfl
  | sstart =>
    obtain ⟨-, rfl⟩ | ⟨-, rfl⟩ := execSstart_cases h
    · exact .ok _ _ rfl fun _ => rfl
    · exact .fail _
  | sstop =>
    rw [execSstop_cases h]
    exact .ok _ _ rfl fun _ => rfl
  | senq w =>
    obtain ⟨hc, hfull, rfl⟩ | ⟨-, -, rfl⟩ | ⟨-, rfl⟩ := execSenq_cases h
    · exact .hold w rfl hc hfull
    · exact .ok _ _ rfl fun _ => rfl
    · exact .fail _
  | ecfg =>
    obtain ⟨e, -, rfl⟩ | ⟨-, rfl⟩ := execEcfg_cases h
    · exact .fail e
    · exact .ok _ _ rfl fun _ => rfl
  | edraw =>
    obtain ⟨-, rfl⟩ | ⟨-, rfl⟩ := execEdraw_cases h
    · exact .draw rfl
    · exact .fail _
  | fpix =>
    obtain ⟨-, -, rfl⟩ | ⟨-, -, rfl⟩ | ⟨-, rfl⟩ := execFpix_cases h
    · exact .ok _ _ rfl fun _ => rfl
    · exact .ok _ _ rfl fun _ => rfl
    · exact .fail _
  | fpget =>
    obtain ⟨-, v, rfl⟩ | ⟨-, rfl⟩ := execFpget_cases h
    · exact .ok _ v rfl fun _ => rfl
    · exact .fail _
  | ffill =>
    obtain ⟨-, rfl⟩ | ⟨-, rfl⟩ := execFfill_cases h
    · exact .ok _ _ rfl fun _ => rfl
    · exact .fail _
  | frect =>
    obtain ⟨-, rfl⟩ | ⟨-, rfl⟩ := execFrect_cases h
    · exact .ok _ _ rfl fun _ => rfl
    · exact .fail _
  | dcfg =>
    obtain ⟨-, rfl⟩ | ⟨-, rfl⟩ := execDcfg_cases h
    · exact .fail _
    · exact .ok _ _ rfl fun _ => rfl
  | rdreg =>
    obtain ⟨v, -, rfl⟩ | ⟨-, rfl⟩ := execRdreg_cases h
    · exact .ok _ v rfl fun _ => rfl
    · exact .fail _
  | clrerr =>
    rw [execClrerr_cases h]
    exact .ok _ _ rfl fun hne => absurd rfl hne

/-- The table of R330 lists every error's code. -/
theorem code_mem_errorCodes (e : Err) : e.code ∈ errorCodes := by cases e <;> decide

/-- Settles O8: the four ways of `CommandEnd` are those of the statement. -/
theorem everyCommandEndsInOneOfFourWays : Obligations.EveryCommandEndsInOneOfFourWays := by
  intro i s
  obtain ⟨t, ht⟩ := exec_next i s
  refine ⟨t, ht, ?_⟩
  cases CommandEnd.exec ht with
  | ok u v hresp herr => exact .inl ⟨rfl, ⟨v, by rw [respond_responses, hresp, okCode]⟩, herr⟩
  | fail e => exact .inr (.inl ⟨e.code, code_mem_errorCodes e, raise_eq_failed e _ s⟩)
  | hold w hi hc hfull => exact .inr (.inr (.inl ⟨⟨w, hi⟩, hc, (fifoFull_iff s).1 hfull, rfl⟩))
  | draw hi => exact .inr (.inr (.inr ⟨hi, rfl, rfl, rfl, rfl, rfl⟩))

end Sys2Proof.Machine

/-! SUPPORT. Holds on a full queue (70_reset_and_hazards.md R381): how far the serializer's next pop is, what a turn can
do while the host is held, and so when a hold ends and when it is a hang. -/

namespace Sys2Proof.Machine

open Sys2Proof.Config (Params Agent)
open Sys2Proof.Claims

/-! ### The distance to the next pop -/

/-- The most ticks up to and with the next pop: a bit of the word under way takes four when a latch follows it, and the
phase says how far the bit just sent has come (R160). -/
def ticksToPop (x : Ser) : Nat :=
  4 * x.osrCount + match x.phase with
    | .shiftLow => 1
    | .latchLow => 2
    | .latchHigh => 3
    | .shiftHigh => 4

theorem ticksToPop_pos (x : Ser) : 0 < ticksToPop x := by
  unfold ticksToPop
  split <;> omega

theorem ticksToPop_le (x : Ser) : ticksToPop x ≤ 4 * x.osrCount + 4 := by
  unfold ticksToPop
  split <;> omega

/-- A running serializer with a word queued does not stall (R161). -/
theorem exists_tick_of_queued {x : Ser} (hc : x.configured = true) (he : x.enabled = true) (hf : x.fifo ≠ []) :
    ∃ y, tick x = some y := by
  cases ht : tick x with
  | none =>
    obtain hn | hn | ⟨-, -, hn⟩ := tick_none ht
    · exact absurd (hc.symm.trans hn) nofun
    · exact absurd (he.symm.trans hn) nofun
    · exact absurd hn hf
  | some y => exact ⟨y, rfl⟩

/-- A tick pops a word, or keeps the queue and brings the pop nearer (R160). -/
theorem tick_pops_or_nears {x y : Ser} (h : tick x = some y) :
    y.fifo = x.fifo.tail ∨ (y.fifo = x.fifo ∧ ticksToPop y < ticksToPop x) := by
  obtain ⟨-, -, ⟨w, ws, -, -, hf, rfl⟩ | ⟨hp, hpos, rfl⟩ | ⟨hp, rfl⟩ | ⟨hp, rfl⟩ | ⟨hp, rfl⟩⟩ := tick_cases h
  · exact .inl (by rw [hf]; rfl)
  all_goals refine .inr ⟨rfl, ?_⟩
  · simp only [ticksToPop, shiftOut, hp]
    omega
  · simp only [ticksToPop, tickShiftHigh, hp]
    split_ifs <;> simp
  · simp [ticksToPop, tickLatchHigh, hp]
  · simp [ticksToPop, tickLatchLow, hp]

/-- A running serializer with a word queued pops it when it has as many turns as the pop is away. -/
theorem exists_run_pop {s : State} {rest : List Turn} {n : Nat} (hc : s.ser.configured = true)
    (he : s.ser.enabled = true) (hf : s.ser.fifo ≠ []) (hn : ticksToPop s.ser ≤ n)
    (hq : s.schedule = List.replicate n (.agent .serializer) ++ rest) :
    ∃ k t, k ≤ n ∧ run k s = .next t ∧ t.ser.fifo = s.ser.fifo.tail := by
  induction n generalizing s with
  | zero => exact absurd hn (Nat.not_le.2 (ticksToPop_pos _))
  | succ n ih =>
    obtain ⟨y, ht⟩ := exists_tick_of_queued hc he hf
    obtain ⟨hyc, hye, -⟩ := tick_config ht
    rw [List.replicate_succ, List.cons_append] at hq
    have hstep := step_of_tick hq ht
    obtain hpop | ⟨hkeep, hnear⟩ := tick_pops_or_nears ht
    · exact ⟨1, _, Nat.succ_le_succ (Nat.zero_le n), run_succ 0 hstep, hpop⟩
    · obtain ⟨k, t, hk, hrun, hpop⟩ := ih
        (s := { s with schedule := List.replicate n (.agent .serializer) ++ rest, ser := y })
        (hyc.trans hc) (hye.trans he) (hkeep ▸ hf) (Nat.le_of_lt_succ (Nat.lt_of_lt_of_le hnear hn)) rfl
      exact ⟨k + 1, t, Nat.succ_le_succ hk, (run_succ k hstep).trans hrun, hpop.trans (congrArg List.tail hkeep)⟩

/-- Settles O22: the pop is at most 4·osrCount + 4 ticks away, right after a falling SHIFT edge. -/
theorem enabledSerializerPopsAWordInBoundedTurns : Obligations.EnabledSerializerPopsAWordInBoundedTurns :=
  fun s _ hs he hf hq => exists_run_pop (hs.ser.enabled_configured he) he hf (ticksToPop_le s.ser) hq

/-! ### A turn while the host is held -/

/-- The two ways of being held on a full queue (R334, R381). -/
theorem hostHeld_iff (s : State) : hostHeld s = true ↔ fifoFull s = true ∧
    ((s.wait = .draw ∧ s.enc.busy = true) ∨
     (s.wait = .none ∧ s.ser.configured = true ∧ ∃ c w, s.port = some c ∧ decode c = .ok (.senq w))) := by
  rw [hostHeld, Bool.and_eq_true]
  refine and_congr_right fun hfull => ?_
  cases hw : s.wait with
  | draw => simp
  | none =>
    cases hp : s.port with
    | none => simp [senqHolds, hp]
    | some c =>
      simp only [senqHolds, hp]
      split
      · rename_i w hd
        simp [hd, hfull]
      · rename_i hne
        simpa using fun _ => hne

/-- A held host's turn changes nothing (R11, R157, R219). -/
theorem hostStep_of_hostHeld {s : State} (h : hostHeld s = true) : hostStep s = .next s := by
  obtain ⟨hfull, ⟨hw, hb⟩ | ⟨hw, hc, c, w, hp, hd⟩⟩ := (hostHeld_iff s).1 h
  · rw [hostStep_of_draw hw, if_pos hb]
  · rw [hostStep, hw, hp]
    show runCommand c s = .next s
    rw [runCommand_ok hd, exec, execSenq, if_pos hc, if_pos hfull]

/-- The draw engine holds on a full queue (R220). -/
theorem drawStep_of_fifoFull {s : State} (h : fifoFull s = true) : drawStep s = s := by
  obtain ⟨-, hn, -⟩ | ⟨-, he⟩ := drawStep_cases s
  · exact absurd (h.symm.trans hn) nofun
  · exact he

/-- While the host is held, only the serializer's turn and RESET do more than the environment's inputs (R381). -/
theorem runTurn_of_hostHeld {u : Turn} {s t : State} (hh : hostHeld s = true) (hr : u ≠ .reset)
    (hs : u ≠ .agent .serializer) (h : runTurn u s = .next t) :
    t = { s with msNow := t.msNow, btn := t.btn, deb := t.deb, events := t.events } := by
  cases u with
  | agent a =>
    cases a with
    | host => cases (hostStep_of_hostHeld hh).symm.trans h; rfl
    | drawEngine =>
      obtain ⟨hfull, -⟩ := (hostHeld_iff s).1 hh
      cases (congrArg Host.Outcome.next (drawStep_of_fifoFull hfull)).symm.trans h
      rfl
    | serializer => exact absurd rfl hs
  | advanceTime ms => cases h; rfl
  | lineChange i v => rw [(lineChange_frame h).1]
  | reset => exact absurd rfl hr
  | foreignWrite y k b => cases h
  | primitive p => cases h

/-! ### A hang -/

/-- A turn in a hang: the stopped serializer does nothing either (R381). -/
theorem runTurn_of_hung {u : Turn} {s t : State} (hh : hung s = true) (hr : u ≠ .reset) (h : runTurn u s = .next t) :
    t = { s with msNow := t.msNow, btn := t.btn, deb := t.deb, events := t.events } := by
  rw [hung, Bool.and_eq_true, Bool.not_eq_true'] at hh
  obtain ⟨hheld, hstop⟩ := hh
  by_cases hs : u = .agent .serializer
  · subst hs
    have hidle : serializerStep s = s := by rw [serializerStep, tick_of_stopped (.inr hstop)]
    cases (congrArg Host.Outcome.next hidle).symm.trans h
    rfl
  · exact runTurn_of_hostHeld hheld hr hs h

/-- Settles O24: no turn but RESET touches what a hang consists of. -/
theorem hangLastsUntilReset : Obligations.HangLastsUntilReset := by
  intro s t hh hr h
  obtain ⟨rest, n, he⟩ := step_eq_runTurn_nextTurn s
  have ht := runTurn_of_hung (s := { s with schedule := rest, choices := n }) hh hr (he ▸ h)
  rw [ht]
  exact ⟨hh, rfl, rfl⟩

/-! ### A hold that ends -/

/-- The host is held on the full queue of a running serializer, in a state of the invariant (R381). -/
structure HeldRunning (s : State) : Prop where
  inv : Inv s
  enabled : s.ser.enabled = true
  held : hostHeld s = true

/-- A full queue is not empty, so the serializer has a step (R8, R161). -/
theorem HeldRunning.exists_tick {s : State} (h : HeldRunning s) : ∃ y, tick s.ser = some y := by
  obtain ⟨hfull, -⟩ := (hostHeld_iff s).1 h.held
  have hlen : 0 < s.ser.fifo.length := Nat.lt_of_lt_of_le h.inv.params.1.1 (le_length_of_fifoFull hfull)
  exact exists_tick_of_queued (h.inv.ser.enabled_configured h.enabled) h.enabled (List.ne_nil_of_length_pos hlen)

/-- A tick that leaves the queue full has not popped, so the host is held as before and the pop is nearer. -/
theorem HeldRunning.tick {s : State} {y : Ser} (h : HeldRunning s) (ht : tick s.ser = some y)
    (hfull : fifoFull { s with ser := y } = true) :
    HeldRunning { s with ser := y } ∧ ticksToPop y < ticksToPop s.ser := by
  obtain ⟨hc, he, -⟩ := tick_config ht
  obtain ⟨-, hwait⟩ := (hostHeld_iff s).1 h.held
  refine ⟨⟨?_, he.trans h.enabled, (hostHeld_iff _).2 ⟨hfull, ?_⟩⟩, ?_⟩
  · exact h.inv.setSer (h.inv.ser.tick ht) fun hec => hc.trans (h.inv.enc_ser hec)
  · exact hwait.imp_right fun ⟨hw, hsc, hport⟩ => ⟨hw, hc.trans hsc, hport⟩
  · obtain hpop | ⟨-, hnear⟩ := tick_pops_or_nears ht
    · have hle := h.inv.ser.fifo_le
      have hpos := h.inv.params.1.1
      have hfull := le_length_of_fifoFull hfull
      rw [hpop, List.length_tail] at hfull
      dsimp only at hfull
      omega
    · exact hnear

/-- A turn that leaves the queue full leaves the host held, and brings the pop nearer when it is the serializer's. -/
theorem HeldRunning.runTurn {u : Turn} {s t : State} (h : HeldRunning s) (hr : u ≠ .reset)
    (ht : runTurn u s = .next t) (hfull : fifoFull t = true) :
    HeldRunning t ∧ ticksToPop t.ser ≤ ticksToPop s.ser ∧
      (u = .agent .serializer → ticksToPop t.ser < ticksToPop s.ser) := by
  by_cases hs : u = .agent .serializer
  · subst hs
    obtain ⟨y, hy⟩ := h.exists_tick
    have hstep : serializerStep s = { s with ser := y } := by rw [serializerStep, hy]
    cases (congrArg Host.Outcome.next hstep).symm.trans ht
    obtain ⟨hheld, hnear⟩ := h.tick hy hfull
    exact ⟨hheld, hnear.le, fun _ => hnear⟩
  · have hinv := h.inv.runTurn ht
    have hframe := runTurn_of_hostHeld h.held hr hs ht
    rw [hframe] at hinv ⊢
    exact ⟨⟨hinv, h.enabled, h.held⟩, le_rfl, fun hu => absurd hu hs⟩

section Run

variable {turns : Nat → Turn} {r : Nat → State} {n : Nat} (hrun : IsRun turns r) (hreset : ∀ m, turns m ≠ .reset)
  (hheld : HeldRunning (r n)) (hfull : ∀ m, n ≤ m → fifoFull (r m) = true)
include hrun hreset hheld hfull

/-- As long as the queue stays full, the host stays held. -/
theorem HeldRunning.stays {m : Nat} (hm : n ≤ m) : HeldRunning (r m) := by
  induction m, hm using Nat.le_induction with
  | base => exact hheld
  | succ m hm ih => exact (ih.runTurn (hreset m) (hrun m) (hfull (m + 1) (Nat.le_succ_of_le hm))).1

/-- As long as the queue stays full, the pop never gets further away. -/
theorem HeldRunning.ticksToPop_antitoneOn : AntitoneOn (fun m => ticksToPop (r m).ser) {m | n ≤ m} :=
  antitoneOn_nat_Ici_of_succ_le fun m hm =>
    ((HeldRunning.stays hrun hreset hheld hfull hm).runTurn (hreset m) (hrun m)
      (hfull (m + 1) (Nat.le_succ_of_le hm))).2.1

end Run

/-- Settles O23: if the queue stayed full, the host would stay held and the serializer would have a step for ever.
Fairness then gives the serializer a turn after the pop is at its nearest, and that turn brings it nearer. -/
theorem fairRunEndsEveryHold : Obligations.FairRunEndsEveryHold := by
  intro turns r hrun hfair hreset n hinv hen hheld
  by_contra! hnoroom
  have hfull (m : Nat) (hm : n ≤ m) : fifoFull (r m) = true := (fifoFull_iff _).2 (hnoroom m hm)
  have hstays {m : Nat} (hm : n ≤ m) : HeldRunning (r m) :=
    HeldRunning.stays hrun hreset ⟨hinv, hen, hheld⟩ hfull hm
  obtain ⟨m, hm, hnearest⟩ := exists_minimalFor_of_wellFoundedLT (n ≤ ·) (fun m => ticksToPop (r m).ser) ⟨n, le_rfl⟩
  have hsteps (j : Nat) (hj : m ≤ j) : fairStep .serializer (r j) = true := by
    obtain ⟨y, hy⟩ := (hstays (hm.trans hj)).exists_tick
    rw [fairStep, hasStep, hy, Option.isSome_some]
  obtain ⟨k, hk, hturn⟩ := hfair .serializer m hsteps
  have hnk : n ≤ k := hm.trans hk
  have hle : ticksToPop (r k).ser ≤ ticksToPop (r m).ser :=
    HeldRunning.ticksToPop_antitoneOn hrun hreset ⟨hinv, hen, hheld⟩ hfull hm hnk hk
  obtain ⟨-, -, hnears⟩ := (hstays hnk).runTurn (hreset k) (hrun k) (hfull (k + 1) (Nat.le_succ_of_le hnk))
  have hlt : ticksToPop (r (k + 1)).ser < ticksToPop (r m).ser := (hnears hturn).trans_le hle
  exact hlt.not_ge (hnearest (Nat.le_succ_of_le hnk) hlt.le)

end Sys2Proof.Machine

/-! SUPPORT. When a turn changes nothing (00_scope.md R11): what a command, a push and a tick change at the least, so
that an agent's turn leaves the state as it was exactly when the agent has no step. -/

namespace Sys2Proof.Machine

/-! ### The host's turn -/

/-- A response lengthens the record of responses, so the state it leaves is another one (R111). -/
theorem respond_ne_of_responses {s u : State} (c : BitVec 8) (v : Word) (h : u.responses = s.responses) :
    respond c v u ≠ s := by
  intro he
  have hr : s.responses ++ [⟨c, v⟩] = s.responses := h ▸ congrArg State.responses he
  exact List.cons_ne_nil _ _ (List.append_right_eq_self.1 hr)

/-- Of the ways a command can end, only the hold leaves the state as it was (R11, R334). -/
theorem CommandEnd.hold_of_eq {i : Instr} {s t : State} (h : CommandEnd i s t) (hw : s.wait = .none) (ht : t = s) :
    (∃ w, i = .senq w) ∧ s.ser.configured = true ∧ fifoFull s = true := by
  cases h with
  | ok u v hresp herr => exact absurd ht (respond_ne_of_responses okCode v hresp)
  | fail e => exact absurd ht (respond_ne_of_responses e.code 0 rfl)
  | hold w hi hc hfull => exact ⟨⟨w, hi⟩, hc, hfull⟩
  | draw hi => exact absurd (hw.symm.trans (congrArg State.wait ht).symm) nofun

/-- When a SENQ holds on the port (R157). -/
theorem senqHolds_iff (s : State) : senqHolds s = true ↔
    ∃ c w, s.port = some c ∧ decode c = .ok (.senq w) ∧ s.ser.configured = true ∧ fifoFull s = true := by
  cases hp : s.port with
  | none => simp [senqHolds, hp]
  | some c =>
    simp only [senqHolds, hp]
    split
    · rename_i w hd
      simp [hd]
    · rename_i hne
      simpa using fun w hd => absurd hd (hne w)

/-- The command on the port changes nothing exactly when it is a SENQ that holds. -/
theorem runCommand_eq_self_iff {w : Command} {s : State} (hw : s.wait = .none) (hp : s.port = some w) :
    runCommand w s = .next s ↔ senqHolds s = true := by
  rw [senqHolds_iff]
  constructor
  · intro h
    obtain ⟨i, hd, he⟩ | ⟨e, he⟩ := runCommand_cases w s <;> rw [he] at h
    · obtain ⟨⟨v, rfl⟩, hc, hfull⟩ := (CommandEnd.exec h).hold_of_eq hw rfl
      exact ⟨w, v, hp, hd, hc, hfull⟩
    · exact absurd (Host.Outcome.next.inj h) (respond_ne_of_responses e.code 0 rfl)
  · rintro ⟨c, v, hp', hd, hc, hfull⟩
    cases hp.symm.trans hp'
    rw [runCommand_ok hd, exec, execSenq, if_pos hc, if_pos hfull]

/-- No command withdraws a command that the host has yet to issue (log 4). -/
theorem runCommand_pending {w : Command} {s t : State} (h : runCommand w s = .next t) : t.pending = s.pending := by
  obtain ⟨i, -, he⟩ | ⟨e, he⟩ := runCommand_cases w s <;> rw [he] at h
  · obtain ⟨-, -, -, -, hpend, -⟩ := (CommandFrame.exec h).inputs
    exact hpend
  · cases h
    rfl

/-- The host's turn changes nothing exactly when the host has no step (R114, R221). -/
theorem hasStep_host_eq_false_iff (s : State) : hasStep .host s = false ↔ hostStep s = .next s := by
  obtain ⟨hw, hb, he⟩ | ⟨hw, hb, he⟩ | ⟨w, hw, hp, he⟩ | ⟨w, ws, hw, hp, hq, he⟩ | ⟨hw, hp, hq, he⟩ :=
    hostStep_cases s <;> rw [he]
  · simp [hasStep, hw, hb]
  · have hne : completeDraw s ≠ s := respond_ne_of_responses okCode 0 rfl
    simp [hasStep, hw, hb, hne]
  · rw [runCommand_eq_self_iff hw hp]
    simp [hasStep, hw, hp]
  · refine iff_of_false ?_ fun h => List.cons_ne_self w ws (hq.symm.trans (runCommand_pending h))
    simp [hasStep, senqHolds, hw, hp, hq]
  · simp [hasStep, hw, hp, hq]

/-! ### The turns of the draw engine and of the serializer -/

/-- The draw engine's turn changes nothing exactly when it is between draws or the queue is full (R220). -/
theorem hasStep_drawEngine_eq_false_iff (s : State) : hasStep .drawEngine s = false ↔ drawStep s = s := by
  obtain ⟨hb, hf, he⟩ | ⟨hno, he⟩ := drawStep_cases s
  · have hne : drawStep s ≠ s := by
      intro h
      have hfifo := congrArg (·.ser.fifo) (he.symm.trans h)
      exact List.cons_ne_nil _ _ (List.append_right_eq_self.1 hfifo)
    simp [hasStep, hb, hf, hne]
  · simpa [hasStep, he, imp_iff_not_or] using hno

/-- Every tick moves to another phase (R160). -/
theorem tick_phase_ne {x y : Ser} (h : tick x = some y) : y.phase ≠ x.phase := by
  obtain ⟨-, -, ⟨w, ws, hp, -, -, rfl⟩ | ⟨hp, -, rfl⟩ | ⟨hp, rfl⟩ | ⟨hp, rfl⟩ | ⟨hp, rfl⟩⟩ := tick_cases h <;> rw [hp]
  · exact nofun
  · exact nofun
  · rw [tickShiftHigh]
    split_ifs <;> exact nofun
  · exact nofun
  · exact nofun

/-- The serializer's turn changes nothing exactly when it has no tick (R160, R161). -/
theorem hasStep_serializer_eq_false_iff (s : State) : hasStep .serializer s = false ↔ serializerStep s = s := by
  obtain ⟨y, ht, he⟩ | ⟨ht, he⟩ := serializerStep_cases s
  · have hne : serializerStep s ≠ s := fun h => tick_phase_ne ht (congrArg (·.ser.phase) (he.symm.trans h))
    simp [hasStep, ht, hne]
  · simp [hasStep, ht, he]

/-- Settles O54: agent by agent. -/
theorem agentHoldsExactlyWithoutAStep : Obligations.AgentHoldsExactlyWithoutAStep := by
  intro a s
  cases a with
  | host => exact hasStep_host_eq_false_iff s
  | drawEngine => rw [runTurn, Host.Outcome.next.injEq, hasStep_drawEngine_eq_false_iff]
  | serializer => rw [runTurn, Host.Outcome.next.injEq, hasStep_serializer_eq_false_iff]

end Sys2Proof.Machine

/-! SUPPORT. RESET (70_reset_and_hazards.md R370, R371), the turns that stop the machine (R380, R256, R56), and the turn
past the end of the schedule (20_memory.md R90). -/

namespace Sys2Proof.Machine

open Sys2Proof.Config (Params)

/-! ### RESET -/

/-- Settles O50: RESET is the state after reset, with the parameters, the inputs and the model's own fields kept. -/
theorem resetSetsEveryStateElement : Obligations.ResetSetsEveryStateElement := by
  intro s rest hq
  rw [step_cons hq]
  rfl

/-- The state after reset meets the invariant: each part is unconfigured, and there is an instance and a line for each
button (R371). -/
theorem Inv.resetWith {p : Params} (hp : p.wf) : Inv (State.resetWith p) where
  params := hp
  ser := .reset p
  enc := .reset p
  enc_ser := nofun
  busy_wait := nofun
  wait_port := nofun
  deb_length := List.length_replicate
  btn_length := List.length_replicate
  deb := fun _ hm => List.eq_of_mem_replicate hm ▸ DebInv.reset
  events := fun _ _ hm => absurd hm List.not_mem_nil

/-- Settles O51: the parameters of `State.reset` are admissible ones. -/
theorem resetMeetsTheInvariant : Obligations.ResetMeetsTheInvariant :=
  ⟨fun _ hp => .resetWith hp, .resetWith (by decide)⟩

/-! ### The turns that stop the machine -/

/-- A line that does not exist stops the machine (R56, log 8). -/
theorem lineChange_of_no_line {s : State} {i : Nat} (hi : s.params.numButtons ≤ i) (v : Bool) :
    lineChange i v s = .fault (.noSuchLine i) := by
  rw [lineChange, if_neg (Nat.not_lt.2 hi)]

/-- Settles O56: the turn is the next of the schedule, and it has no meaning to run. -/
theorem outsideTheBlockIsRefused : Obligations.OutsideTheBlockIsRefused := by
  refine fun s rest => ⟨fun y k b hq => step_cons hq, fun p hq => step_cons hq, fun i v hq hi => ?_⟩
  rw [step_cons hq, runTurn]
  exact lineChange_of_no_line (s := { s with schedule := rest }) hi v

/-! ### Past the schedule -/

/-- Settles O55: the agent is the one that the free value names. -/
theorem unscheduledTurnGoesToSomeAgent : Obligations.UnscheduledTurnGoesToSomeAgent := by
  intro s hq
  refine ⟨Config.freeAgent s.choices, ?_⟩
  rw [step_nil hq, step_cons rfl, ← hq]

end Sys2Proof.Machine
